-- ==== Sys2Proof/Word.lean ====
section
/-! DEFINITION. The word and byte types (spec/00_scope.md R8: registers and results are 32 bits wide; memories are bytes)
and the reduction of a mathematical integer to a register's width (R11). -/

namespace Sys2Proof

/-- A 32-bit register value, bus address or command word (R8). -/
abbrev Word := BitVec 32

/-- One byte of a memory or of a payload. -/
abbrev Byte := BitVec 8

/-- A non-negative integer stored in a 32-bit register: `v mod 2^32` (R11). -/
abbrev Word.ofNat (v : Nat) : Word := BitVec.ofNat 32 v

/-- A signed integer stored in a 32-bit register: the two's-complement pattern `v mod 2^32` (R11). -/
abbrev Word.ofInt (v : Int) : Word := BitVec.ofInt 32 v

end Sys2Proof
end

