-- ==== Sys2Proof/Config.lean ====
section
/-! DEFINITION. What an implementation fixes (spec/00_scope.md R9), the two memory bases (spec/20_memory.md R68), and the
one value the spec leaves open and the machine goes on with: the memories' contents at power-on. -/

namespace Sys2Proof

/-- The OPEN implementation parameters of R9. 'A model takes each OPEN parameter as an argument': they stand in State as
one field that no step changes, so that a statement about every state is a statement about every parameter value. -/
structure Params where
  /-- `PKT_MAX`: bytes in PKT_MEM. -/
  pktMax : Nat
  /-- `UNIT_MAX`: bytes in UNIT_MEM. -/
  unitMax : Nat
  /-- `OBU_VALID_TYPES`: the `obu_type` values the AV1 segmenter accepts. -/
  obuValidTypes : List Nat
  /-- `HAS_AUX`: whether the auxiliary read family is present. -/
  hasAux : Bool
  deriving DecidableEq, Repr

/-- The ranges R9 gives the parameters; `OBU_VALID_TYPES` is a set of 4-bit values (spec/30_encoding.md R105). -/
def Params.wf (p : Params) : Bool :=
  16 ≤ p.pktMax && p.pktMax ≤ 2 ^ 24 && 16 ≤ p.unitMax && p.unitMax ≤ 2 ^ 24 && p.obuValidTypes.all (· < 16)

/-- The parameters of State.reset: the defaults R9 names for `OBU_VALID_TYPES` and `HAS_AUX`, and for the two sizes, which
R9 leaves open, the 4096 of spec/95_test_vectors.md section 0 (DESIGN CHOICE, log 3, unsafe). -/
def Params.standard : Params :=
  { pktMax := 4096, unitMax := 4096, obuValidTypes := [1, 2, 3, 4, 5, 6, 7, 8, 15], hasAux := true }

/-- `EG_MAX_LZ`: the largest leading-zero count UE and SE accept (R9). -/
abbrev Config.egMaxLz : Nat := 31

/-- `SF_MAX_FRAMES`: the most frames a VP9 superframe index can list (R9). -/
abbrev Config.sfMaxFrames : Nat := 8

/-- `LEB128_MAX_BYTES`: the most bytes a LEB128 value may occupy (R9). -/
abbrev Config.leb128MaxBytes : Nat := 8

/-- `NMAX`: the largest n of `U n` (R9). -/
abbrev Config.nMax : Nat := 32

/-- `PKT_BASE` (spec/20_memory.md R68). -/
abbrev Config.pktBase : Nat := 0x01000000

/-- `UNIT_BASE` (spec/20_memory.md R68). -/
abbrev Config.unitBase : Nat := 0x02000000

/-- The register window's size in bytes (spec/20_memory.md R68: 0x0000_0000 .. 0x0000_00FF). -/
abbrev Config.regWindow : Nat := 0x100

/-- FREE VALUE (log 4, safe): the byte that the memory cell at a host address holds at power-on.
spec/93_implementation_defined.md entry 1.1: any value. It has no body, so nothing can be proved of it. -/
opaque Config.powerOnByte : Nat → Byte

end Sys2Proof
end

