-- ==== Sys2Proof/Syntax.lean ====
section
/-! DEFINITION. The commands as syntax: one constructor per row of spec/opcode_table.json (spec/30_encoding.md R82), their
operands as spec/30_encoding.md R84 and R85 name them, and the pseudo-instructions of R88. -/

namespace Sys2Proof

/-- The codec of a session (R85; spec/10_state.md R33). -/
inductive Codec where
  | h264
  | h265
  | vp9
  | av1
  deriving DecidableEq, Repr

/-- ALIGN's mode (R85). The fourth value of its field is reserved and is no instruction (R86). -/
inductive AlignMode where
  /-- Plain alignment. -/
  | skip
  /-- Alignment bits must be 0. -/
  | zero
  /-- RBSP trailing bits. -/
  | rbsp
  deriving DecidableEq, Repr

/-- LOAD_UNIT's source (R85). -/
inductive UnitSource where
  /-- The held unit in UNIT_MEM. -/
  | unit
  /-- `PKT_MEM[ARG0 .. ARG0+ARG1)`. -/
  | pkt
  deriving DecidableEq, Repr

/-- The 18 commands of R82. -/
inductive Instr where
  | nop
  | sreset
  | config (codec : Codec) (inmode : Bool)
  | loadUnit (src : UnitSource) (epb : Bool)
  | u (n : Nat)
  | ue
  | se
  | uvlc
  | align (mode : AlignMode)
  | aligned
  | leb128
  | su (n : Nat)
  | le (n : Nat)
  | ns
  | subexp
  | subexpRef
  | segPacket (eos eop disc : Bool)
  | segNext
  deriving DecidableEq, Repr

/-- The pseudo-instructions of R88. -/
inductive Pseudo where
  | flag
  | skip (n : Nat)
  | f (n : Nat)
  | trailing
  | byteAlignment
  | loadNal
  deriving DecidableEq, Repr

/-- Each pseudo-instruction assembles to exactly one command (R88). -/
def Pseudo.expand : Pseudo → Instr
  | .flag => .u 1
  | .skip n => .u n
  | .f n => .u n
  | .trailing => .align .rbsp
  | .byteAlignment => .align .zero
  | .loadNal => .loadUnit .unit true

end Sys2Proof
end

