-- ==== Sys2Proof/WellFormed.lean ====
section
/-! DEFINITION. The operand constraints of spec/30_encoding.md R82 that the syntax does not already rule out, and which
commands belong to the auxiliary family (R83 check 2). -/

namespace Sys2Proof

/-- The operand constraint of the command's row in R82. -/
def Instr.wellFormed : Instr → Bool
  | .nop => true
  | .sreset => true
  | .config codec inmode => !(codec == .vp9 && inmode)
  | .loadUnit _ _ => true
  | .u n => n ≤ Config.nMax
  | .ue => true
  | .se => true
  | .uvlc => true
  | .align _ => true
  | .aligned => true
  | .leb128 => true
  | .su n => 1 ≤ n && n ≤ 32
  | .le n => 1 ≤ n && n ≤ 4
  | .ns => true
  | .subexp => true
  | .subexpRef => true
  | .segPacket _ _ _ => true
  | .segNext => true

/-- The commands that exist only when `HAS_AUX` = 1 (R82, R83). -/
def Instr.isAux : Instr → Bool
  | .leb128 => true
  | .su _ => true
  | .le _ => true
  | .ns => true
  | .subexp => true
  | .subexpRef => true
  | .nop => false
  | .sreset => false
  | .config _ _ => false
  | .loadUnit _ _ => false
  | .u _ => false
  | .ue => false
  | .se => false
  | .uvlc => false
  | .align _ => false
  | .aligned => false
  | .segPacket _ _ _ => false
  | .segNext => false

end Sys2Proof
end

