-- ==== Sys2Proof/Decode.lean ====
section
/-! DEFINITION. Decoding a command word, total, every rejection named in the order of spec/30_encoding.md R83, and the
encoder, both written from the tables R80 to R85. -/

namespace Sys2Proof

/-- The 18 listed opcodes (R82). -/
inductive Opcode where
  | nop | sreset | config | loadUnit | u | ue | se | uvlc | align | aligned
  | leb128 | su | le | ns | subexp | subexpRef | segPacket | segNext
  deriving DecidableEq, Repr

/-- The command formats (R81). -/
inductive Format where
  /-- No named field. -/
  | none
  /-- `n` = bits 5:0. -/
  | width
  /-- `n` = bits 2:0. -/
  | bytes
  /-- `mode` = bits 1:0. -/
  | mode
  /-- `codec` = bits 1:0, `inmode` = bit 2. -/
  | config
  /-- `epb` = bit 0, `src` = bit 1. -/
  | load
  /-- `eos` = bit 0, `eop` = bit 1, `disc` = bit 2. -/
  | flags
  deriving DecidableEq, Repr

/-- Why a word is refused, in the order of R83's checks. -/
inductive DecodeError where
  /-- Check 1: the opcode is not listed in R82. -/
  | unlistedOpcode
  /-- Check 2: an auxiliary opcode with `HAS_AUX` = 0. -/
  | auxAbsent
  /-- Check 3: a reserved bit of the opcode's format is set. -/
  | reservedBit
  /-- Check 4: the operand constraint of R82 does not hold. -/
  | operandConstraint
  deriving DecidableEq, Repr

/-- The opcode column of R82. -/
def Opcode.code : Opcode → BitVec 6
  | .nop => 0x00
  | .sreset => 0x01
  | .config => 0x02
  | .loadUnit => 0x03
  | .u => 0x08
  | .ue => 0x09
  | .se => 0x0A
  | .uvlc => 0x0B
  | .align => 0x0C
  | .aligned => 0x0D
  | .leb128 => 0x10
  | .su => 0x11
  | .le => 0x12
  | .ns => 0x13
  | .subexp => 0x14
  | .subexpRef => 0x15
  | .segPacket => 0x20
  | .segNext => 0x21

/-- Every listed opcode, in the table's order. -/
def Opcode.all : List Opcode :=
  [.nop, .sreset, .config, .loadUnit, .u, .ue, .se, .uvlc, .align, .aligned,
   .leb128, .su, .le, .ns, .subexp, .subexpRef, .segPacket, .segNext]

/-- The format column of R82. -/
def Opcode.format : Opcode → Format
  | .nop | .sreset | .ue | .se | .uvlc | .aligned | .leb128 | .ns | .subexp | .subexpRef | .segNext => .none
  | .u | .su => .width
  | .le => .bytes
  | .align => .mode
  | .config => .config
  | .loadUnit => .load
  | .segPacket => .flags

/-- How many low bits of the operand field the format names (R81); every bit above them is reserved. -/
def Format.fieldBits : Format → Nat
  | .none => 0
  | .width => 6
  | .bytes => 3
  | .mode => 2
  | .config => 3
  | .load => 2
  | .flags => 3

/-- R83 check 2: opcodes 0x10 to 0x15. -/
def Opcode.isAux (op : Opcode) : Bool := 0x10 ≤ op.code.toNat && op.code.toNat ≤ 0x15

/-- Bits 31:26 (R80). -/
def opcodeField (w : Word) : BitVec 6 := w.extractLsb' 26 6

/-- Bits 25:0 (R80). -/
def operandField (w : Word) : BitVec 26 := w.extractLsb' 0 26

/-- `n` of format W: `w[5:0]` (R84). -/
def fieldWidth (w : Word) : Nat := (w.extractLsb' 0 6).toNat

/-- `n` of format B: `w[2:0]` (R84). -/
def fieldBytes (w : Word) : Nat := (w.extractLsb' 0 3).toNat

/-- `mode` and `codec`: `w[1:0]` (R84). -/
def fieldTwo (w : Word) : BitVec 2 := w.extractLsb' 0 2

/-- `codec` (R85). -/
def Codec.ofField (v : BitVec 2) : Codec :=
  if v = 0 then .h264 else if v = 1 then .h265 else if v = 2 then .vp9 else .av1

/-- The codec's number (R85; spec/10_state.md R33). -/
def Codec.field : Codec → BitVec 2
  | .h264 => 0
  | .h265 => 1
  | .vp9 => 2
  | .av1 => 3

/-- `mode` of ALIGN; 3 is reserved (R85). -/
def AlignMode.ofField (v : BitVec 2) : Option AlignMode :=
  if v = 0 then some .skip else if v = 1 then some .zero else if v = 2 then some .rbsp else none

/-- The mode's number (R85). -/
def AlignMode.field : AlignMode → BitVec 2
  | .skip => 0
  | .zero => 1
  | .rbsp => 2

/-- `src` of LOAD_UNIT (R85). -/
def UnitSource.ofBit (b : Bool) : UnitSource := if b then .pkt else .unit

/-- The source's bit (R85; spec/10_state.md R26 RD_SRC). -/
def UnitSource.bit : UnitSource → Bool
  | .unit => false
  | .pkt => true

/-- The command an opcode and a word's operand bits stand for (R84, R85); `none` for ALIGN mode 3, which names no mode. -/
def readOperands (op : Opcode) (w : Word) : Option Instr :=
  match op with
  | .nop => some .nop
  | .sreset => some .sreset
  | .config => some (.config (Codec.ofField (fieldTwo w)) (w.getLsbD 2))
  | .loadUnit => some (.loadUnit (UnitSource.ofBit (w.getLsbD 1)) (w.getLsbD 0))
  | .u => some (.u (fieldWidth w))
  | .ue => some .ue
  | .se => some .se
  | .uvlc => some .uvlc
  | .align => (AlignMode.ofField (fieldTwo w)).map .align
  | .aligned => some .aligned
  | .leb128 => some .leb128
  | .su => some (.su (fieldWidth w))
  | .le => some (.le (fieldBytes w))
  | .ns => some .ns
  | .subexp => some .subexp
  | .subexpRef => some .subexpRef
  | .segPacket => some (.segPacket (w.getLsbD 0) (w.getLsbD 1) (w.getLsbD 2))
  | .segNext => some .segNext

/-- The listed opcode a word carries, if any (R82, R83 check 1). -/
def Opcode.ofWord (w : Word) : Option Opcode := Opcode.all.find? (fun op => op.code == opcodeField w)

/-- R83: the four checks in their order; the first that fails names the rejection. Whether a word is illegal depends only
on the word and on `HAS_AUX` (spec/60_exceptions.md R264). -/
def decode (hasAux : Bool) (w : Word) : Except DecodeError Instr :=
  match Opcode.ofWord w with
  | none => .error .unlistedOpcode
  | some op =>
    if op.isAux && !hasAux then .error .auxAbsent
    else if (operandField w).toNat ≥ 2 ^ op.format.fieldBits then .error .reservedBit
    else
      match readOperands op w with
      | none => .error .operandConstraint
      | some i => if i.wellFormed then .ok i else .error .operandConstraint

/-- The instruction the decoder reads from a word of the opcode table (`HAS_AUX` = 1, as the table's constraint column
asks of its auxiliary rows). Every row is 32 bits and bit 0 of the table's number is bit 0 of the word (R80). -/
def decodeTableWord (nbits w : Nat) : Option Instr :=
  match decode true (Word.ofNat (w % 2 ^ nbits)) with
  | .ok i => some i
  | .error _ => none

/-- The opcode of a command (R82). -/
def Instr.opcode : Instr → Opcode
  | .nop => .nop
  | .sreset => .sreset
  | .config _ _ => .config
  | .loadUnit _ _ => .loadUnit
  | .u _ => .u
  | .ue => .ue
  | .se => .se
  | .uvlc => .uvlc
  | .align _ => .align
  | .aligned => .aligned
  | .leb128 => .leb128
  | .su _ => .su
  | .le _ => .le
  | .ns => .ns
  | .subexp => .subexp
  | .subexpRef => .subexpRef
  | .segPacket _ _ _ => .segPacket
  | .segNext => .segNext

/-- The operand bits 25:0 of a command, reserved bits 0 (R81, R85). -/
def Instr.operandBits : Instr → BitVec 26
  | .config codec inmode => 0#23 ++ BitVec.ofBool inmode ++ codec.field
  | .loadUnit src epb => 0#24 ++ BitVec.ofBool src.bit ++ BitVec.ofBool epb
  | .u n => 0#20 ++ BitVec.ofNat 6 n
  | .align mode => 0#24 ++ mode.field
  | .su n => 0#20 ++ BitVec.ofNat 6 n
  | .le n => 0#23 ++ BitVec.ofNat 3 n
  | .segPacket eos eop disc => 0#23 ++ BitVec.ofBool disc ++ BitVec.ofBool eop ++ BitVec.ofBool eos
  | .nop => 0
  | .sreset => 0
  | .ue => 0
  | .se => 0
  | .uvlc => 0
  | .aligned => 0
  | .leb128 => 0
  | .ns => 0
  | .subexp => 0
  | .subexpRef => 0
  | .segNext => 0

/-- The command word: the opcode in bits 31:26, the operand field below it (R80). -/
def encode (i : Instr) : Word := i.opcode.code ++ i.operandBits

end Sys2Proof
end

