-- ==== Sys2Proof/Machine/State.lean ====
section
/-! DEFINITION. The machine's state as plain data (spec/10_state.md R20 to R49), why a run can stop, and the state after
power-on reset (spec/70_reset_and_hazards.md R290). Fields the spec derives from others (PLEN, RAW_OFF, EPB_COUNT,
RD_STATUS.ALIGNED: R28, R29, R26) are computed where they are read, in Machine/Flags.lean. -/

namespace Sys2Proof.Machine

/-- Why the machine stops with a fault: never. 'No command ends in any other way. None hangs, traps or leaves a partial
state' (spec/60_exceptions.md R260); no trap, bus error or memory-access fault exists (R273 to R275). Log 9. -/
inductive Fault where
  deriving DecidableEq, Repr

/-- Why a step has no meaning. -/
inductive Refusal where
  /-- Raised by an arm of exec whose command has no meaning in the model; no arm of this model is one. Safe. -/
  | notModelled (mnemonic : String)
  deriving DecidableEq, Repr

/-- The cause codes (spec/60_exceptions.md R261). The reserved codes 9 to 15, 17 and 27 to 255 are never produced, so they
have no constructor. -/
inductive Cause where
  | ok
  | illegalCmd
  | noUnit
  | overrun
  | trailingBits
  | egOverflow
  | aborted
  | leb128Overflow
  | badArg
  | notConfigured
  | unitTooLong
  | obuForbidden
  | obuType
  | obuSize
  | obuLeb128
  | sfSize
  | pktTooLong
  | obuTrunc
  | segBusy
  deriving DecidableEq, Repr

/-- SEG_STATUS.SEG_RESULT (spec/10_state.md R38). -/
inductive SegResult where
  | none
  | unit
  | needData
  | error
  deriving DecidableEq, Repr

/-- The widths of a host access (spec/20_memory.md R69). -/
inductive AccessWidth where
  | byte
  | half
  | word
  deriving DecidableEq, Repr

/-- One bus access of the host (spec/20_memory.md R68, R69). A narrow write carries its value in the low bits. -/
inductive HostAccess where
  | read (addr : Word) (width : AccessWidth)
  | write (addr : Word) (width : AccessWidth) (value : Word)
  deriving DecidableEq, Repr

/-- A byte memory: (index, byte) for each byte written since power-on, indexes strictly rising. -/
abbrev Memory := List Host.Cell

/-- CONFIG (spec/10_state.md R33). -/
structure SessionConfig where
  codec : Codec
  inmode : Bool
  valid : Bool
  deriving DecidableEq, Repr

/-- PKT_FLAGS (spec/10_state.md R35). -/
structure PktFlags where
  eos : Bool
  eop : Bool
  disc : Bool
  deriving DecidableEq, Repr

/-- The bit reader's registers and its payload (spec/10_state.md R26 to R31, R47). -/
structure Reader where
  /-- RD_STATUS.UNIT_VALID. -/
  unitValid : Bool
  /-- RD_STATUS.EPB_EN. -/
  epbEn : Bool
  /-- RD_STATUS.RD_SRC. -/
  src : UnitSource
  /-- RD_STATUS.ERR. -/
  err : Bool
  /-- RD_STATUS.ERR_CAUSE; `ok` is its value 0. -/
  errCause : Cause
  /-- POS. -/
  pos : Word
  /-- ERR_POS. -/
  errPos : Word
  /-- RD_BASE. -/
  base : Word
  /-- RAW_LEN. -/
  rawLen : Word
  /-- The payload P with its map (spec/20_memory.md R62): for each payload byte its raw offset and its value. -/
  payload : List Host.Cell
  deriving DecidableEq, Repr

/-- The segmenter's registers (spec/10_state.md R35, R37 to R45). -/
structure Segmenter where
  /-- SEG_STATUS.SEG_RESULT. -/
  result : SegResult
  /-- SEG_STATUS.PKT_ACTIVE. -/
  active : Bool
  /-- SEG_STATUS.UNIT_HELD. -/
  held : Bool
  /-- SEG_STATUS.IN_UNIT. -/
  inUnit : Bool
  /-- SEG_STATUS.ZC, saturating at 2. -/
  zc : Fin 3
  /-- SEG_STATUS.SEG_CAUSE; `ok` is its value 0. -/
  cause : Cause
  /-- PKT_FLAGS. -/
  flags : PktFlags
  /-- PKT_POS. -/
  pktPos : Word
  /-- UNIT_LEN. -/
  unitLen : Word
  /-- UNIT_INFO. -/
  unitInfo : Word
  /-- UNIT_COUNT. -/
  unitCount : Word
  /-- SF_COUNT. -/
  sfCount : Word
  /-- SF_INDEX_SIZE. -/
  sfIndexSize : Word
  /-- SF_NEXT. -/
  sfNext : Word
  /-- SF_BASE. -/
  sfBase : Word
  /-- SF_SIZE[0..7]. -/
  sfSize : Vector Word 8
  deriving DecidableEq, Repr

/-- The whole machine. `pending` and `busData` are the model's own fields (log 1, log 2): the host's accesses not yet made
('the command sequence ... is the host's program, a parameter of a run', R48) and the value its latest read returned. -/
structure State where
  /-- The implementation parameters (spec/00_scope.md R9); no step changes them. -/
  params : Params
  /-- The host's accesses not yet made, oldest first. -/
  pending : List HostAccess
  /-- What the host's latest read access returned. -/
  busData : Word
  /-- CMD (R23). -/
  cmd : Word
  /-- RESULT (R24). -/
  result : Word
  /-- CMD_STATUS.LAST_OK (R25). -/
  lastOk : Bool
  /-- CMD_STATUS.LAST_CAUSE (R25). -/
  lastCause : Cause
  /-- ARG0 (R32). -/
  arg0 : Word
  /-- ARG1 (R32). -/
  arg1 : Word
  /-- ARG2 (R32). -/
  arg2 : Word
  /-- CONFIG (R33). -/
  cfg : SessionConfig
  /-- PKT_LEN (R34). -/
  pktLen : Word
  /-- The bit reader. -/
  rd : Reader
  /-- The segmenter. -/
  seg : Segmenter
  /-- PKT_MEM (R36). -/
  pktMem : Memory
  /-- UNIT_MEM (R36). -/
  unitMem : Memory
  deriving DecidableEq, Repr

/-- The reader's registers after reset (spec/70_reset_and_hazards.md R290 step 1). -/
def Reader.reset : Reader :=
  { unitValid := false, epbEn := false, src := .unit, err := false, errCause := .ok,
    pos := 0, errPos := 0, base := 0, rawLen := 0, payload := [] }

/-- The segmenter's registers after reset (spec/70_reset_and_hazards.md R290 step 1). -/
def Segmenter.reset : Segmenter :=
  { result := .none, active := false, held := false, inUnit := false, zc := 0, cause := .ok,
    flags := { eos := false, eop := false, disc := false },
    pktPos := 0, unitLen := 0, unitInfo := 0, unitCount := 0,
    sfCount := 0, sfIndexSize := 0, sfNext := 0, sfBase := 0, sfSize := Vector.replicate 8 0 }

/-- The machine right after power-on reset, for given parameters (spec/70_reset_and_hazards.md R290 steps 1 and 2): every
register at its reset value, no memory byte written. -/
def State.resetWith (p : Params) : State :=
  { params := p, pending := [], busData := 0,
    cmd := 0, result := 0, lastOk := true, lastCause := .ok, arg0 := 0, arg1 := 0, arg2 := 0,
    cfg := { codec := .h264, inmode := false, valid := false }, pktLen := 0,
    rd := Reader.reset, seg := Segmenter.reset, pktMem := [], unitMem := [] }

/-- The machine right after power-on reset, with the parameters of Params.standard (log 3). -/
def State.reset : State := State.resetWith Params.standard

end Sys2Proof.Machine
end

