-- ==== Sys2Proof/Machine/Ops.lean ====
section
/-! DEFINITION. The shared operations: reading and writing a byte memory; the engine's bytes PKT[i] and UNIT[i]; the ways
a command ends (spec/40_control.md R121; spec/60_exceptions.md R266 to R268), which stand where a processor's model takes
an exception; and the operations the segmenter commands share. -/

namespace Sys2Proof.Machine

/-! ## Memory -/

/-- The byte written at index `a`, if one was. -/
def Memory.read? : Memory → Nat → Option Byte
  | [], _ => none
  | c :: m, a => if c.1 = a then some c.2 else Memory.read? m a

/-- Store a byte at index `a`, keeping the indexes strictly rising. -/
def Memory.write : Memory → Nat → Byte → Memory
  | [], a, b => [(a, b)]
  | c :: m, a, b =>
    if a < c.1 then (a, b) :: c :: m
    else if a = c.1 then (a, b) :: m
    else c :: Memory.write m a b

/-- Store consecutive bytes from index `a` on, one at a time (spec/20_memory.md R66). -/
def Memory.writeBytes (m : Memory) (a : Nat) : List Byte → Memory
  | [] => m
  | b :: bs => Memory.writeBytes (Memory.write m a b) (a + 1) bs

/-- The canonical form: indexes strictly rising. An unlisted index reads as the free power-on byte, which no listed byte can
be seen to equal (log 5). -/
def Memory.wf : Memory → Bool
  | [] => true
  | c :: m => m.all (fun d => c.1 < d.1) && Memory.wf m

/-- What memory cell `i` of the memory at host address `base` holds: the byte written there, else the free value of
power-on (spec/93_implementation_defined.md entry 1.1; log 4). -/
def Memory.byte (base : Nat) (m : Memory) (i : Nat) : Byte :=
  (Memory.read? m i).getD (Config.powerOnByte (base + i))

/-- `PKT[i]` (spec/20_memory.md R70); 0 at or above `PKT_MAX` (spec/70_reset_and_hazards.md R302). -/
def State.pktByte (s : State) (i : Nat) : Byte :=
  if i < s.params.pktMax then Memory.byte Config.pktBase s.pktMem i else 0

/-- `UNIT[i]` (spec/20_memory.md R70); 0 at or above `UNIT_MAX` (R68). -/
def State.unitByte (s : State) (i : Nat) : Byte :=
  if i < s.params.unitMax then Memory.byte Config.unitBase s.unitMem i else 0

/-- `PKT[start .. start+n)`. -/
def State.pktBytes (s : State) (start n : Nat) : List Byte :=
  (List.range n).map (fun i => s.pktByte (start + i))

/-- `UNIT[0 .. n)`. -/
def State.unitBytes (s : State) (n : Nat) : List Byte :=
  (List.range n).map (fun i => s.unitByte i)

/-! ## How a command ends -/

/-- `succeed` (spec/40_control.md R121). -/
def State.succeed (s : State) : State := { s with lastOk := true, lastCause := .ok }

/-- `refuse(c)` (spec/60_exceptions.md R268). -/
def State.refuse (c : Cause) (s : State) : State := { s with lastOk := false, lastCause := c }

/-- `fail(c)` (spec/60_exceptions.md R266). -/
def State.fail (c : Cause) (s : State) : State :=
  { s with
    lastOk := false
    lastCause := c
    rd := if s.rd.err then s.rd else { s.rd with err := true, errCause := c, errPos := s.rd.pos } }

/-- `seg_fail(c)` (spec/60_exceptions.md R267). -/
def State.segFail (c : Cause) (s : State) : State :=
  { s with lastOk := false, lastCause := c, seg := { s.seg with result := .error, cause := c } }

/-! ## Binding and units -/

/-- `Unbind()` (spec/10_state.md R46): P becomes empty, so PLEN reads 0. -/
def State.unbind (s : State) : State :=
  { s with rd := { s.rd with unitValid := false, payload := [], pos := 0, rawLen := 0 } }

/-- `if RD_SRC == 0: Unbind()` (spec/44_segmenter_nal.md R202, R204). -/
def State.unbindUnit (s : State) : State := if s.rd.src = .unit then s.unbind else s

/-- The segmenter's superframe registers all 0 (spec/44_segmenter_nal.md R201, R202). -/
def Segmenter.clearSf (g : Segmenter) : Segmenter :=
  { g with sfCount := 0, sfIndexSize := 0, sfNext := 0, sfBase := 0, sfSize := Vector.replicate 8 0 }

/-- `StreamFlush()` (spec/44_segmenter_nal.md R202). -/
def State.streamFlush (s : State) : State :=
  let t := s.unbindUnit
  { t with
    seg := Segmenter.clearSf
      { t.seg with
        held := false, unitLen := 0, unitInfo := 0, inUnit := false, zc := 0, active := false, pktPos := 0 } }

/-- `Release()` (spec/44_segmenter_nal.md R204). -/
def State.release (s : State) : State :=
  if s.seg.held then
    State.unbindUnit { s with seg := { s.seg with held := false, unitLen := 0, unitInfo := 0 } }
  else s

/-- `SEG_RESULT <- NEED_DATA; SEG_CAUSE <- 0; succeed` (spec/44_segmenter_nal.md R204, R208). -/
def State.needData (s : State) : State :=
  State.succeed { s with seg := { s.seg with result := .needData, cause := .ok } }

/-- `emit_unit(info)` (spec/44_segmenter_nal.md R205). -/
def State.emitUnit (info : Word) (s : State) : State :=
  State.succeed
    { s with
      result := s.seg.unitLen
      seg := { s.seg with
        held := true, unitInfo := info, unitCount := s.seg.unitCount + 1, result := .unit, cause := .ok } }

/-- The packet is given up: `PKT_POS <- PKT_LEN; PKT_ACTIVE <- 0; UNIT_LEN <- 0; seg_fail(c)`
(spec/45_segmenter_obu.md R228; spec/46_segmenter_vp9.md R245). -/
def State.abandon (c : Cause) (s : State) : State :=
  State.segFail c { s with seg := { s.seg with pktPos := s.pktLen, active := false, unitLen := 0 } }

/-- `UNIT_LEN <- 0; seg_fail(UNIT_TOO_LONG)` (spec/44_segmenter_nal.md R210; spec/45_segmenter_obu.md R225;
spec/46_segmenter_vp9.md R243, R244). -/
def State.dropLongUnit (s : State) : State :=
  State.segFail .unitTooLong { s with seg := { s.seg with unitLen := 0 } }

/-- `UNIT[0 .. n) <- PKT[start .. start+n); UNIT_LEN <- n` (spec/44_segmenter_nal.md R210, R212). -/
def State.copyUnit (start n : Nat) (s : State) : State :=
  { s with
    unitMem := Memory.writeBytes s.unitMem 0 (s.pktBytes start n)
    seg := { s.seg with unitLen := Word.ofNat n } }

/-- `UNIT[UNIT_LEN] <- b; UNIT_LEN <- UNIT_LEN + 1` (spec/44_segmenter_nal.md R207). -/
def State.appendByte (b : Byte) (s : State) : State :=
  { s with
    unitMem := Memory.write s.unitMem s.seg.unitLen.toNat b
    seg := { s.seg with unitLen := Word.ofNat (s.seg.unitLen.toNat + 1) } }

/-- Append `n` bytes 0x00 to the unit being collected (spec/44_segmenter_nal.md R207, R208). -/
def State.appendZeros : Nat → State → State
  | 0, s => s
  | n + 1, s => State.appendZeros n (State.appendByte 0 s)

end Sys2Proof.Machine
end

