-- ==== Sys2Proof/Machine/Operands.lean ====
section
/-! DEFINITION. The operands a command takes from registers: ARG0 to ARG2 as unsigned numbers, and as the 32-bit two's
complement that SUBEXP_REF reads (spec/30_encoding.md R84; spec/10_state.md R32); and a bit field read as two's complement
(spec/00_scope.md R11). -/

namespace Sys2Proof.Machine

/-- A 32-bit register read as an unsigned number (R84). -/
def unsigned (w : Word) : Nat := w.toNat

/-- A 32-bit register read as two's complement (R84). -/
def signed (w : Word) : Int := if w.toNat < 2 ^ 31 then (w.toNat : Int) else (w.toNat : Int) - 2 ^ 32

/-- An `n`-bit field read as two's complement: `sext_n` (R11). -/
def signedField (n v : Nat) : Int := if v < 2 ^ (n - 1) then (v : Int) else (v : Int) - 2 ^ n

end Sys2Proof.Machine
end

