-- ==== Sys2Proof/Machine/Flags.lean ====
section
/-! DEFINITION. The block has no flags or condition codes (spec/10_state.md R49). This file holds what stands in their
place: the cause codes' numbers, the values derived from other state (PLEN, RAW_OFF, EPB_COUNT, ALIGNED), and the words the
status registers read as. -/

namespace Sys2Proof.Machine

/-- The code column of spec/60_exceptions.md R261. -/
def Cause.code : Cause → BitVec 8
  | .ok => 0
  | .illegalCmd => 1
  | .noUnit => 2
  | .overrun => 3
  | .trailingBits => 4
  | .egOverflow => 5
  | .aborted => 6
  | .leb128Overflow => 7
  | .badArg => 8
  | .notConfigured => 16
  | .unitTooLong => 18
  | .obuForbidden => 19
  | .obuType => 20
  | .obuSize => 21
  | .obuLeb128 => 22
  | .sfSize => 23
  | .pktTooLong => 24
  | .obuTrunc => 25
  | .segBusy => 26

/-- SEG_RESULT's numbers (spec/10_state.md R38). -/
def SegResult.code : SegResult → BitVec 2
  | .none => 0
  | .unit => 1
  | .needData => 2
  | .error => 3

/-- The payload bytes P (spec/20_memory.md R62). -/
def Reader.bytes (r : Reader) : List Byte := r.payload.map Prod.snd

/-- PLEN (spec/10_state.md R28). -/
def Reader.plen (r : Reader) : Nat := r.payload.length

/-- RAW_OFF (spec/20_memory.md R64): `map[k]`, and RAW_LEN at the end of the payload. -/
def Reader.rawOff (r : Reader) : Nat :=
  match r.payload[r.pos.toNat / 8]? with
  | some c => c.1
  | none => r.rawLen.toNat

/-- EPB_COUNT (spec/20_memory.md R64). -/
def Reader.epbCount (r : Reader) : Nat := r.rawOff - r.pos.toNat / 8

/-- RD_STATUS.ALIGNED: `(POS mod 8) == 0` (spec/10_state.md R26). -/
def Reader.aligned (r : Reader) : Bool := r.pos.toNat % 8 == 0

/-- CMD_STATUS (spec/10_state.md R25), most significant field first. -/
def State.cmdStatus (s : State) : Word :=
  0#16 ++ s.lastCause.code ++ 0#7 ++ BitVec.ofBool s.lastOk

/-- RD_STATUS (spec/10_state.md R26), most significant field first. -/
def Reader.status (r : Reader) : Word :=
  0#16 ++ r.errCause.code ++ 0#3 ++ BitVec.ofBool r.aligned ++ BitVec.ofBool r.err ++ BitVec.ofBool r.src.bit
    ++ BitVec.ofBool r.epbEn ++ BitVec.ofBool r.unitValid

/-- CONFIG (spec/10_state.md R33), most significant field first. -/
def SessionConfig.word (c : SessionConfig) : Word :=
  0#28 ++ BitVec.ofBool c.valid ++ BitVec.ofBool c.inmode ++ c.codec.field

/-- PKT_FLAGS (spec/10_state.md R35), most significant field first. -/
def PktFlags.word (f : PktFlags) : Word :=
  0#29 ++ BitVec.ofBool f.disc ++ BitVec.ofBool f.eop ++ BitVec.ofBool f.eos

/-- SEG_STATUS (spec/10_state.md R38), most significant field first. -/
def Segmenter.status (g : Segmenter) : Word :=
  0#16 ++ g.cause.code ++ 0#1 ++ BitVec.ofNat 2 g.zc.val ++ BitVec.ofBool g.inUnit ++ BitVec.ofBool g.held
    ++ BitVec.ofBool g.active ++ g.result.code

end Sys2Proof.Machine
end

