-- ==== Sys2Proof/Machine/BitReader.lean ====
section
/-! DEFINITION. The read primitives over a payload P and a private cursor q (spec/41_fixed_width.md R140 to R142), the codes
the read commands share (spec/30_encoding.md R100 to R112), and the frame of every read command. Values are mathematical
integers (spec/00_scope.md R11); a register's width is applied where a result is stored. -/

namespace Sys2Proof.Machine

/-- How a run of `Take`s ends: a value and the private cursor after it, or the cause `fail` is called with. -/
inductive ReadOutcome (α : Type) where
  | got (value : α) (cursor : Nat)
  | failed (cause : Cause)
  deriving DecidableEq, Repr

/-- Go on with the value and the cursor a read left, if it did not fail. -/
def ReadOutcome.andThen {α β : Type} (r : ReadOutcome α) (next : α → Nat → ReadOutcome β) : ReadOutcome β :=
  match r with
  | .got v q => next v q
  | .failed c => .failed c

/-- `bitAt(P, p) = P[p div 8][7 - (p mod 8)]` (spec/00_scope.md R13). -/
def bitAt (P : List Byte) (p : Nat) : Bool := (P.getD (p / 8) 0).getLsbD (7 - p % 8)

/-- The n bits from bit index q on, the first the most significant (spec/00_scope.md R13). -/
def bitsAt (P : List Byte) (q : Nat) : Nat → Nat
  | 0 => 0
  | n + 1 => 2 * bitsAt P q n + (bitAt P (q + n)).toNat

/-- `Take(n)` (spec/41_fixed_width.md R142): OVERRUN when the last bit would lie at or beyond bit `8*PLEN`. -/
def take (P : List Byte) (n q : Nat) : ReadOutcome Nat :=
  if q + n > 8 * P.length then .failed .overrun else .got (bitsAt P q n) (q + n)

/-- The exp-Golomb prefix (spec/42_exp_golomb.md R160): counts 0 bits from `L` on up to the first 1 bit, which is consumed.
After `limit` zeros it fails with `onLimit`. -/
def zeroPrefix (P : List Byte) (onLimit : Cause) : (limit L q : Nat) → ReadOutcome Nat
  | 0, _, _ => .failed onLimit
  | limit + 1, L, q =>
    (take P 1 q).andThen fun b q' => if b = 1 then .got L q' else zeroPrefix P onLimit limit (L + 1) q'

/-- UE's codeNum (spec/42_exp_golomb.md R161): EG_OVERFLOW once `EG_MAX_LZ + 1` zeros are counted. -/
def readUe (P : List Byte) (q : Nat) : ReadOutcome Nat :=
  (zeroPrefix P .egOverflow (Config.egMaxLz + 1) 0 q).andThen fun L q1 =>
    (take P L q1).andThen fun suffix q2 => .got (2 ^ L - 1 + suffix) q2

/-- SE's zig-zag (spec/42_exp_golomb.md R164). -/
def zigZag (k : Nat) : Int := if k % 2 = 1 then (((k + 1) / 2 : Nat) : Int) else -((k / 2 : Nat) : Int)

/-- UVLC's value (spec/42_exp_golomb.md R167). The prefix has no limit of its own: `8*PLEN - q` zeros exhaust the payload,
and the next `Take` fails with OVERRUN. -/
def readUvlc (P : List Byte) (q : Nat) : ReadOutcome Nat :=
  (zeroPrefix P .overrun (8 * P.length - q + 1) 0 q).andThen fun L q1 =>
    if 32 ≤ L then .got (2 ^ 32 - 1) q1
    else (take P L q1).andThen fun suffix q2 => .got (2 ^ L - 1 + suffix) q2

/-- LEB128 over any source of bytes (spec/30_encoding.md R108): `byteAt i` is the value's byte i, `none` where the source
ends. Answers the value and its byte count; `none` when truncated. At most `left` more bytes are read, from byte `i` on. -/
def lebLoop (byteAt : Nat → Option Byte) : (left i v : Nat) → Option (Nat × Nat)
  | 0, i, v => some (v, i)
  | left + 1, i, v =>
    match byteAt i with
    | none => none
    | some b =>
      let v' := v + (b.toNat % 128) * 2 ^ (7 * i)
      if b.toNat < 128 then some (v', i + 1) else lebLoop byteAt left (i + 1) v'

/-- A LEB128 value and its byte count from its first byte on (spec/30_encoding.md R108). -/
def lebRead (byteAt : Nat → Option Byte) : Option (Nat × Nat) := lebLoop byteAt Config.leb128MaxBytes 0 0

/-- The i-th 8-bit group from bit index q on, if it lies inside the payload. -/
def payloadGroup (P : List Byte) (q i : Nat) : Option Byte :=
  match take P 8 (q + 8 * i) with
  | .got v _ => some (BitVec.ofNat 8 v)
  | .failed _ => none

/-- LEB128's value (spec/43_av1_vp9_codes.md R180). -/
def readLeb128 (P : List Byte) (q : Nat) : ReadOutcome Nat :=
  match lebRead (payloadGroup P q) with
  | none => .failed .overrun
  | some (v, count) => if v > 2 ^ 32 - 1 then .failed .leb128Overflow else .got v (q + 8 * count)

/-- LE's value (spec/43_av1_vp9_codes.md R184): `left` more bytes, the next one the i-th. -/
def readLe (P : List Byte) : (left i t q : Nat) → ReadOutcome Nat
  | 0, _, t, q => .got t q
  | left + 1, i, t, q => (take P 8 q).andThen fun b q' => readLe P left (i + 1) (t + b * 2 ^ (8 * i)) q'

/-- `NsRead(n)` (spec/43_av1_vp9_codes.md R186). With n = 1 its `Take(0)` succeeds even at the end of the payload (R187), in
an empty one too: `Take` overruns only past `8*PLEN` (spec/41_fixed_width.md R142). spec/40_control.md R126's remark on
`len` = 0 says otherwise: DEDUCED, unsafe (log 17). -/
def readNs (P : List Byte) (n q : Nat) : ReadOutcome Nat :=
  let w := Nat.log2 n + 1
  let m := 2 ^ w - n
  (take P (w - 1) q).andThen fun v q1 =>
    if v < m then .got v q1
    else (take P 1 q1).andThen fun e q2 => .got (2 * v - m + e) q2

/-- The rounds of `SubexpRead` (spec/43_av1_vp9_codes.md R188) from round i on. `rounds` bounds them: a round that does not
return consumes a bit, so `8*PLEN - q + 1` is never used up (log 10). -/
def subexpLoop (P : List Byte) (numSyms : Nat) : (rounds i mk q : Nat) → ReadOutcome Nat
  | 0, _, _, _ => .failed .overrun
  | rounds + 1, i, mk, q =>
    let b2 := if i > 0 then 3 + i - 1 else 3
    let a := 2 ^ b2
    if numSyms ≤ mk + 3 * a then (readNs P (numSyms - mk) q).andThen fun v q' => .got (v + mk) q'
    else
      (take P 1 q).andThen fun more q1 =>
        if more = 1 then subexpLoop P numSyms rounds (i + 1) (mk + a) q1
        else (take P b2 q1).andThen fun v q2 => .got (v + mk) q2

/-- `SubexpRead(numSyms)` (spec/43_av1_vp9_codes.md R188). -/
def readSubexp (P : List Byte) (numSyms q : Nat) : ReadOutcome Nat :=
  subexpLoop P numSyms (8 * P.length - q + 1) 0 0 q

/-- `InverseRecenter(r, v)` (spec/43_av1_vp9_codes.md R191). -/
def inverseRecenter (r v : Int) : Int :=
  if v > 2 * r then v else if v % 2 = 1 then r - (v + 1) / 2 else r + v / 2

/-- SUBEXP_REF's value before its reduction to 32 bits (spec/43_av1_vp9_codes.md R190), `mx = high - low`. -/
def recenter (low mx r v : Int) : Int :=
  let rr := r - low
  let x := if 2 * rr ≤ mx then inverseRecenter rr v else mx - 1 - inverseRecenter (mx - 1 - rr) v
  x + low

/-- ALIGN's bits (spec/41_fixed_width.md R146): what is read up to the byte boundary, answering the bits consumed. Modes skip
and zero never overrun (R146's errors: "OVERRUN (rbsp only, ...)"), and at a boundary succeed "even at POS = 8*PLEN" (R148), in
an empty payload too. spec/40_control.md R126's remark on `len` = 0 says otherwise: DEDUCED, unsafe (log 17). -/
def readAlign (P : List Byte) (mode : AlignMode) (start : Nat) : ReadOutcome Nat :=
  let stop : ReadOutcome Nat := if mode = .rbsp then take P 1 start else .got 1 start
  stop.andThen fun s q =>
    if s ≠ 1 then .failed .trailingBits
    else
      (take P ((8 - q % 8) % 8) q).andThen fun z q' =>
        if mode ≠ .skip ∧ z ≠ 0 then .failed .trailingBits else .got (q' - start) q'

/-- The frame of every read command (spec/41_fixed_width.md R140, R141): the two refusals, then the read on a private
cursor, which is committed with RESULT only if the read does not fail. -/
def State.readCommand (s : State) (body : List Byte → Nat → ReadOutcome Word) : State :=
  if !s.rd.unitValid then s.refuse .noUnit
  else if s.rd.err then s.refuse .aborted
  else
    match body s.rd.bytes s.rd.pos.toNat with
    | .failed c => s.fail c
    | .got v q => State.succeed { s with result := v, rd := { s.rd with pos := Word.ofNat q } }

/-- Store a read's unsigned value as a register's (spec/00_scope.md R11). -/
def ReadOutcome.toWord (r : ReadOutcome Nat) : ReadOutcome Word := r.andThen fun v q => .got (Word.ofNat v) q

end Sys2Proof.Machine
end

