-- ==== Sys2Proof/Machine/Auxiliary.lean ====
section
/-! DEFINITION. The auxiliary reads LEB128, SU, LE, NS, SUBEXP and SUBEXP_REF (spec/43_av1_vp9_codes.md). With `HAS_AUX` = 0
their words do not decode (spec/30_encoding.md R83), so these meanings do not test the parameter. -/

namespace Sys2Proof.Machine

/-- LEB128 (spec/43_av1_vp9_codes.md R180). -/
def execLeb128 (s : State) : Host.Outcome State Fault Refusal :=
  .next (s.readCommand fun P q => (readLeb128 P q).toWord)

/-- SU (spec/43_av1_vp9_codes.md R182). -/
def execSu (n : Nat) (s : State) : Host.Outcome State Fault Refusal :=
  .next (s.readCommand fun P q => (take P n q).andThen fun v q' => .got (Word.ofInt (signedField n v)) q')

/-- LE (spec/43_av1_vp9_codes.md R184). -/
def execLe (n : Nat) (s : State) : Host.Outcome State Fault Refusal :=
  .next (s.readCommand fun P q => (readLe P n 0 0 q).toWord)

/-- NS (spec/43_av1_vp9_codes.md R186): BAD_ARG is checked before NO_UNIT and ABORTED. -/
def execNs (s : State) : Host.Outcome State Fault Refusal :=
  .next
    (if unsigned s.arg0 = 0 then s.refuse .badArg
    else s.readCommand fun P q => (readNs P (unsigned s.arg0) q).toWord)

/-- SUBEXP (spec/43_av1_vp9_codes.md R188). -/
def execSubexp (s : State) : Host.Outcome State Fault Refusal :=
  .next
    (if unsigned s.arg0 = 0 then s.refuse .badArg
    else s.readCommand fun P q => (readSubexp P (unsigned s.arg0) q).toWord)

/-- SUBEXP_REF (spec/43_av1_vp9_codes.md R190): `low`, `high` and `r` are ARG0 to ARG2 as two's complement. -/
def execSubexpRef (s : State) : Host.Outcome State Fault Refusal :=
  .next
    (if signed s.arg1 - signed s.arg0 < 1 then s.refuse .badArg
    else
      s.readCommand fun P q =>
        (readSubexp P (signed s.arg1 - signed s.arg0).toNat q).andThen fun v q' =>
          .got (Word.ofInt (recenter (signed s.arg0) (signed s.arg1 - signed s.arg0) (signed s.arg2) v)) q')

end Sys2Proof.Machine
end

