-- ==== Sys2Proof/Machine/Control.lean ====
section
/-! DEFINITION. The control commands NOP, SRESET, CONFIG and LOAD_UNIT (spec/40_control.md). -/

namespace Sys2Proof.Machine

/-- `Filter(EN, RAW)` (spec/20_memory.md R62): the payload with its map. `i` is the next raw byte's offset, `z` the count of
consecutive 0x00 payload bytes. -/
def epbFilter (en : Bool) : (raw : List Byte) → (i z : Nat) → List Host.Cell
  | [], _, _ => []
  | b :: raw, i, z =>
    if en && decide (2 ≤ z) && b == 0x03 then epbFilter en raw (i + 1) 0
    else (i, b) :: epbFilter en raw (i + 1) (if b = 0x00 then z + 1 else 0)

/-- The raw bytes LOAD_UNIT takes from its source (spec/10_state.md R31). -/
def State.rawBytes (s : State) (src : UnitSource) (base len : Nat) : List Byte :=
  match src with
  | .unit => s.unitBytes len
  | .pkt => s.pktBytes base len

/-- The part of LOAD_UNIT after its checks (spec/40_control.md R126). -/
def State.bind (s : State) (src : UnitSource) (base len : Word) (epb : Bool) : State :=
  let payload := epbFilter epb (s.rawBytes src base.toNat len.toNat) 0 0
  State.succeed
    { s with
      rd :=
        { unitValid := true, epbEn := epb, src := src, err := false, errCause := .ok, pos := 0, errPos := 0,
          base := base, rawLen := len, payload := payload }
      result := Word.ofNat payload.length }

/-- `ResetRegisters()` and then CMD holding the SRESET word (spec/40_control.md R122; spec/70_reset_and_hazards.md R290 step 1).
The parameters, both memories and the model's own fields (log 1, log 2) are no registers and stay. -/
def State.softReset (s : State) : State :=
  { State.resetWith s.params with
    pending := s.pending, busData := s.busData, pktMem := s.pktMem, unitMem := s.unitMem, cmd := 0x04000000 }

/-- CONFIG's effect (spec/40_control.md R124). -/
def State.configure (s : State) (codec : Codec) (inmode : Bool) : State :=
  let t := State.streamFlush { s with cfg := { codec := codec, inmode := inmode, valid := true } }
  State.succeed
    { t with
      seg := { t.seg with
        active := false, pktPos := 0, flags := { eos := false, eop := false, disc := false },
        result := .none, cause := .ok, unitInfo := 0, unitCount := 0 } }

/-- NOP (spec/40_control.md R120). -/
def execNop (s : State) : Host.Outcome State Fault Refusal := .next s.succeed

/-- SRESET (spec/40_control.md R122). -/
def execSreset (s : State) : Host.Outcome State Fault Refusal := .next s.softReset.succeed

/-- CONFIG (spec/40_control.md R124). -/
def execConfig (codec : Codec) (inmode : Bool) (s : State) : Host.Outcome State Fault Refusal :=
  .next (s.configure codec inmode)

/-- LOAD_UNIT (spec/40_control.md R126 to R128): NO_UNIT with no held unit, BAD_ARG beyond PKT_MAX, over mathematical
integers. -/
def execLoadUnit (src : UnitSource) (epb : Bool) (s : State) : Host.Outcome State Fault Refusal :=
  .next
    (match src with
    | .unit => if !s.seg.held then s.refuse .noUnit else s.bind .unit 0 s.seg.unitLen epb
    | .pkt =>
      if unsigned s.arg0 + unsigned s.arg1 > s.params.pktMax then s.refuse .badArg
      else s.bind .pkt s.arg0 s.arg1 epb)

end Sys2Proof.Machine
end

