-- ==== Sys2Proof/Machine/ExpGolomb.lean ====
section
/-! DEFINITION. UE, SE and UVLC (spec/42_exp_golomb.md). -/

namespace Sys2Proof.Machine

/-- UE (spec/42_exp_golomb.md R161). -/
def execUe (s : State) : Host.Outcome State Fault Refusal :=
  .next (s.readCommand fun P q => (readUe P q).toWord)

/-- SE (spec/42_exp_golomb.md R164). -/
def execSe (s : State) : Host.Outcome State Fault Refusal :=
  .next (s.readCommand fun P q => (readUe P q).andThen fun k q' => .got (Word.ofInt (zigZag k)) q')

/-- UVLC (spec/42_exp_golomb.md R167). -/
def execUvlc (s : State) : Host.Outcome State Fault Refusal :=
  .next (s.readCommand fun P q => (readUvlc P q).toWord)

end Sys2Proof.Machine
end

