-- ==== Sys2Proof/Machine/FixedWidth.lean ====
section
/-! DEFINITION. U, ALIGN and ALIGNED (spec/41_fixed_width.md). -/

namespace Sys2Proof.Machine

/-- U (spec/41_fixed_width.md R143). -/
def execU (n : Nat) (s : State) : Host.Outcome State Fault Refusal :=
  .next (s.readCommand fun P q => (take P n q).toWord)

/-- ALIGN (spec/41_fixed_width.md R146). -/
def execAlign (mode : AlignMode) (s : State) : Host.Outcome State Fault Refusal :=
  .next (s.readCommand fun P q => (readAlign P mode q).toWord)

/-- ALIGNED (spec/41_fixed_width.md R149): reads no bit, so the cursor stays and it cannot overrun; "With PLEN = 0, RESULT = 1"
(R149; spec/95_test_vectors.md A-14). -/
def execAligned (s : State) : Host.Outcome State Fault Refusal :=
  .next (s.readCommand fun _ q => .got (if q % 8 = 0 then 1 else 0) q)

end Sys2Proof.Machine
end

