-- ==== Sys2Proof/Machine/ObuSegmenter.lean ====
section
/-! DEFINITION. The AV1 modes of SEG_NEXT: low-overhead and Annex B (spec/45_segmenter_obu.md). -/

namespace Sys2Proof.Machine

/-- The header fields of an OBU (R223; spec/30_encoding.md R105, R106). -/
structure ObuHeader where
  obuType : Nat
  ext : Bool
  hasSize : Bool
  rsv : Bool
  temporalId : Nat
  spatialId : Nat
  extRsv : Nat
  deriving DecidableEq, Repr

/-- `ParseObuHeader(s, e)` (R223): the header at `PKT[start]` and its length, or the cause its first failing check abandons
the packet with. -/
def State.parseObuHeader (s : State) (start stop : Nat) : Except Cause (ObuHeader × Nat) :=
  if start ≥ stop then .error .obuTrunc
  else
    let b0 := s.pktByte start
    if b0.getLsbD 7 then .error .obuForbidden
    else if !s.params.obuValidTypes.contains (b0.extractLsb' 3 4).toNat then .error .obuType
    else if b0.getLsbD 2 then
      if start + 1 ≥ stop then .error .obuTrunc
      else
        let b1 := s.pktByte (start + 1)
        .ok ({ obuType := (b0.extractLsb' 3 4).toNat, ext := true, hasSize := b0.getLsbD 1, rsv := b0.getLsbD 0,
               temporalId := (b1.extractLsb' 5 3).toNat, spatialId := (b1.extractLsb' 3 2).toNat,
               extRsv := (b1.extractLsb' 0 3).toNat }, 2)
    else
      .ok ({ obuType := (b0.extractLsb' 3 4).toNat, ext := false, hasSize := b0.getLsbD 1, rsv := b0.getLsbD 0,
             temporalId := 0, spatialId := 0, extRsv := 0 }, 1)

/-- `ReadLeb(s, e)` (R224): the value and its byte count; OBU_LEB128 when truncated at `stop` or above 2^32 - 1. -/
def State.readPktLeb (s : State) (start stop : Nat) : Except Cause (Nat × Nat) :=
  match lebRead (fun i => if start + i ≥ stop then none else some (s.pktByte (start + i))) with
  | none => .error .obuLeb128
  | some (v, count) => if v > 2 ^ 32 - 1 then .error .obuLeb128 else .ok (v, count)

/-- The OBU at `PKT[start .. stop)`: its header, the bytes before its payload (`hl`) and its payload's size (`sz`). The steps
that R222 and R226 share. -/
def State.parseObu (s : State) (start stop : Nat) : Except Cause (ObuHeader × Nat × Nat) :=
  match s.parseObuHeader start stop with
  | .error c => .error c
  | .ok (h, hb) =>
    if h.hasSize then
      match s.readPktLeb (start + hb) stop with
      | .error c => .error c
      | .ok (sz, nb) => if start + (hb + nb) + sz > stop then .error .obuSize else .ok (h, hb + nb, sz)
    else .ok (h, hb, stop - (start + hb))

/-- UNIT_INFO of an AV1 unit (R225; spec/10_state.md R42), most significant field first. -/
def ObuHeader.unitInfo (h : ObuHeader) (hl : Nat) : Word :=
  0#8 ++ BitVec.ofNat 8 hl ++ 0#1 ++ BitVec.ofNat 3 h.extRsv ++ BitVec.ofNat 2 h.spatialId
    ++ BitVec.ofNat 3 h.temporalId ++ BitVec.ofBool h.rsv ++ BitVec.ofBool h.hasSize ++ BitVec.ofBool h.ext
    ++ BitVec.ofNat 4 h.obuType

/-- `CopyOrSkip(ps, sz, next, h, hl)` (R225). -/
def State.copyOrSkip (payloadStart size next : Nat) (h : ObuHeader) (hl : Nat) (s : State) : State :=
  let t := { s with seg := { s.seg with pktPos := Word.ofNat next } }
  if size > t.params.unitMax then t.dropLongUnit
  else (t.copyUnit payloadStart size).emitUnit (h.unitInfo hl)

/-- The end-of-packet step of the AV1 modes (R222, R226). -/
def State.obuPacketEnd (s : State) : State := State.needData { s with seg := { s.seg with active := false } }

/-- `ObuNext()` (R222). -/
def State.obuNext (s : State) : State :=
  let start := s.seg.pktPos.toNat
  let stop := s.pktLen.toNat
  if start ≥ stop then s.obuPacketEnd
  else
    match s.parseObu start stop with
    | .error c => s.abandon c
    | .ok (h, hl, sz) => s.copyOrSkip (start + hl) sz (start + hl + sz) h hl

/-- `AnnexBNext()` (R226). -/
def State.annexBNext (s : State) : State :=
  let t := s.seg.pktPos.toNat
  if t ≥ s.pktLen.toNat then s.obuPacketEnd
  else
    match s.readPktLeb t s.pktLen.toNat with
    | .error c => s.abandon c
    | .ok (len, nl) =>
      let start := t + nl
      if start + len > s.pktLen.toNat then s.abandon .obuSize
      else
        match s.parseObu start (start + len) with
        | .error c => s.abandon c
        | .ok (h, hl, sz) => s.copyOrSkip (start + hl) sz (start + len) h hl

end Sys2Proof.Machine
end

