-- ==== Sys2Proof/Machine/NalSegmenter.lean ====
section
/-! DEFINITION. The H.264/H.265 modes of SEG_NEXT: the byte-stream scanner and the length-prefixed mode
(spec/44_segmenter_nal.md R206 to R211). -/

namespace Sys2Proof.Machine

/-- What ScanByte returns (R207). -/
inductive ScanResult where
  | none
  | unit
  | overflow
  deriving DecidableEq, Repr

/-- `Overflow()` (R207): the unit being collected is discarded. -/
def State.scanOverflow (s : State) : State := { s with seg := { s.seg with unitLen := 0, inUnit := false } }

/-- ZC <- z. -/
def State.setZc (z : Fin 3) (s : State) : State := { s with seg := { s.seg with zc := z } }

/-- `ScanByte(b)` (R207), a branch for each of its three cases. -/
def scanByte (b : Byte) (s : State) : ScanResult × State :=
  if b = 0x00 then
    if s.seg.zc = 0 then (.none, s.setZc 1)
    else if s.seg.zc = 1 then (.none, s.setZc 2)
    else if s.seg.inUnit then
      if s.seg.unitLen.toNat + 1 > s.params.unitMax then (.overflow, s.scanOverflow)
      else (.none, s.appendByte 0x00)
    else (.none, s)
  else if b = 0x01 ∧ s.seg.zc = 2 then
    let t := s.setZc 0
    if t.seg.inUnit ∧ t.seg.unitLen.toNat > 0 then (.unit, t)
    else (.none, { t with seg := { t.seg with inUnit := true, unitLen := 0 } })
  else
    let z := s.seg.zc.val
    let t := s.setZc 0
    if t.seg.inUnit then
      if t.seg.unitLen.toNat + z + 1 > t.params.unitMax then (.overflow, t.scanOverflow)
      else (.none, (t.appendZeros z).appendByte b)
    else (.none, t)

/-- `EndOfPacket()` (R208). -/
def State.endOfPacket (s : State) : State :=
  let s := { s with seg := { s.seg with active := false } }
  if s.seg.flags.eop ∨ s.seg.flags.eos then
    let z := s.seg.zc.val
    let t := s.setZc 0
    if t.seg.inUnit then
      let t := { t with seg := { t.seg with inUnit := false } }
      if t.seg.unitLen.toNat + z > t.params.unitMax then t.dropLongUnit
      else
        let t := t.appendZeros z
        if t.seg.unitLen.toNat > 0 then t.emitUnit 0 else t.needData
    else t.needData
  else s.needData

/-- `b <- PKT[PKT_POS]; PKT_POS <- PKT_POS + 1`, the byte and the state after (R206). -/
def State.consumeByte (s : State) : Byte × State :=
  (s.pktByte s.seg.pktPos.toNat, { s with seg := { s.seg with pktPos := s.seg.pktPos + 1 } })

/-- `NalByteStreamNext()` (R206). `left` bounds the loop: each round that goes on consumes a packet byte, so with
`PKT_LEN - PKT_POS` rounds left none are lost. -/
def nalScan : (left : Nat) → State → State
  | 0, s => s.endOfPacket
  | left + 1, s =>
    if s.seg.pktPos.toNat ≥ s.pktLen.toNat then s.endOfPacket
    else
      match scanByte s.consumeByte.1 s.consumeByte.2 with
      | (.unit, t) => t.emitUnit 0
      | (.overflow, t) => t.segFail .unitTooLong
      | (.none, t) => nalScan left t

/-- The byte-stream mode of SEG_NEXT (R206). -/
def State.nalByteStreamNext (s : State) : State := nalScan (s.pktLen.toNat - s.seg.pktPos.toNat) s

/-- The whole packet as one unit (R210; spec/46_segmenter_vp9.md R244, which gives VP9 packets without an index the same
steps). -/
def State.wholePacketNext (s : State) : State :=
  let t := { s with seg := { s.seg with pktPos := s.pktLen, active := false } }
  if s.pktLen.toNat = 0 then t.needData
  else if s.pktLen.toNat > s.params.unitMax then t.dropLongUnit
  else (t.copyUnit 0 s.pktLen.toNat).emitUnit 0

/-- `LengthPrefixedNext()` (R210). -/
def State.lengthPrefixedNext (s : State) : State := s.wholePacketNext

end Sys2Proof.Machine
end

