-- ==== Sys2Proof/Machine/Vp9Segmenter.lean ====
section
/-! DEFINITION. VP9: the superframe index SEG_PACKET parses, and the VP9 mode of SEG_NEXT (spec/46_segmenter_vp9.md). -/

namespace Sys2Proof.Machine

/-- `frames` from the marker byte (R241). -/
def markerFrames (m : Byte) : Nat := (m.extractLsb' 0 3).toNat + 1

/-- `mag`, the bytes per size, from the marker byte (R241). -/
def markerMag (m : Byte) : Nat := (m.extractLsb' 3 2).toNat + 1

/-- `isz`, the index's size in bytes (R241; spec/30_encoding.md R111). -/
def markerIndexSize (m : Byte) : Nat := 2 + markerMag m * markerFrames m

/-- A little-endian number of `n` packet bytes from `start` on (R241). -/
def State.pktLe (s : State) (start : Nat) : Nat → Nat
  | 0 => 0
  | n + 1 => State.pktLe s start n + (s.pktByte (start + n)).toNat * 2 ^ (8 * n)

/-- The index the packet carries, if it is to be trusted: its marker byte (R241). -/
def State.superframeMarker (s : State) : Option Byte :=
  let len := s.pktLen.toNat
  let m := s.pktByte (len - 1)
  if len = 0 then none
  else if m &&& 0xE0 ≠ 0xC0 then none
  else if len < markerIndexSize m then none
  else if s.pktByte (len - markerIndexSize m) ≠ m then none
  else some m

/-- SF_SIZE[i] of an index with marker `m` (R241); 0 for i at or above the frame count (spec/10_state.md R44). -/
def State.frameSize (s : State) (m : Byte) (i : Nat) : Word :=
  if i < markerFrames m then
    Word.ofNat (s.pktLe (s.pktLen.toNat - markerIndexSize m + 1 + i * markerMag m) (markerMag m))
  else 0

/-- `ParseSuperframeIndex()` (R241). -/
def State.parseSuperframeIndex (s : State) : State :=
  match s.superframeMarker with
  | none => s
  | some m =>
    { s with
      seg := { s.seg with
        sfCount := Word.ofNat (markerFrames m)
        sfIndexSize := Word.ofNat (markerIndexSize m)
        sfSize := #v[s.frameSize m 0, s.frameSize m 1, s.frameSize m 2, s.frameSize m 3,
                     s.frameSize m 4, s.frameSize m 5, s.frameSize m 6, s.frameSize m 7] } }

/-- `SingleFrame()` (R244). -/
def State.singleFrame (s : State) : State := s.wholePacketNext

/-- UNIT_INFO of a superframe's frame: FRAME_IDX and IN_SF = 1 (R243; spec/10_state.md R42). -/
def frameInfo (i : Nat) : Word := 0#27 ++ 1#1 ++ BitVec.ofNat 4 i

/-- SF_SIZE[i] as a number; 0 beyond the register file, where no run reads (log 10). -/
def Segmenter.frameBytes (g : Segmenter) (i : Nat) : Nat := if h : i < 8 then g.sfSize[i].toNat else 0

/-- `Vp9Next()` (R243). The test against the frame data area is over mathematical integers (R246). -/
def State.vp9Next (s : State) : State :=
  if s.seg.sfCount = 0 then s.singleFrame
  else if s.seg.sfNext = s.seg.sfCount then
    State.needData { s with seg := { s.seg with pktPos := s.pktLen, active := false } }
  else
    let i := s.seg.sfNext.toNat
    let b := s.seg.sfBase.toNat
    let sz := s.seg.frameBytes i
    if b + sz + s.seg.sfIndexSize.toNat > s.pktLen.toNat then s.abandon .sfSize
    else
      let t := { s with
        seg := { s.seg with
          sfNext := s.seg.sfNext + 1, sfBase := Word.ofNat (b + sz), pktPos := Word.ofNat (b + sz) } }
      if sz > s.params.unitMax then t.dropLongUnit
      else (t.copyUnit b sz).emitUnit (frameInfo i)

end Sys2Proof.Machine
end

