-- ==== Sys2Proof/Machine/Segmenter.lean ====
section
/-! DEFINITION. SEG_PACKET and SEG_NEXT (spec/44_segmenter_nal.md R200 to R205). -/

namespace Sys2Proof.Machine

/-- SEG_PACKET's effect on an accepted packet, before the VP9 index (R201). -/
def State.acceptPacket (s : State) (eos eop disc : Bool) : State :=
  let t := if disc then s.streamFlush else s
  { t with
    seg := Segmenter.clearSf
      { t.seg with
        flags := { eos := eos, eop := eop, disc := disc }, active := true, pktPos := 0, result := .none,
        cause := .ok } }

/-- SEG_PACKET (R201): the refusals in the order its pseudocode lists them. -/
def execSegPacket (eos eop disc : Bool) (s : State) : Host.Outcome State Fault Refusal :=
  .next
    (if !s.cfg.valid then s.refuse .notConfigured
    else if s.pktLen.toNat > s.params.pktMax then s.refuse .pktTooLong
    else if s.seg.active && !disc then s.refuse .segBusy
    else
      let t := s.acceptPacket eos eop disc
      State.succeed (if t.cfg.codec = .vp9 then t.parseSuperframeIndex else t))

/-- The mode rule R200 chooses. VP9 has one mode: its INMODE is always 0 (spec/10_state.md R33). -/
def State.modeNext (s : State) : State :=
  match s.cfg.codec with
  | .h264 => if s.cfg.inmode then s.lengthPrefixedNext else s.nalByteStreamNext
  | .h265 => if s.cfg.inmode then s.lengthPrefixedNext else s.nalByteStreamNext
  | .vp9 => s.vp9Next
  | .av1 => if s.cfg.inmode then s.annexBNext else s.obuNext

/-- SEG_NEXT (R204). -/
def execSegNext (s : State) : Host.Outcome State Fault Refusal :=
  .next
    (if !s.cfg.valid then s.refuse .notConfigured
    else
      let t := s.release
      if !t.seg.active then t.needData else t.modeNext)

end Sys2Proof.Machine
end

