-- ==== Sys2Proof/Machine/Dispatch.lean ====
section
/-! DEFINITION. One arm per command of spec/30_encoding.md R82. -/

namespace Sys2Proof.Machine

def exec (i : Instr) (s : State) : Host.Outcome State Fault Refusal :=
  match i with
  | .nop => Sys2Proof.Machine.execNop s
  | .sreset => Sys2Proof.Machine.execSreset s
  | .config codec inmode => Sys2Proof.Machine.execConfig codec inmode s
  | .loadUnit src epb => Sys2Proof.Machine.execLoadUnit src epb s
  | .u n => Sys2Proof.Machine.execU n s
  | .ue => Sys2Proof.Machine.execUe s
  | .se => Sys2Proof.Machine.execSe s
  | .uvlc => Sys2Proof.Machine.execUvlc s
  | .align mode => Sys2Proof.Machine.execAlign mode s
  | .aligned => Sys2Proof.Machine.execAligned s
  | .leb128 => Sys2Proof.Machine.execLeb128 s
  | .su n => Sys2Proof.Machine.execSu n s
  | .le n => Sys2Proof.Machine.execLe n s
  | .ns => Sys2Proof.Machine.execNs s
  | .subexp => Sys2Proof.Machine.execSubexp s
  | .subexpRef => Sys2Proof.Machine.execSubexpRef s
  | .segPacket eos eop disc => Sys2Proof.Machine.execSegPacket eos eop disc s
  | .segNext => Sys2Proof.Machine.execSegNext s

end Sys2Proof.Machine
end

