-- ==== Sys2Proof/Machine/Registers.lean ====
section
/-! DEFINITION. The register map (spec/10_state.md R22): names, offsets, what a host read returns and what a host write does. -/

namespace Sys2Proof.Machine

/-- The registers of R22. -/
inductive Reg where
  | cmd | result | cmdStatus | rdStatus | pos | plen | rawOff | epbCount | errPos | rdBase | rawLen
  | arg0 | arg1 | arg2 | config | pktLen | pktFlags | pktPos | segStatus | unitLen | unitInfo | unitCount
  | sfCount | sfIndexSize | sfNext | sfBase
  | sfSize (i : Fin 8)
  deriving DecidableEq, Repr

/-- The offset column of R22. -/
def Reg.offset : Reg → Nat
  | .cmd => 0x000
  | .result => 0x004
  | .cmdStatus => 0x008
  | .rdStatus => 0x00C
  | .pos => 0x010
  | .plen => 0x014
  | .rawOff => 0x018
  | .epbCount => 0x01C
  | .errPos => 0x020
  | .rdBase => 0x024
  | .rawLen => 0x028
  | .arg0 => 0x030
  | .arg1 => 0x034
  | .arg2 => 0x038
  | .config => 0x040
  | .pktLen => 0x044
  | .pktFlags => 0x048
  | .pktPos => 0x04C
  | .segStatus => 0x050
  | .unitLen => 0x054
  | .unitInfo => 0x058
  | .unitCount => 0x05C
  | .sfCount => 0x070
  | .sfIndexSize => 0x074
  | .sfNext => 0x078
  | .sfBase => 0x07C
  | .sfSize i => 0x080 + 4 * i.val

/-- Every register of R22. -/
def Reg.all : List Reg :=
  [.cmd, .result, .cmdStatus, .rdStatus, .pos, .plen, .rawOff, .epbCount, .errPos, .rdBase, .rawLen,
   .arg0, .arg1, .arg2, .config, .pktLen, .pktFlags, .pktPos, .segStatus, .unitLen, .unitInfo, .unitCount,
   .sfCount, .sfIndexSize, .sfNext, .sfBase,
   .sfSize 0, .sfSize 1, .sfSize 2, .sfSize 3, .sfSize 4, .sfSize 5, .sfSize 6, .sfSize 7]

/-- The register at an offset, if R22 lists one. -/
def Reg.ofOffset (off : Nat) : Option Reg := Reg.all.find? (fun r => r.offset == off)

/-- What a host read of a register returns (R23 to R45). -/
def State.readReg (s : State) : Reg → Word
  | .cmd => s.cmd
  | .result => s.result
  | .cmdStatus => s.cmdStatus
  | .rdStatus => s.rd.status
  | .pos => s.rd.pos
  | .plen => Word.ofNat s.rd.plen
  | .rawOff => Word.ofNat s.rd.rawOff
  | .epbCount => Word.ofNat s.rd.epbCount
  | .errPos => s.rd.errPos
  | .rdBase => s.rd.base
  | .rawLen => s.rd.rawLen
  | .arg0 => s.arg0
  | .arg1 => s.arg1
  | .arg2 => s.arg2
  | .config => s.cfg.word
  | .pktLen => s.pktLen
  | .pktFlags => s.seg.flags.word
  | .pktPos => s.seg.pktPos
  | .segStatus => s.seg.status
  | .unitLen => s.seg.unitLen
  | .unitInfo => s.seg.unitInfo
  | .unitCount => s.seg.unitCount
  | .sfCount => s.seg.sfCount
  | .sfIndexSize => s.seg.sfIndexSize
  | .sfNext => s.seg.sfNext
  | .sfBase => s.seg.sfBase
  | .sfSize i => s.seg.sfSize[i.val]

/-- A host write of a register other than CMD: ARG0 to ARG2 and PKT_LEN take it, every other register ignores it (R22, R32,
R34). CMD is the command port (R23) and is written by Machine/CommandPort.lean. -/
def State.writeReg (s : State) (r : Reg) (v : Word) : State :=
  match r with
  | .arg0 => { s with arg0 := v }
  | .arg1 => { s with arg1 := v }
  | .arg2 => { s with arg2 := v }
  | .pktLen => { s with pktLen := v }
  | _ => s

end Sys2Proof.Machine
end

