-- ==== Sys2Proof/Machine/HostPort.lean ====
section
/-! DEFINITION. The host's bus accesses other than a command (spec/20_memory.md R68 to R70): the address map, widths,
alignment and byte lanes. -/

namespace Sys2Proof.Machine

/-- The bytes of an access (R69). -/
def AccessWidth.bytes : AccessWidth → Nat
  | .byte => 1
  | .half => 2
  | .word => 4

/-- An access to the register window must be 32 bits wide and 4-byte aligned, any other naturally aligned (R69). -/
def accessAllowed (addr : Nat) (w : AccessWidth) : Bool :=
  if addr < Config.regWindow then w == .word && addr % 4 == 0 else addr % w.bytes == 0

/-- The byte a host reads at an address outside the register window: PKT_MEM, UNIT_MEM, else 0 (R68). -/
def State.busByte (s : State) (a : Nat) : Byte :=
  if Config.pktBase ≤ a ∧ a < Config.pktBase + s.params.pktMax then s.pktByte (a - Config.pktBase)
  else if Config.unitBase ≤ a ∧ a < Config.unitBase + s.params.unitMax then s.unitByte (a - Config.unitBase)
  else 0

/-- A byte the host writes outside the register window: PKT_MEM takes it; UNIT_MEM and unmapped addresses ignore it (R68,
R69). -/
def State.busWriteByte (s : State) (a : Nat) (b : Byte) : State :=
  if Config.pktBase ≤ a ∧ a < Config.pktBase + s.params.pktMax then
    { s with pktMem := Memory.write s.pktMem (a - Config.pktBase) b }
  else s

/-- `n` bytes from an address on, the lowest address least significant (R69). -/
def State.busLe (s : State) (a : Nat) : Nat → Nat
  | 0 => 0
  | n + 1 => State.busLe s a n + (s.busByte (a + n)).toNat * 2 ^ (8 * n)

/-- Write the `n` low bytes of a value from an address on, the least significant to the lowest address (R69). -/
def State.busWriteLe (s : State) (a : Nat) (v : Word) : Nat → State
  | 0 => s
  | n + 1 => State.busWriteByte (State.busWriteLe s a v n) (a + n) (v.extractLsb' (8 * n) 8)

/-- `MemRead(a, n)`: what a host read returns (R68 to R70). -/
def State.memRead (s : State) (addr : Nat) (w : AccessWidth) : Word :=
  if !accessAllowed addr w then 0
  else if addr < Config.regWindow then
    match Reg.ofOffset addr with
    | some r => s.readReg r
    | none => 0
  else Word.ofNat (s.busLe addr w.bytes)

/-- `MemWrite(a, n, v)`: what a host write other than a command does (R68 to R70). -/
def State.memWrite (s : State) (addr : Nat) (w : AccessWidth) (v : Word) : State :=
  if !accessAllowed addr w then s
  else if addr < Config.regWindow then
    match Reg.ofOffset addr with
    | some r => s.writeReg r v
    | none => s
  else s.busWriteLe addr v w.bytes

/-- Whether an access issues a command: a 32-bit write of CMD (R69; spec/10_state.md R22, R23). -/
def isCommandWrite (addr : Nat) (w : AccessWidth) : Bool := addr == Reg.cmd.offset && w == .word

end Sys2Proof.Machine
end

