-- ==== Sys2Proof/Machine/CommandPort.lean ====
section
/-! DEFINITION. The command port (spec/10_state.md R23): decoding and running the word a host writes to CMD, and making one
host access. -/

namespace Sys2Proof.Machine

/-- A host write of word `w` to CMD: CMD holds `w`; a word that decodes is executed; any other is refused with ILLEGAL_CMD and
changes nothing else (spec/30_encoding.md R83; spec/60_exceptions.md R264). -/
def issue (w : Word) (s : State) : Host.Outcome State Fault Refusal :=
  match decode s.params.hasAux w with
  | .ok i => exec i { s with cmd := w }
  | .error _ => .next (State.refuse .illegalCmd { s with cmd := w })

/-- One host access, to its completion (spec/70_reset_and_hazards.md R300). -/
def perform (a : HostAccess) (s : State) : Host.Outcome State Fault Refusal :=
  match a with
  | .read addr w => .next { s with busData := s.memRead addr.toNat w }
  | .write addr w v => if isCommandWrite addr.toNat w then issue v s else .next (s.memWrite addr.toNat w v)

/-- The host's write that issues a command word. -/
def commandAccess (w : Word) : HostAccess := .write (Word.ofNat Reg.cmd.offset) .word w

end Sys2Proof.Machine
end

