-- ==== Sys2Proof/Machine/Step.lean ====
section
/-! DEFINITION. One step of the machine: the host's oldest access not yet made (spec/10_state.md R20, R21; log 1, log 8). -/

namespace Sys2Proof.Machine

/-- The block fetches no instructions (spec/10_state.md R21): a step takes the oldest pending host access and makes it. With
none pending the block is idle and nothing changes (spec/70_reset_and_hazards.md R291; log 1). -/
def step (s : State) : Host.Outcome State Fault Refusal :=
  match s.pending with
  | [] => .next s
  | a :: rest => perform a { s with pending := rest }

/-- The same state with the host about to issue the command word whose `nbits` low bits are those of `w` (log 8). -/
def State.withFetchWord (s : State) (nbits w : Nat) : State :=
  { s with pending := commandAccess (Word.ofNat (w % 2 ^ nbits)) :: s.pending }

end Sys2Proof.Machine
end

