-- ==== Sys2Proof/Machine/Codewords.lean ====
section
/-! DEFINITION. The bitstream codes written out from their layouts (spec/30_encoding.md R100 to R112), the encoders' side:
what the read commands and the segmenter are given. Statements about the commands are made in terms of these. -/

namespace Sys2Proof.Machine

/-- The `n` low bits of `v`, most significant first (R100). -/
def natBits : (n v : Nat) → List Bool
  | 0, _ => []
  | n + 1, v => v.testBit n :: natBits n v

/-- The bits at bit index `q` of the payload are `bits` (spec/00_scope.md R13), all inside the payload. -/
def bitsAre (P : List Byte) (q : Nat) (bits : List Bool) : Prop :=
  q + bits.length ≤ 8 * P.length ∧ ∀ i, (h : i < bits.length) → bitAt P (q + i) = bits[i]

/-- The `ue(v)` codeword (R101): L zeros, a 1, and the L-bit suffix `v + 1 - 2^L`, for the L with `2^L ≤ v + 1 < 2^(L+1)`.
-/
def ueCodeword (v : Nat) : List Bool :=
  List.replicate (Nat.log2 (v + 1)) false ++ true :: natBits (Nat.log2 (v + 1)) (v + 1 - 2 ^ Nat.log2 (v + 1))

/-- The codeNum of a signed value (R102): `2s - 1` for s > 0, `-2s` otherwise. -/
def seCodeNum (s : Int) : Nat := if s > 0 then (2 * s - 1).toNat else (-2 * s).toNat

/-- The LEB128 form of `v` in `n` bytes (R108): every byte but the last has bit 7 set. -/
def lebBytes : (n v : Nat) → List Byte
  | 0, _ => []
  | 1, v => [BitVec.ofNat 8 (v % 128)]
  | n + 2, v => BitVec.ofNat 8 (v % 128 + 128) :: lebBytes (n + 1) (v / 128)

/-- Bytes as the bits they hold, most significant bit of each first (spec/00_scope.md R13). -/
def bytesBits : List Byte → List Bool
  | [] => []
  | b :: bs => natBits 8 b.toNat ++ bytesBits bs

/-- The `n` low bytes of `v`, least significant first (R112: `le(n)`; spec/46_segmenter_vp9.md R247: `le_mag`). -/
def leBytes : (n v : Nat) → List Byte
  | 0, _ => []
  | n + 1, v => BitVec.ofNat 8 v :: leBytes n (v / 256)

/-- The `ns(n)` codeword of `v < n` (R112; spec/43_av1_vp9_codes.md R186): w - 1 bits below m, else the w bits of `v + m`.
-/
def nsCodeword (n v : Nat) : List Bool :=
  let w := Nat.log2 n + 1
  let m := 2 ^ w - n
  if v < m then natBits (w - 1) v else natBits w (v + m)

/-- The subexponential codeword of `v` from round i on (R112; spec/43_av1_vp9_codes.md R188). -/
def subexpCode (numSyms v : Nat) : (rounds i mk : Nat) → List Bool
  | 0, _, _ => []
  | rounds + 1, i, mk =>
    let b2 := if i > 0 then 3 + i - 1 else 3
    let a := 2 ^ b2
    if numSyms ≤ mk + 3 * a then nsCodeword (numSyms - mk) (v - mk)
    else if v < mk + a then false :: natBits b2 (v - mk)
    else true :: subexpCode numSyms v rounds (i + 1) (mk + a)

/-- The subexponential codeword of `v < numSyms`: at most 29 rounds for a 32-bit numSyms (spec/43_av1_vp9_codes.md R189). -/
def subexpCodeword (numSyms v : Nat) : List Bool := subexpCode numSyms v 29 0 0

/-- An OBU's header bytes (R105, R106): the extension byte stands when `ext` gives it. -/
def obuHeaderBytes (obuType : Nat) (hasSize rsv : Bool) (ext : Option Byte) : List Byte :=
  (0#1 ++ BitVec.ofNat 4 obuType ++ BitVec.ofBool ext.isSome ++ BitVec.ofBool hasSize ++ BitVec.ofBool rsv)
    :: ext.toList

/-- A VP9 superframe index (R111): the marker, the sizes in `mag` bytes each, the marker again. -/
def superframeIndex (mag : Nat) (sizes : List Nat) : List Byte :=
  let m : Byte := 0b110#3 ++ BitVec.ofNat 2 (mag - 1) ++ BitVec.ofNat 3 (sizes.length - 1)
  m :: sizes.flatMap (leBytes mag) ++ [m]

/-- The start code (R109). -/
def startCode : List Byte := [0x00, 0x00, 0x01]

/-- `bs` stand at `PKT[start ..]`, all inside PKT_MEM. -/
def State.pktHolds (s : State) (start : Nat) (bs : List Byte) : Prop :=
  start + bs.length ≤ s.params.pktMax ∧ ∀ i, (h : i < bs.length) → s.pktByte (start + i) = bs[i]

/-- No start code stands in `bs`. Of `w ++ [0x00, 0x00]` it says that the start code after `w` is the first of
`w ++ startCode`. -/
def startCodeFree (bs : List Byte) : Prop := ∀ i, i < bs.length → ¬ startCode <+: bs.drop i

/-- How many bytes 0x00 end `bs`. -/
def trailingZeros (bs : List Byte) : Nat := (bs.reverse.takeWhile (· == 0x00)).length

/-- What the byte-stream scanner has before it begins with `bs` (spec/44_segmenter_nal.md R206, R207): the ZC zeros it holds
back, then the packet's bytes from PKT_POS on. -/
def State.scanHolds (s : State) (bs : List Byte) : Prop :=
  bs.take s.seg.zc.val = List.replicate s.seg.zc.val 0x00 ∧
  bs.length ≤ s.seg.zc.val + (s.pktLen.toNat - s.seg.pktPos.toNat) ∧
  s.pktHolds s.seg.pktPos.toNat (bs.drop s.seg.zc.val)

/-- `bs` is all that the byte-stream scanner has before it. -/
def State.scanEndsWith (s : State) (bs : List Byte) : Prop :=
  bs.length = s.seg.zc.val + (s.pktLen.toNat - s.seg.pktPos.toNat)

/-- PKT_POS after `bs` is scanned. -/
def State.scannedTo (s : State) (bs : List Byte) : Word :=
  Word.ofNat (s.seg.pktPos.toNat + (bs.length - s.seg.zc.val))

/-- `UNIT[0 .. n)` holds `bs`. -/
def State.unitHolds (s : State) (bs : List Byte) : Prop :=
  ∀ i, (h : i < bs.length) → s.unitByte i = bs[i]

/-- The scanner comes to a unit of which `c` is in UNIT_MEM already, after dropping `lead` (spec/44_segmenter_nal.md R204, R207):
inside a unit that is empty so far, start codes, and inside any other nothing; outside a unit, the bytes up to the first start
code, that start code, and any that follow it at once. A held unit is released first, and a new one is then open. -/
def State.unitOpens (s : State) (c lead : List Byte) : Prop :=
  ∃ k,
    (s.seg.inUnit = true ∧ c.length = (if s.seg.held then 0 else s.seg.unitLen.toNat) ∧ s.unitHolds c ∧
      (c = [] ∨ k = 0) ∧ lead = (List.replicate k startCode).flatten) ∨
    (s.seg.inUnit = false ∧ c = [] ∧ ∃ pre, startCodeFree (pre ++ [0x00, 0x00]) ∧
      lead = pre ++ startCode ++ (List.replicate k startCode).flatten)

/-- The OBU at PKT_POS stands at `PKT[start .. stop)`: from PKT_POS to the packet's end in low-overhead mode
(spec/45_segmenter_obu.md R222); in Annex B the bytes that an `obu_length` at PKT_POS covers, inside the packet (R226). -/
def State.obuAt (s : State) (start stop : Nat) : Prop :=
  (s.cfg.inmode = false ∧ start = s.seg.pktPos.toNat ∧ stop = s.pktLen.toNat) ∨
  (s.cfg.inmode = true ∧ start ≤ stop ∧ stop ≤ s.pktLen.toNat ∧
    ∃ nl, 1 ≤ nl ∧ nl ≤ 8 ∧ start = s.seg.pktPos.toNat + nl ∧ stop - start < 2 ^ (7 * nl) ∧
      s.pktHolds s.seg.pktPos.toNat (lebBytes nl (stop - start)))

/-- The packet bytes from `start` on give no LEB128 value before `stop` (spec/45_segmenter_obu.md R224): `stop` comes
first, or the value is above 2^32 - 1, written in 1 to 8 bytes or in eight that all have bit 7 set. -/
def State.badLeb (s : State) (start stop : Nat) : Prop :=
  (∃ k, k < 8 ∧ start + k = stop ∧ ∀ i, i < k → 0x80 ≤ (s.pktByte (start + i)).toNat) ∨
  (∃ n v, 1 ≤ n ∧ n ≤ 8 ∧ v < 2 ^ (7 * n) ∧ 2 ^ 32 - 1 < v ∧ start + n ≤ stop ∧ s.pktHolds start (lebBytes n v)) ∨
  (start + 8 ≤ stop ∧ (∀ i, i < 8 → 0x80 ≤ (s.pktByte (start + i)).toNat) ∧
    2 ^ 32 - 1 < ((List.range 8).map fun i => (s.pktByte (start + i)).toNat % 128 * 2 ^ (7 * i)).sum)

end Sys2Proof.Machine
end

