-- ==== Sys2Proof/Safety.lean ====
section
/-! DEFINITION. What holds of the machine between commands, in the terms the statements use: the invariants of
spec/10_state.md R27, R28, R34 to R46 and spec/44_segmenter_nal.md R215, and the classes of commands. -/

namespace Sys2Proof.Machine

/-- Byte-stream mode (spec/44_segmenter_nal.md R200). -/
def State.byteStream (s : State) : Bool :=
  (s.cfg.codec == .h264 || s.cfg.codec == .h265) && !s.cfg.inmode

/-- What holds between commands, whatever the host wrote. Every step keeps it and reset has it. -/
structure State.Inv (s : State) : Prop where
  /-- The parameters lie in the ranges of spec/00_scope.md R9. -/
  params_wf : s.params.wf = true
  /-- PKT_MEM is in canonical form and holds no byte at or above PKT_MAX. -/
  pktMem_wf : Memory.wf s.pktMem = true ∧ ∀ c ∈ s.pktMem, c.1 < s.params.pktMax
  /-- UNIT_MEM is in canonical form and holds no byte at or above UNIT_MAX. -/
  unitMem_wf : Memory.wf s.unitMem = true ∧ ∀ c ∈ s.unitMem, c.1 < s.params.unitMax
  /-- `POS ≤ 8*PLEN` (spec/10_state.md R27). -/
  pos_inside : s.rd.pos.toNat ≤ 8 * s.rd.plen
  /-- PLEN is 0 while UNIT_VALID = 0 (spec/10_state.md R28). -/
  unbound_empty : s.rd.unitValid = false → s.rd.payload = []
  /-- The payload's map rises and stays inside the raw bytes (spec/20_memory.md R62). -/
  map_rises : s.rd.payload.Pairwise (fun c d => c.1 < d.1) ∧ ∀ c ∈ s.rd.payload, c.1 < s.rd.rawLen.toNat
  /-- The raw bytes lie inside the memory they were bound from (spec/20_memory.md R63; spec/60_exceptions.md R275). -/
  raw_inside :
    (s.rd.src = .unit → s.rd.rawLen.toNat ≤ s.params.unitMax) ∧
    (s.rd.src = .pkt → s.rd.base.toNat + s.rd.rawLen.toNat ≤ s.params.pktMax)
  /-- ERR_CAUSE is 0 exactly while ERR = 0 (spec/10_state.md R26). -/
  err_cause : s.rd.err = true ↔ s.rd.errCause ≠ .ok
  /-- LAST_CAUSE is 0 exactly when LAST_OK = 1 (spec/10_state.md R25). -/
  last_cause : s.lastOk = true ↔ s.lastCause = .ok
  /-- SEG_CAUSE is not 0 exactly when SEG_RESULT = ERROR (spec/10_state.md R38). -/
  seg_cause : s.seg.result = .error ↔ s.seg.cause ≠ .ok
  /-- `UNIT_LEN ≤ UNIT_MAX` (R215). -/
  unitLen_bound : s.seg.unitLen.toNat ≤ s.params.unitMax
  /-- A unit bound from UNIT_MEM is the held one (R215). -/
  bound_held : s.rd.unitValid = true → s.rd.src = .unit → s.seg.held = true
  /-- UNIT_INFO is 0 while no unit is held (R215). -/
  info_held : s.seg.held = false → s.seg.unitInfo = 0
  /-- UNIT_LEN is 0 while no unit is held or collected (R215). -/
  len_idle : s.seg.inUnit = false → s.seg.held = false → s.seg.unitLen = 0
  /-- Outside byte-stream mode the scanner state stays 0 (spec/44_segmenter_nal.md R211; spec/45_segmenter_obu.md R221;
  spec/46_segmenter_vp9.md R246). -/
  scanner_idle : s.byteStream = false → s.seg.inUnit = false ∧ s.seg.zc = 0
  /-- A packet is active only in a configured session (spec/44_segmenter_nal.md R201). -/
  active_configured : s.seg.active = true → s.cfg.valid = true
  /-- VP9's INMODE is always 0 (spec/10_state.md R33). -/
  vp9_mode : s.cfg.codec = .vp9 → s.cfg.inmode = false
  /-- SF_COUNT is 0 to 8, SF_NEXT at most SF_COUNT (spec/10_state.md R44, R45). -/
  sf_bounds : s.seg.sfCount.toNat ≤ 8 ∧ s.seg.sfNext.toNat ≤ s.seg.sfCount.toNat
  /-- SF_SIZE[i] is 0 for i at or above SF_COUNT (spec/10_state.md R44). -/
  sf_size_zero : ∀ i, (h : i < 8) → s.seg.sfCount.toNat ≤ i → s.seg.sfSize[i] = 0

/-- The host's duty's consequence (spec/10_state.md R37; spec/44_segmenter_nal.md R215): `PKT_POS ≤ PKT_LEN` while a packet
is active. A host that lowers PKT_LEN under an active packet breaks it (spec/70_reset_and_hazards.md R302). -/
def State.pktPosInside (s : State) : Prop := s.seg.active = true → s.seg.pktPos.toNat ≤ s.pktLen.toNat

/-- The twelve read commands (spec/41_fixed_width.md R140). -/
def isReadCommand : Instr → Bool
  | .u _ => true
  | .ue => true
  | .se => true
  | .uvlc => true
  | .align _ => true
  | .aligned => true
  | .leb128 => true
  | .su _ => true
  | .le _ => true
  | .ns => true
  | .subexp => true
  | .subexpRef => true
  | .nop => false
  | .sreset => false
  | .config _ _ => false
  | .loadUnit _ _ => false
  | .segPacket _ _ _ => false
  | .segNext => false

/-- The operand check a read command makes before the checks of R140: it is not refused with BAD_ARG
(spec/43_av1_vp9_codes.md R186, R188, R190). -/
def State.argsAccepted (s : State) : Instr → Bool
  | .ns => decide (s.arg0 ≠ 0)
  | .subexp => decide (s.arg0 ≠ 0)
  | .subexpRef => decide (s.arg0.toInt < s.arg1.toInt)
  | .nop => true
  | .sreset => true
  | .config _ _ => true
  | .loadUnit _ _ => true
  | .u _ => true
  | .ue => true
  | .se => true
  | .uvlc => true
  | .align _ => true
  | .aligned => true
  | .leb128 => true
  | .su _ => true
  | .le _ => true
  | .segPacket _ _ _ => true
  | .segNext => true

/-- A unit is bound and its parse has not failed: no read is refused by spec/41_fixed_width.md R140. -/
def State.readable (s : State) : Prop := s.rd.unitValid = true ∧ s.rd.err = false

/-- The state a completed read leaves (spec/41_fixed_width.md R141): RESULT, POS and CMD_STATUS written, nothing else. -/
def State.readDone (s : State) (value : Word) (cursor : Nat) : State :=
  { s with result := value, rd := { s.rd with pos := Word.ofNat cursor }, lastOk := true, lastCause := .ok }

/-- The state a failed read of a unit without an earlier failure leaves (spec/60_exceptions.md R266). -/
def State.readFailed (s : State) (c : Cause) : State :=
  { s with rd := { s.rd with err := true, errCause := c, errPos := s.rd.pos }, lastOk := false, lastCause := c }

/-- The state a refused command leaves (spec/60_exceptions.md R268). -/
def State.refusedWith (s : State) (c : Cause) : State := { s with lastOk := false, lastCause := c }

/-- What an abandoned packet leaves (spec/45_segmenter_obu.md R228; spec/46_segmenter_vp9.md R245): the packet used up, no
unit held or collected, the cause reported in both places, RESULT and UNIT_COUNT as they were, and no unit byte stored. -/
def packetAbandoned (s t : State) (c : Cause) : Prop :=
  t.seg.pktPos = s.pktLen ∧ t.seg.active = false ∧ t.seg.unitLen = 0 ∧ t.seg.held = false ∧
  t.seg.result = .error ∧ t.seg.cause = c ∧ t.lastOk = false ∧ t.lastCause = c ∧
  t.result = s.result ∧ t.seg.unitCount = s.seg.unitCount ∧ t.unitMem = s.unitMem

/-- The reader after SEG_NEXT's Release (spec/44_segmenter_nal.md R204; spec/10_state.md R46): unbound if a unit was held
and RD_SRC is 0, else as it was. -/
def State.readerAfterRelease (s : State) : Reader :=
  if s.seg.held = true ∧ s.rd.src = .unit then { s.rd with unitValid := false, payload := [], pos := 0, rawLen := 0 }
  else s.rd

/-- What a NAL unit that outgrows UNIT_MAX leaves (spec/44_segmenter_nal.md R207, R208): UNIT_TOO_LONG reported in both
places, no unit held or collected, RESULT and UNIT_COUNT as they were. -/
def unitDropped (s t : State) : Prop :=
  t.seg.result = .error ∧ t.seg.cause = .unitTooLong ∧ t.lastOk = false ∧ t.lastCause = .unitTooLong ∧
  t.seg.unitLen = 0 ∧ t.seg.inUnit = false ∧ t.seg.held = false ∧
  t.result = s.result ∧ t.seg.unitCount = s.seg.unitCount

/-- The active packet has no superframe index (spec/46_segmenter_vp9.md R241). -/
def noIndex (t : State) : Prop :=
  t.seg.sfCount = 0 ∧ t.seg.sfIndexSize = 0 ∧ ∀ i, (h : i < 8) → t.seg.sfSize[i] = 0

end Sys2Proof.Machine
end

