-- ==== Sys2Proof/Certificates/Slice0/Obligations.lean ====
section
/-! DEFINITION. The statements about the model, by family. A statement that gives the next state as one record update of
the old state says the frame with it: every field not named is unchanged. -/

open Sys2Proof Sys2Proof.Machine

/-! ## Encoding -/

/-- R80 to R86: every well-formed command present under HAS_AUX decodes from its encoding to itself. -/
def Obligations.DecodeOfEncodeIsInstruction : Prop :=
  ∀ (hasAux : Bool) (i : Instr), i.wellFormed = true → (i.isAux = true → hasAux = true) →
    decode hasAux (encode i) = .ok i

/-- R80 to R84: a word that decodes is the encoding of what it decodes to, which is well-formed and present. -/
def Obligations.EncodeOfDecodeIsWord : Prop :=
  ∀ (hasAux : Bool) (w : Word) (i : Instr), decode hasAux w = .ok i →
    encode i = w ∧ i.wellFormed = true ∧ (i.isAux = true → hasAux = true)

/-- R86: the three kinds of encoding that are no instructions, each with the check that refuses it: reserved opcodes (0x10
to 0x15 among them with HAS_AUX = 0), set reserved bits, and forbidden operand values; and a refused word issues
ILLEGAL_CMD, with no effect but on CMD and CMD_STATUS. -/
def Obligations.ReservedEncodingsAreRefused : Prop :=
  ∀ (hasAux : Bool) (w : Word),
    (((0x04 ≤ w.toNat / 2 ^ 26 ∧ w.toNat / 2 ^ 26 ≤ 0x07) ∨ w.toNat / 2 ^ 26 = 0x0E ∨ w.toNat / 2 ^ 26 = 0x0F ∨
        (0x16 ≤ w.toNat / 2 ^ 26 ∧ w.toNat / 2 ^ 26 ≤ 0x1F) ∨ 0x22 ≤ w.toNat / 2 ^ 26) →
      decode hasAux w = .error .unlistedOpcode) ∧
    (0x10 ≤ w.toNat / 2 ^ 26 ∧ w.toNat / 2 ^ 26 ≤ 0x15 → decode false w = .error .auxAbsent) ∧
    (∀ i : Instr, i.wellFormed = true → (i.isAux = true → hasAux = true) → w.toNat / 2 ^ 26 = (encode i).toNat / 2 ^ 26 →
      2 ^ i.opcode.format.fieldBits ≤ w.toNat % 2 ^ 26 → decode hasAux w = .error .reservedBit) ∧
    (∀ n : Nat, 33 ≤ n → n < 2 ^ 6 →
      decode hasAux (Word.ofNat (0x20000000 + n)) = .error .operandConstraint ∧
      decode true (Word.ofNat (0x44000000 + n)) = .error .operandConstraint) ∧
    (∀ n : Nat, 5 ≤ n → n < 2 ^ 3 → decode true (Word.ofNat (0x48000000 + n)) = .error .operandConstraint) ∧
    decode true 0x44000000 = .error .operandConstraint ∧ decode true 0x48000000 = .error .operandConstraint ∧
    decode hasAux 0x30000003 = .error .operandConstraint ∧ decode hasAux 0x08000006 = .error .operandConstraint ∧
    (∀ (s : State) (e : DecodeError), decode s.params.hasAux w = .error e →
      issue w s = .next { s with cmd := w, lastOk := false, lastCause := .illegalCmd })

/-- R82: words written out from the table decode to the commands they stand for. -/
def Obligations.WrittenWordsDecode : Prop :=
  decodeTableWord 32 0x00000000 = some .nop ∧
  decodeTableWord 32 0x04000000 = some .sreset ∧
  decodeTableWord 32 0x08000007 = some (.config .av1 true) ∧
  decodeTableWord 32 0x0C000001 = some (.loadUnit .unit true) ∧
  decodeTableWord 32 0x20000020 = some (.u 32) ∧
  decodeTableWord 32 0x28000000 = some .se ∧
  decodeTableWord 32 0x30000002 = some (.align .rbsp) ∧
  decodeTableWord 32 0x48000004 = some (.le 4) ∧
  decodeTableWord 32 0x54000000 = some .subexpRef ∧
  decodeTableWord 32 0x80000006 = some (.segPacket false true true) ∧
  decodeTableWord 32 0x84000000 = some .segNext

/-! ## The step -/

/-- R21, R23: a pending write of a word to CMD that decodes is executed by its command's meaning, with CMD holding the word
and the access gone from the queue; one that does not decode changes CMD and CMD_STATUS only. The queue of the host's
accesses is the model's choice (log 1, log 8). -/
def Obligations.StepRunsDecodedCommand : Prop :=
  ∀ (s : State) (w : Word) (rest : List HostAccess), s.pending = commandAccess w :: rest →
    (∀ i : Instr, decode s.params.hasAux w = .ok i → step s = exec i { s with pending := rest, cmd := w }) ∧
    (∀ e : DecodeError, decode s.params.hasAux w = .error e →
      step s = .next { s with pending := rest, cmd := w, lastOk := false, lastCause := .illegalCmd })

/-- R264: a word that does not decode changes CMD, which holds it, and CMD_STATUS only; and whatever word is issued next has
the outcome it would have had without the illegal one. -/
def Obligations.IllegalWordHasNoLaterEffect : Prop :=
  ∀ (s : State) (w : Word) (e : DecodeError), decode s.params.hasAux w = .error e →
    ∃ t, issue w s = .next t ∧ t = { s with cmd := w, lastOk := false, lastCause := .illegalCmd } ∧
      ∀ next : Word, issue next t = issue next s

/-- R260: no step faults or refuses, in any state; each makes exactly the oldest pending access, and with none pending changes
nothing. The queue and the idle step are the model's choice (log 1). -/
def Obligations.EveryStepAnswersNext : Prop :=
  ∀ s : State,
    (∃ t, step s = .next t ∧ t.pending = s.pending.tail ∧ t.params = s.params) ∧
    (∀ a rest, s.pending = a :: rest → step s = perform a { s with pending := rest }) ∧
    (s.pending = [] → step s = .next s)

/-- R302: no host access but a command changes the reader or the segmenter, UNIT_MEM or a result. -/
def Obligations.HostWritesLeaveUnitsAlone : Prop :=
  ∀ (s t : State) (a : HostAccess), (∀ w, a ≠ commandAccess w) → perform a s = .next t →
    t.rd = s.rd ∧ t.seg = s.seg ∧ t.cfg = s.cfg ∧ t.unitMem = s.unitMem ∧ t.cmd = s.cmd ∧ t.result = s.result ∧
    t.lastOk = s.lastOk ∧ t.lastCause = s.lastCause

/-! ## The host port -/

/-- R69, R68: an aligned host write inside PKT_MEM stores its low bytes, the least significant at the lowest address;
every other byte of both memories, and every register, is unchanged. That a narrow write has its value in the low bits of
the model's 32-bit value is the model's choice (log 11). -/
def Obligations.PacketWriteStoresLittleEndian : Prop :=
  ∀ (s : State) (addr value : Word) (w : AccessWidth),
    addr.toNat % w.bytes = 0 → Config.pktBase ≤ addr.toNat → addr.toNat + w.bytes ≤ Config.pktBase + s.params.pktMax →
    s.params.pktMax ≤ 2 ^ 24 →
    ∃ t, perform (.write addr w value) s = .next t ∧
      (∀ i, i < w.bytes → t.busByte (addr.toNat + i) = value.extractLsb' (8 * i) 8) ∧
      (∀ a, a < addr.toNat ∨ addr.toNat + w.bytes ≤ a → t.busByte a = s.busByte a) ∧
      t = { s with pktMem := t.pktMem }

/-- R69, R68, R70: an aligned read above the register window returns the bytes at its addresses, the lowest address least
significant, each byte what R68 gives its address, and changes nothing else; the byte at PKT_BASE + i is PKT[i] and the one at
UNIT_BASE + i is UNIT[i]. The model's choice is the field that holds what was read (log 2), that an access which straddles
PKT_MAX or UNIT_MAX is taken byte by byte (log 6), and that a narrow read has its bytes in the low bits (log 11). -/
def Obligations.MemoryReadIsLittleEndian : Prop :=
  (∀ (s : State) (addr : Word) (w : AccessWidth),
    addr.toNat % w.bytes = 0 → 0x100 ≤ addr.toNat →
    ∃ v : Word, perform (.read addr w) s = .next { s with busData := v } ∧
      (∀ i, i < w.bytes → v.extractLsb' (8 * i) 8 = s.busByte (addr.toNat + i)) ∧ v.toNat < 2 ^ (8 * w.bytes)) ∧
  (∀ (s : State) (i : Nat), s.params.pktMax ≤ 2 ^ 24 → s.params.unitMax ≤ 2 ^ 24 →
    (i < s.params.pktMax →
      s.busByte (0x01000000 + i) = s.pktByte i ∧
      perform (.read (Word.ofNat (0x01000000 + i)) .byte) s =
        .next { s with busData := (s.pktByte i).setWidth 32 }) ∧
    (i < s.params.unitMax →
      s.busByte (0x02000000 + i) = s.unitByte i ∧
      perform (.read (Word.ofNat (0x02000000 + i)) .byte) s =
        .next { s with busData := (s.unitByte i).setWidth 32 }))

/-- R68, R69, R22: misaligned accesses, accesses of the register window that are not 32 bits wide, and accesses of its
unlisted offsets are ignored on write and return 0 on read; above the register window a write outside PKT_MEM is ignored,
UNIT_MEM's window included, and a read outside both memories returns 0. The field that holds what was read is the model's
(log 2). -/
def Obligations.DisallowedAccessesDoNothing : Prop :=
  ∀ (s : State) (addr value : Word) (w : AccessWidth), s.params.pktMax ≤ 2 ^ 24 →
    ((addr.toNat % w.bytes ≠ 0 ∨ (addr.toNat < 0x100 ∧ w ≠ .word)) →
      perform (.write addr w value) s = .next s ∧ perform (.read addr w) s = .next { s with busData := 0 }) ∧
    ((addr.toNat = 0x2C ∨ addr.toNat = 0x3C ∨ (0x60 ≤ addr.toNat ∧ addr.toNat < 0x70) ∨
        (0xA0 ≤ addr.toNat ∧ addr.toNat < 0x100)) →
      perform (.write addr w value) s = .next s ∧ perform (.read addr w) s = .next { s with busData := 0 }) ∧
    (0x100 ≤ addr.toNat → (addr.toNat + w.bytes ≤ Config.pktBase ∨ Config.pktBase + s.params.pktMax ≤ addr.toNat) →
      perform (.write addr w value) s = .next s) ∧
    (0x100 ≤ addr.toNat →
      (addr.toNat + w.bytes ≤ Config.pktBase ∨
        (Config.pktBase + s.params.pktMax ≤ addr.toNat ∧ addr.toNat + w.bytes ≤ Config.unitBase) ∨
        Config.unitBase + s.params.unitMax ≤ addr.toNat) →
      perform (.read addr w) s = .next { s with busData := 0 })

/-- R22 to R45, R261: what a 32-bit host read of every register returns, CMD among them, with the fields of the status
words and the cause codes' numbers written out; and what a 32-bit host write of every register but CMD does: ARG0 to ARG2
and PKT_LEN take the value, every other one ignores it. The field that holds what was read is the model's (log 2). -/
def Obligations.RegisterWritesFollowTheMap : Prop :=
  (∀ s : State,
    (∀ c ∈ ([
        (0x000, s.cmd), (0x004, s.result),
        (0x008, Word.ofNat (s.lastOk.toNat + 2 ^ 8 * s.lastCause.code.toNat)),
        (0x00C, Word.ofNat (s.rd.unitValid.toNat + 2 * s.rd.epbEn.toNat + 2 ^ 2 * (if s.rd.src = .pkt then 1 else 0) +
          2 ^ 3 * s.rd.err.toNat + 2 ^ 4 * (if s.rd.pos.toNat % 8 = 0 then 1 else 0) +
          2 ^ 8 * s.rd.errCause.code.toNat)),
        (0x010, s.rd.pos), (0x014, Word.ofNat s.rd.payload.length), (0x018, Word.ofNat s.rd.rawOff),
        (0x01C, Word.ofNat s.rd.epbCount), (0x020, s.rd.errPos), (0x024, s.rd.base), (0x028, s.rd.rawLen),
        (0x030, s.arg0), (0x034, s.arg1), (0x038, s.arg2),
        (0x040, Word.ofNat ((match s.cfg.codec with | .h264 => 0 | .h265 => 1 | .vp9 => 2 | .av1 => 3) +
          2 ^ 2 * s.cfg.inmode.toNat + 2 ^ 3 * s.cfg.valid.toNat)),
        (0x044, s.pktLen),
        (0x048, Word.ofNat (s.seg.flags.eos.toNat + 2 * s.seg.flags.eop.toNat + 2 ^ 2 * s.seg.flags.disc.toNat)),
        (0x04C, s.seg.pktPos),
        (0x050, Word.ofNat ((match s.seg.result with | .none => 0 | .unit => 1 | .needData => 2 | .error => 3) +
          2 ^ 2 * s.seg.active.toNat + 2 ^ 3 * s.seg.held.toNat + 2 ^ 4 * s.seg.inUnit.toNat + 2 ^ 5 * s.seg.zc.val +
          2 ^ 8 * s.seg.cause.code.toNat)),
        (0x054, s.seg.unitLen), (0x058, s.seg.unitInfo), (0x05C, s.seg.unitCount), (0x070, s.seg.sfCount),
        (0x074, s.seg.sfIndexSize), (0x078, s.seg.sfNext), (0x07C, s.seg.sfBase)] : List (Word × Word)),
      perform (.read c.1 .word) s = .next { s with busData := c.2 }) ∧
    ∀ i, (h : i < 8) →
      perform (.read (Word.ofNat (0x080 + 4 * i)) .word) s = .next { s with busData := s.seg.sfSize[i] }) ∧
  (∀ c ∈ ([(.ok, 0), (.illegalCmd, 1), (.noUnit, 2), (.overrun, 3), (.trailingBits, 4), (.egOverflow, 5), (.aborted, 6),
      (.leb128Overflow, 7), (.badArg, 8), (.notConfigured, 16), (.unitTooLong, 18), (.obuForbidden, 19), (.obuType, 20),
      (.obuSize, 21), (.obuLeb128, 22), (.sfSize, 23), (.pktTooLong, 24), (.obuTrunc, 25), (.segBusy, 26)] :
        List (Cause × Nat)), c.1.code.toNat = c.2) ∧
  ∀ (s : State) (r : Reg) (v : Word),
    perform (.read (Word.ofNat r.offset) .word) s = .next { s with busData := s.readReg r } ∧
    (r ≠ .cmd →
      ∃ t, perform (.write (Word.ofNat r.offset) .word v) s = .next t ∧
        (r = .arg0 ∨ r = .arg1 ∨ r = .arg2 ∨ r = .pktLen → t.readReg r = v) ∧
        ∀ r', r' ≠ r ∨ (r ≠ .arg0 ∧ r ≠ .arg1 ∧ r ≠ .arg2 ∧ r ≠ .pktLen) → t.readReg r' = s.readReg r')

/-! ## Reset and the control commands -/

/-- R290: the register values after power-on reset, for every parameter choice, and the empty payload; SRESET gives every
register but CMD the same value. Of the memories' contents, which the rule leaves unspecified, nothing is said. -/
def Obligations.ResetRegisterValues : Prop :=
  ∀ p : Params,
    (∀ r : Reg, (State.resetWith p).readReg r =
      (if r = .cmdStatus then 0x00000001 else if r = .rdStatus then 0x00000010 else 0)) ∧
    (State.resetWith p).rd.payload = [] ∧
    (∀ s : State, ∃ t, exec .sreset s = .next t ∧ t.rd.payload = [] ∧
      ∀ r : Reg, t.readReg r = if r = .cmd then 0x04000000 else (State.resetWith p).readReg r)

/-- R120: NOP's word is 0x00000000; it changes CMD_STATUS only, which then reads 0x00000001; and with any of bits 25:0 set
its opcode is an illegal word. -/
def Obligations.NopWritesStatusOnly : Prop :=
  encode .nop = 0x00000000 ∧
  (∀ s : State, ∃ t, exec .nop s = .next t ∧ t = { s with lastOk := true, lastCause := .ok } ∧
    t.readReg .cmdStatus = 0x00000001) ∧
  (∀ (hasAux : Bool) (w : Word), w ≠ 0 → w.toNat < 2 ^ 26 → decode hasAux w = .error .reservedBit)

/-- R122, R36: SRESET's word is 0x04000000; it gives every register its reset value but CMD, which keeps that word, and
keeps both memories, the parameters and the host's own accesses. -/
def Obligations.SresetRestoresResetValues : Prop :=
  encode .sreset = 0x04000000 ∧
  ∀ s : State, ∃ t, exec .sreset s = .next t ∧
    (∀ r : Reg, r ≠ .cmd → t.readReg r = State.reset.readReg r) ∧ t.readReg .cmd = 0x04000000 ∧
    t.rd.payload = [] ∧ (∀ a, t.busByte a = s.busByte a) ∧
    t.params = s.params ∧ t.pending = s.pending ∧ t.busData = s.busData

/-- R124: CONFIG opens a session: it writes CONFIG, discards the active packet and any collected or held unit, and clears
the session's counters; PKT_LEN, ARG0 to ARG2, RESULT, both memories and a unit bound from PKT_MEM stay. That exec does
the same for the ill-formed CONFIG vp9 with inmode 1, whose word R86 refuses, is the model's choice (log 14). -/
def Obligations.ConfigOpensSession : Prop :=
  ∀ (s : State) (codec : Codec) (inmode : Bool), ∃ rd',
    exec (.config codec inmode) s =
      .next { s with
        cfg := { codec := codec, inmode := inmode, valid := true }, seg := Segmenter.reset, rd := rd',
        lastOk := true, lastCause := .ok } ∧
    (s.rd.src = .pkt → rd' = s.rd) ∧
    (s.rd.src = .unit → rd' = { s.rd with unitValid := false, payload := [], pos := 0, rawLen := 0 })

/-- R127, R128: LOAD_UNIT unit binds UNIT_MEM[0 .. UNIT_LEN) when a unit is held, else it is refused with NO_UNIT;
LOAD_UNIT pkt binds the range when the mathematical sum ARG0 + ARG1 is at most PKT_MAX, else it is refused with BAD_ARG.
The reader then restarts at POS 0 with no error over the filtered bytes, RESULT is PLEN, and nothing else changes. -/
def Obligations.LoadUnitBindsPayload : Prop :=
  ∀ (s : State) (epb : Bool),
    (s.seg.held = true →
      ∃ P, exec (.loadUnit .unit epb) s =
          .next { s with
            rd :=
              { unitValid := true, epbEn := epb, src := .unit, err := false, errCause := .ok, pos := 0, errPos := 0,
                base := 0, rawLen := s.seg.unitLen, payload := P }
            result := Word.ofNat P.length, lastOk := true, lastCause := .ok } ∧
        P = epbFilter epb ((List.range s.seg.unitLen.toNat).map s.unitByte) 0 0) ∧
    (s.seg.held = false → exec (.loadUnit .unit epb) s = .next (s.refusedWith .noUnit)) ∧
    (s.arg0.toNat + s.arg1.toNat ≤ s.params.pktMax →
      ∃ P, exec (.loadUnit .pkt epb) s =
          .next { s with
            rd :=
              { unitValid := true, epbEn := epb, src := .pkt, err := false, errCause := .ok, pos := 0, errPos := 0,
                base := s.arg0, rawLen := s.arg1, payload := P }
            result := Word.ofNat P.length, lastOk := true, lastCause := .ok } ∧
        P = epbFilter epb ((List.range s.arg1.toNat).map fun i => s.pktByte (s.arg0.toNat + i)) 0 0) ∧
    (s.params.pktMax < s.arg0.toNat + s.arg1.toNat → exec (.loadUnit .pkt epb) s = .next (s.refusedWith .badArg))

/-- R62: the filter keeps bytes in order with their raw offsets, removes only bytes 0x03 whose two raw predecessors are
0x00, and with EN = 0 removes nothing. -/
def Obligations.FilterRemovesOnlyPreventionBytes : Prop :=
  ∀ (en : Bool) (raw : List Byte),
    (epbFilter en raw 0 0).Pairwise (fun c d => c.1 < d.1) ∧
    (∀ c ∈ epbFilter en raw 0 0, raw[c.1]? = some c.2) ∧
    (∀ i, i < raw.length → i ∉ (epbFilter en raw 0 0).map Prod.fst →
      en = true ∧ 2 ≤ i ∧ raw[i]? = some 0x03 ∧ raw[i - 1]? = some 0x00 ∧ raw[i - 2]? = some 0x00)

/-- R62: raw bytes without the sequence 00 00 03 stay as they are; and the 03 of its first occurrence is removed, after
which the count of zeros starts again. -/
def Obligations.FilterRemovesFirstPreventionByte : Prop :=
  ∀ (before after : List Byte),
    (∀ i : Nat, ¬ (before[i]? = some 0x00 ∧ before[i + 1]? = some 0x00 ∧ before[i + 2]? = some 0x03)) →
    (epbFilter true before 0 0).map Prod.snd = before ∧
    (before.reverse.take 2 = [0x00, 0x00] →
      (epbFilter true (before ++ 0x03 :: after) 0 0).map Prod.snd =
        before ++ (epbFilter true after 0 0).map Prod.snd)

/-- R64: RAW_OFF is the raw offset of the payload byte that holds bit POS, RAW_LEN at the payload's end; EPB_COUNT is
RAW_OFF less POS div 8, which in a state with the invariant is the number of raw bytes below RAW_OFF that the payload
leaves out, and RAW_LEN - PLEN at the end. -/
def Obligations.EpbCountCountsRemovedBytes : Prop :=
  ∀ s : State, s.Inv →
    (∀ c, s.rd.payload[s.rd.pos.toNat / 8]? = some c → s.readReg .rawOff = Word.ofNat c.1 ∧ s.rd.rawOff = c.1) ∧
    (s.rd.pos.toNat / 8 = s.rd.plen →
      s.readReg .rawOff = s.rd.rawLen ∧ s.readReg .epbCount = s.rd.rawLen - Word.ofNat s.rd.plen ∧
      s.rd.epbCount = s.rd.rawLen.toNat - s.rd.plen) ∧
    s.rd.rawOff = s.rd.pos.toNat / 8 + s.rd.epbCount ∧ s.readReg .epbCount = Word.ofNat s.rd.epbCount ∧
    s.rd.epbCount =
      ((List.range s.rd.rawOff).filter (fun o => decide (o ∉ s.rd.payload.map Prod.fst))).length

/-! ## Read commands: the common rules -/

/-- R140, R269, R186, R188, R190: NS and SUBEXP with ARG0 = 0 and SUBEXP_REF with high ≤ low are refused with BAD_ARG before
any other check; any other read is refused with NO_UNIT while nothing is bound, with ABORTED after a failure. -/
def Obligations.ReadRefusals : Prop :=
  ∀ (s : State) (i : Instr), isReadCommand i = true →
    (s.argsAccepted i = false → exec i s = .next (s.refusedWith .badArg)) ∧
    (s.argsAccepted i = true → s.rd.unitValid = false → exec i s = .next (s.refusedWith .noUnit)) ∧
    (s.argsAccepted i = true → s.rd.unitValid = true → s.rd.err = true → exec i s = .next (s.refusedWith .aborted))

/-- R141, R266, R27, R306: a read that succeeds writes RESULT, POS and CMD_STATUS only, and POS never moves back nor past
`8*PLEN`; one that does not leaves POS and RESULT as they were, and a failure is recorded once, with POS at the command's
start. -/
def Obligations.ReadsAreAllOrNothing : Prop :=
  ∀ (s t : State) (i : Instr), isReadCommand i = true → exec i s = .next t →
    (t.lastOk = true →
      ∃ q, t = s.readDone t.result q ∧ (s.Inv → s.rd.pos.toNat ≤ q ∧ q ≤ 8 * s.rd.plen ∧ t.rd.pos.toNat = q)) ∧
    (t.lastOk = false →
      t = s.refusedWith t.lastCause ∨ (s.rd.unitValid = true ∧ s.rd.err = false ∧ t = s.readFailed t.lastCause))

/-- R125: no read command depends on CONFIG, on the segmenter, on the memories or on PKT_LEN. -/
def Obligations.ReadsDependOnReaderAndArgumentsOnly : Prop :=
  ∀ (s t : State) (i : Instr) (cfg : SessionConfig) (seg : Segmenter) (pm um : Memory) (len : Word),
    isReadCommand i = true → exec i s = .next t →
    exec i { s with cfg := cfg, seg := seg, pktMem := pm, unitMem := um, pktLen := len } =
      .next { t with cfg := cfg, seg := seg, pktMem := pm, unitMem := um, pktLen := len }

/-! ## U, ALIGN, ALIGNED -/

/-- R142, R13: Take(n) yields the next n bits, the first the most significant, and moves the cursor by n; when fewer than n bits
are left it fails with OVERRUN. Bit p of the payload is bit 7 - (p mod 8) of its byte p div 8, as R13 writes it. -/
def Obligations.TakeYieldsNextBits : Prop :=
  ∀ (P : List Byte) (n q : Nat),
    (∀ p, (h : p / 8 < P.length) → bitAt P p = (P[p / 8]).getLsbD (7 - p % 8)) ∧
    (q + n ≤ 8 * P.length →
      take P n q =
        .got
          ((List.range n).map fun i =>
            ((P.getD ((q + i) / 8) 0).getLsbD (7 - (q + i) % 8)).toNat * 2 ^ (n - 1 - i)).sum
          (q + n)) ∧
    (8 * P.length < q + n → take P n q = .failed .overrun)

/-- R144, R143, R13, R60: U n returns the next n payload bits, the first the most significant, and advances POS by n, up to a
read that ends exactly at bit `8*PLEN`; one bit longer fails with OVERRUN. U 0 returns 0 and leaves POS, even there. At a byte
boundary U 8 returns the payload byte there. -/
def Obligations.UReadsNextBits : Prop :=
  ∀ (s : State) (n : Nat), s.readable → n ≤ 32 →
    (s.rd.pos.toNat + n ≤ 8 * s.rd.plen →
      ∃ v : Word, exec (.u n) s = .next (s.readDone v (s.rd.pos.toNat + n)) ∧
        (∀ i, i < n →
          v.getLsbD (n - 1 - i) =
            (s.rd.bytes.getD ((s.rd.pos.toNat + i) / 8) 0).getLsbD (7 - (s.rd.pos.toNat + i) % 8)) ∧
        v.toNat < 2 ^ n) ∧
    (8 * s.rd.plen < s.rd.pos.toNat + n → exec (.u n) s = .next (s.readFailed .overrun)) ∧
    (s.rd.pos.toNat % 8 = 0 → ∀ c, s.rd.payload[s.rd.pos.toNat / 8]? = some c →
      exec (.u 8) s = .next (s.readDone (c.2.setWidth 32) (s.rd.pos.toNat + 8)))

/-- R146, R148: ALIGN skip goes to the next byte boundary unchecked; ALIGN zero does so when every bit there is 0 and else
fails with TRAILING_BITS. At a boundary both succeed, at `8*PLEN` and in an empty payload too (log 17). -/
def Obligations.AlignReachesByteBoundary : Prop :=
  ∀ (s : State) (k : Nat), s.readable → s.rd.pos.toNat ≤ 8 * s.rd.plen → k < 8 → (s.rd.pos.toNat + k) % 8 = 0 →
    exec (.align .skip) s = .next (s.readDone (Word.ofNat k) (s.rd.pos.toNat + k)) ∧
    ((∀ i, i < k → bitAt s.rd.bytes (s.rd.pos.toNat + i) = false) →
      exec (.align .zero) s = .next (s.readDone (Word.ofNat k) (s.rd.pos.toNat + k))) ∧
    ((∃ i, i < k ∧ bitAt s.rd.bytes (s.rd.pos.toNat + i) = true) →
      exec (.align .zero) s = .next (s.readFailed .trailingBits))

/-- R104, R146, R148: ALIGN rbsp consumes a stop bit 1 and the zeros to the next byte boundary, 1 to 8 bits; it fails with
OVERRUN when no bit is left, and with TRAILING_BITS on a stop bit 0 or a later bit 1. -/
def Obligations.AlignRbspChecksTrailingBits : Prop :=
  ∀ (s : State) (k : Nat), s.readable → s.rd.pos.toNat ≤ 8 * s.rd.plen → 1 ≤ k → k ≤ 8 →
    (s.rd.pos.toNat + k) % 8 = 0 →
    (s.rd.pos.toNat = 8 * s.rd.plen → exec (.align .rbsp) s = .next (s.readFailed .overrun)) ∧
    (s.rd.pos.toNat < 8 * s.rd.plen → bitAt s.rd.bytes s.rd.pos.toNat = true →
      (∀ i, 1 ≤ i → i < k → bitAt s.rd.bytes (s.rd.pos.toNat + i) = false) →
      exec (.align .rbsp) s = .next (s.readDone (Word.ofNat k) (s.rd.pos.toNat + k))) ∧
    (s.rd.pos.toNat < 8 * s.rd.plen →
      (bitAt s.rd.bytes s.rd.pos.toNat = false ∨ ∃ i, 1 ≤ i ∧ i < k ∧ bitAt s.rd.bytes (s.rd.pos.toNat + i) = true) →
      exec (.align .rbsp) s = .next (s.readFailed .trailingBits))

/-- R149: ALIGNED tests POS mod 8 and does not move POS; in an empty payload, where POS is 0, it succeeds with RESULT 1. -/
def Obligations.AlignedTestsPosition : Prop :=
  ∀ s : State, s.readable →
    exec .aligned s =
      .next { s with result := if s.rd.pos.toNat % 8 = 0 then 1 else 0, lastOk := true, lastCause := .ok }

/-! ## UE, SE, UVLC -/

/-- R169, R165, R101, R102: the `ue(v)` codeword of any v up to 2^32 - 2 at POS makes UE return v and advance POS by its
length; the `se` codeword of any x with |x| ≤ 2^31 - 1 makes SE return x mod 2^32. -/
def Obligations.ExpGolombRoundTrip : Prop :=
  (∀ (s : State) (v : Nat), s.readable → v ≤ 2 ^ 32 - 2 → bitsAre s.rd.bytes s.rd.pos.toNat (ueCodeword v) →
    exec .ue s = .next (s.readDone (Word.ofNat v) (s.rd.pos.toNat + (2 * Nat.log2 (v + 1) + 1)))) ∧
  (∀ (s : State) (x : Int), s.readable → -(2 ^ 31 - 1) ≤ x → x ≤ 2 ^ 31 - 1 →
    bitsAre s.rd.bytes s.rd.pos.toNat (ueCodeword (seCodeNum x)) →
    exec .se s = .next (s.readDone (Word.ofInt x) (s.rd.pos.toNat + (2 * Nat.log2 (seCodeNum x + 1) + 1))))

/-- R170, R167, R168: UE and UVLC return v for the codeword of any v up to 2^32 - 2, and UVLC returns 2^32 - 1 for any
prefix of 32 or more zeros, of which it consumes exactly the zeros and the 1. -/
def Obligations.UvlcRoundTripAndSaturation : Prop :=
  ∀ s : State, s.readable →
    (∀ v : Nat, v ≤ 2 ^ 32 - 2 → bitsAre s.rd.bytes s.rd.pos.toNat (ueCodeword v) →
      exec .ue s = .next (s.readDone (Word.ofNat v) (s.rd.pos.toNat + (2 * Nat.log2 (v + 1) + 1))) ∧
      exec .uvlc s = .next (s.readDone (Word.ofNat v) (s.rd.pos.toNat + (2 * Nat.log2 (v + 1) + 1)))) ∧
    (∀ L : Nat, 32 ≤ L → bitsAre s.rd.bytes s.rd.pos.toNat (List.replicate L false ++ [true]) →
      exec .uvlc s = .next (s.readDone 0xFFFFFFFF (s.rd.pos.toNat + (L + 1))))

/-- R160, R162, R163, R168: 32 zeros at the cursor make UE and SE fail with EG_OVERFLOW, whatever follows. When the payload
ends inside the prefix, after k zeros, UVLC fails with OVERRUN for every k, UE and SE for k up to 31; so do all three when
the suffix does not fit. -/
def Obligations.ExpGolombFailures : Prop :=
  ∀ (s : State) (k : Nat), s.readable →
    (bitsAre s.rd.bytes s.rd.pos.toNat (List.replicate 32 false) →
      exec .ue s = .next (s.readFailed .egOverflow) ∧ exec .se s = .next (s.readFailed .egOverflow)) ∧
    (s.rd.pos.toNat + k = 8 * s.rd.plen → bitsAre s.rd.bytes s.rd.pos.toNat (List.replicate k false) →
      exec .uvlc s = .next (s.readFailed .overrun) ∧
      (k ≤ 31 → exec .ue s = .next (s.readFailed .overrun) ∧ exec .se s = .next (s.readFailed .overrun))) ∧
    (k ≤ 31 → bitsAre s.rd.bytes s.rd.pos.toNat (List.replicate k false ++ [true]) →
      8 * s.rd.plen < s.rd.pos.toNat + (2 * k + 1) →
      exec .uvlc s = .next (s.readFailed .overrun) ∧ exec .ue s = .next (s.readFailed .overrun) ∧
      exec .se s = .next (s.readFailed .overrun))

/-! ## The auxiliary family -/

/-- R180, R181, R108: LEB128 of any value in n = 1 to 8 bytes, redundant forms too, from any bit position: up to 2^32 - 1
it is returned, above it fails with LEB128_OVERFLOW, and cut off by the payload's end with OVERRUN; eight bytes that all
have bit 7 set end the value after the eighth. -/
def Obligations.Leb128RoundTrip : Prop :=
  ∀ s : State, s.readable →
    (∀ n v : Nat, 1 ≤ n → n ≤ 8 → v < 2 ^ (7 * n) →
      (bitsAre s.rd.bytes s.rd.pos.toNat (bytesBits (lebBytes n v)) →
        (v ≤ 2 ^ 32 - 1 → exec .leb128 s = .next (s.readDone (Word.ofNat v) (s.rd.pos.toNat + 8 * n))) ∧
        (2 ^ 32 - 1 < v → exec .leb128 s = .next (s.readFailed .leb128Overflow))) ∧
      (∀ k, k < 8 * n → s.rd.pos.toNat + k = 8 * s.rd.plen →
        bitsAre s.rd.bytes s.rd.pos.toNat ((bytesBits (lebBytes n v)).take k) →
        exec .leb128 s = .next (s.readFailed .overrun))) ∧
    (∀ (bs : List Byte) (v : Nat), bs.length = 8 → (∀ b ∈ bs, 0x80 ≤ b.toNat) →
      v = ((List.range 8).map fun i => (bs.getD i 0).toNat % 128 * 2 ^ (7 * i)).sum →
      bitsAre s.rd.bytes s.rd.pos.toNat (bytesBits bs) →
      (v ≤ 2 ^ 32 - 1 → exec .leb128 s = .next (s.readDone (Word.ofNat v) (s.rd.pos.toNat + 64))) ∧
      (2 ^ 32 - 1 < v → exec .leb128 s = .next (s.readFailed .leb128Overflow)))

/-- R182, R183: SU n returns the next n bits as two's complement, extended to 32 bits; without n bits left it fails with
OVERRUN. -/
def Obligations.SuSignExtends : Prop :=
  ∀ (s : State) (n : Nat), s.readable → 1 ≤ n → n ≤ 32 →
    (s.rd.pos.toNat + n ≤ 8 * s.rd.plen →
      ∃ v : BitVec n, exec (.su n) s = .next (s.readDone (v.signExtend 32) (s.rd.pos.toNat + n)) ∧
        ∀ i, i < n → v.getLsbD (n - 1 - i) = bitAt s.rd.bytes (s.rd.pos.toNat + i)) ∧
    (8 * s.rd.plen < s.rd.pos.toNat + n → exec (.su n) s = .next (s.readFailed .overrun))

/-- R185, R184: LE n returns the little-endian value of the next n bytes, from any bit position; when fewer are left it
fails with OVERRUN and consumes nothing. -/
def Obligations.LeRoundTrip : Prop :=
  ∀ (s : State) (n : Nat), s.readable → 1 ≤ n → n ≤ 4 →
    (∀ v : Nat, v < 2 ^ (8 * n) → bitsAre s.rd.bytes s.rd.pos.toNat (bytesBits (leBytes n v)) →
      exec (.le n) s = .next (s.readDone (Word.ofNat v) (s.rd.pos.toNat + 8 * n))) ∧
    (8 * s.rd.plen < s.rd.pos.toNat + 8 * n → exec (.le n) s = .next (s.readFailed .overrun))

/-- R186, R112: NS returns v for the non-symmetric codeword of every v below ARG0, and fails with OVERRUN when the payload
ends inside the codeword. With ARG0 = 1 the codeword is empty, and NS succeeds in an empty payload too (R187, log 17). -/
def Obligations.NsRoundTrip : Prop :=
  ∀ (s : State) (v : Nat), s.readable → v < s.arg0.toNat →
    (bitsAre s.rd.bytes s.rd.pos.toNat (nsCodeword s.arg0.toNat v) →
      exec .ns s = .next (s.readDone (Word.ofNat v) (s.rd.pos.toNat + (nsCodeword s.arg0.toNat v).length))) ∧
    (∀ k, k < (nsCodeword s.arg0.toNat v).length → s.rd.pos.toNat + k = 8 * s.rd.plen →
      bitsAre s.rd.bytes s.rd.pos.toNat ((nsCodeword s.arg0.toNat v).take k) →
      exec .ns s = .next (s.readFailed .overrun))

/-- R188, R189, R112: SUBEXP returns v for the subexponential codeword of every v below ARG0, and fails with OVERRUN when
the payload ends inside the codeword. With ARG0 = 1 the codeword is empty, and SUBEXP succeeds in an empty payload too
(R187, log 17). -/
def Obligations.SubexpRoundTrip : Prop :=
  ∀ (s : State) (v : Nat), s.readable → v < s.arg0.toNat →
    (bitsAre s.rd.bytes s.rd.pos.toNat (subexpCodeword s.arg0.toNat v) →
      exec .subexp s =
        .next (s.readDone (Word.ofNat v) (s.rd.pos.toNat + (subexpCodeword s.arg0.toNat v).length))) ∧
    (∀ k, k < (subexpCodeword s.arg0.toNat v).length → s.rd.pos.toNat + k = 8 * s.rd.plen →
      bitsAre s.rd.bytes s.rd.pos.toNat ((subexpCodeword s.arg0.toNat v).take k) →
      exec .subexp s = .next (s.readFailed .overrun))

/-- R190, R191: SUBEXP_REF maps the coded delta v around the reference r = ARG2, with low = ARG0 and mx = ARG1 - ARG0, by
the formula written out here, `away c` being R191's InverseRecenter(c, v); and fails with OVERRUN when the payload ends
inside the codeword. r may lie outside the range. With mx = 1 the codeword is empty (R187, log 17). -/
def Obligations.SubexpRefDecodesDelta : Prop :=
  ∀ (s : State) (v mx : Nat), s.readable → s.arg1.toInt - s.arg0.toInt = mx → v < mx →
    (bitsAre s.rd.bytes s.rd.pos.toNat (subexpCodeword mx v) →
      let rr : Int := s.arg2.toInt - s.arg0.toInt
      let away : Int → Int := fun c =>
        if (v : Int) > 2 * c then v else if v % 2 = 1 then c - (v + 1) / 2 else c + v / 2
      exec .subexpRef s =
        .next (s.readDone
          (Word.ofInt ((if 2 * rr ≤ mx then away rr else mx - 1 - away (mx - 1 - rr)) + s.arg0.toInt))
          (s.rd.pos.toNat + (subexpCodeword mx v).length))) ∧
    (∀ k, k < (subexpCodeword mx v).length → s.rd.pos.toNat + k = 8 * s.rd.plen →
      bitsAre s.rd.bytes s.rd.pos.toNat ((subexpCodeword mx v).take k) →
      exec .subexpRef s = .next (s.readFailed .overrun))

/-- R190, R191: for a reference inside [low, high) the formula maps the deltas 0 .. mx - 1 one to one into [low, high), and
delta 0 to the reference. -/
def Obligations.RecenterIsPermutation : Prop :=
  ∀ (low r : Int) (mx : Nat), low ≤ r → r < low + mx →
    recenter low mx r 0 = r ∧
    (∀ v : Nat, v < mx → low ≤ recenter low mx r v ∧ recenter low mx r v < low + mx) ∧
    (∀ v w : Nat, v < mx → w < mx → recenter low mx r v = recenter low mx r w → v = w)

/-! ## SEG_PACKET -/

/-- R201, R202: an accepted packet of any codec: flags from the word, PKT_ACTIVE set, PKT_POS 0, SF_NEXT and SF_BASE 0; with
`disc` the carried state and a held unit are dropped, without it they stay. -/
def Obligations.SegPacketAcceptsPacket : Prop :=
  ∀ (s : State) (eos eop disc : Bool),
    s.cfg.valid = true → s.pktLen.toNat ≤ s.params.pktMax → (s.seg.active = false ∨ disc = true) →
    ∃ t, exec (.segPacket eos eop disc) s = .next t ∧
      t = { s with seg := t.seg, rd := t.rd, lastOk := true, lastCause := .ok } ∧
      t.seg.flags = { eos := eos, eop := eop, disc := disc } ∧ t.seg.active = true ∧ t.seg.pktPos = 0 ∧
      t.seg.result = .none ∧ t.seg.cause = .ok ∧ t.seg.sfNext = 0 ∧ t.seg.sfBase = 0 ∧
      t.seg.unitCount = s.seg.unitCount ∧
      (s.cfg.codec ≠ .vp9 → t.seg.sfCount = 0 ∧ t.seg.sfIndexSize = 0 ∧ ∀ i, (h : i < 8) → t.seg.sfSize[i] = 0) ∧
      (disc = false →
        t.rd = s.rd ∧ t.seg.held = s.seg.held ∧ t.seg.unitLen = s.seg.unitLen ∧ t.seg.unitInfo = s.seg.unitInfo ∧
        t.seg.inUnit = s.seg.inUnit ∧ t.seg.zc = s.seg.zc) ∧
      (disc = true →
        t.seg.held = false ∧ t.seg.unitLen = 0 ∧ t.seg.unitInfo = 0 ∧ t.seg.inUnit = false ∧ t.seg.zc = 0 ∧
        (s.rd.src = .pkt → t.rd = s.rd) ∧
        (s.rd.src = .unit → t.rd = { s.rd with unitValid := false, payload := [], pos := 0, rawLen := 0 }))

/-- R201, R203: the refusals of SEG_PACKET in their order: NOT_CONFIGURED, PKT_TOO_LONG, SEG_BUSY. -/
def Obligations.SegPacketRefusals : Prop :=
  ∀ (s : State) (eos eop disc : Bool),
    (s.cfg.valid = false → exec (.segPacket eos eop disc) s = .next (s.refusedWith .notConfigured)) ∧
    (s.cfg.valid = true → s.params.pktMax < s.pktLen.toNat →
      exec (.segPacket eos eop disc) s = .next (s.refusedWith .pktTooLong)) ∧
    (s.cfg.valid = true → s.pktLen.toNat ≤ s.params.pktMax → s.seg.active = true → disc = false →
      exec (.segPacket eos eop disc) s = .next (s.refusedWith .segBusy))

/-! ## SEG_NEXT: common rules -/

/-- R204, R46: SEG_NEXT is refused with NOT_CONFIGURED before any CONFIG and releases nothing; with no active packet it
releases a held unit, unbinding a reader bound to it, and reports NEED_DATA. Nothing else changes: the scanner's state, a
carried unit's length, PKT_POS, UNIT_COUNT, RESULT and both memories stay. -/
def Obligations.SegNextWithoutPacket : Prop :=
  ∀ s : State,
    (s.cfg.valid = false → exec .segNext s = .next (s.refusedWith .notConfigured)) ∧
    (s.cfg.valid = true → s.seg.active = false →
      exec .segNext s =
        .next { s with
          rd := s.readerAfterRelease
          seg := { s.seg with
            result := .needData, cause := .ok, held := false
            unitLen := if s.seg.held then 0 else s.seg.unitLen
            unitInfo := if s.seg.held then 0 else s.seg.unitInfo }
          lastOk := true, lastCause := .ok })

/-- R36, R66, R212: no command writes PKT_MEM, only SEG_NEXT writes UNIT_MEM, and no command writes UNIT_MEM at or above
UNIT_MAX: its entries there stay as they were, so with none there before there is none after. Every byte the host can read
outside UNIT_MEM's window stays. -/
def Obligations.OnlySegNextWritesUnitMemory : Prop :=
  ∀ (s t : State) (i : Instr), exec i s = .next t →
    t.pktMem = s.pktMem ∧ (i ≠ .segNext → t.unitMem = s.unitMem) ∧
    (∀ a, s.params.unitMax ≤ a → Memory.read? t.unitMem a = Memory.read? s.unitMem a) ∧
    ((∀ c ∈ s.unitMem, c.1 < s.params.unitMax) → ∀ c ∈ t.unitMem, c.1 < s.params.unitMax) ∧
    (∀ a, a < Config.unitBase ∨ Config.unitBase + s.params.unitMax ≤ a → t.busByte a = s.busByte a)

/-- R204 to R208, R225, R243: the bytes SEG_NEXT stores. They start at UNIT[b], where b is the length of the unit carried
over, 0 after a release; unless it ends in ERROR they end below UNIT[UNIT_LEN]; when it abandons the packet it stores
nothing. -/
def Obligations.SegNextStoresTheUnitOnly : Prop :=
  ∀ s t : State, s.Inv → exec .segNext s = .next t →
    (∀ i, i < (if s.seg.held then 0 else s.seg.unitLen.toNat) → t.unitByte i = s.unitByte i) ∧
    (t.seg.result ≠ .error → ∀ i, t.seg.unitLen.toNat ≤ i → t.unitByte i = s.unitByte i) ∧
    (t.seg.result = .error → t.seg.cause ≠ .unitTooLong → t.unitMem = s.unitMem)

/-- R204, R205, R46, R303, R267, R301: what SEG_NEXT leaves alone, and what a produced unit writes: with UNIT the unit is
held, counted, and RESULT is UNIT_LEN; otherwise none is held, RESULT and UNIT_COUNT stay. A reader bound to a unit held
before is unbound, and the reader is otherwise left alone. -/
def Obligations.SegNextFrame : Prop :=
  ∀ s t : State, s.cfg.valid = true → exec .segNext s = .next t →
    t = { s with
      rd := t.rd, seg := t.seg, unitMem := t.unitMem, result := t.result, lastOk := t.lastOk,
      lastCause := t.lastCause } ∧
    t.seg.flags = s.seg.flags ∧ t.seg.sfCount = s.seg.sfCount ∧ t.seg.sfSize = s.seg.sfSize ∧
    t.seg.sfIndexSize = s.seg.sfIndexSize ∧
    t.rd = s.readerAfterRelease ∧ t.lastCause = t.seg.cause ∧
    ((t.seg.result = .unit ∧ t.seg.held = true ∧ t.result = t.seg.unitLen ∧
        t.seg.unitCount = s.seg.unitCount + 1 ∧ t.lastOk = true) ∨
      (t.seg.result = .needData ∧ t.seg.held = false ∧ t.result = s.result ∧ t.seg.unitCount = s.seg.unitCount ∧
        t.seg.active = false ∧ t.lastOk = true) ∨
      (t.seg.result = .error ∧ t.seg.held = false ∧ t.result = s.result ∧ t.seg.unitCount = s.seg.unitCount ∧
        t.lastOk = false))

/-! ## SEG_NEXT: H.264 and H.265 -/

/-- R206, R207, R109, R209: in byte-stream mode SEG_NEXT emits exactly the bytes of a unit up to the next start code, any further
leading zeros of that start code with it, and stops right after the start code: `c` the bytes collected before, `lead` what is
dropped before the unit (the bytes up to a stream's first start code, and empty units), `w` the bytes still to come. -/
def Obligations.NalUnitBetweenStartCodes : Prop :=
  ∀ (s : State) (c lead w : List Byte),
    s.Inv → s.cfg.valid = true → s.byteStream = true → s.seg.active = true → s.unitOpens c lead →
    c ++ w ≠ [] → (c ++ w).length ≤ s.params.unitMax → startCodeFree (w ++ [0x00, 0x00]) →
    s.scanHolds (lead ++ w ++ startCode) →
    ∃ t, exec .segNext s = .next t ∧ t.seg.result = .unit ∧ t.seg.held = true ∧ t.unitHolds (c ++ w) ∧
      t.seg.unitLen = Word.ofNat (c ++ w).length ∧ t.result = Word.ofNat (c ++ w).length ∧ t.seg.unitInfo = 0 ∧
      t.seg.pktPos = s.scannedTo (lead ++ w ++ startCode) ∧ t.seg.active = true ∧
      t.seg.inUnit = true ∧ t.seg.zc = 0 ∧ t.lastOk = true

/-- R208, R207, R209, R213: with EOP or EOS the unit open at the packet's end ends there, its trailing zeros included; an empty
one is dropped, and NEED_DATA reported. Without, the scanner state carries over and SEG_NEXT reports NEED_DATA. So does a packet
with no start code while no unit is open, all its bytes dropped but ZC counting its last zeros. -/
def Obligations.NalUnitAtPacketEnd : Prop :=
  (∀ (s : State) (c lead w : List Byte),
    s.Inv → s.cfg.valid = true → s.byteStream = true → s.seg.active = true → s.unitOpens c lead →
    (c ++ w).length ≤ s.params.unitMax + min 2 (trailingZeros w) → startCodeFree w →
    s.scanHolds (lead ++ w) → s.scanEndsWith (lead ++ w) →
    ∃ t, exec .segNext s = .next t ∧ t.seg.active = false ∧ t.seg.pktPos = s.scannedTo (lead ++ w) ∧
      (s.seg.flags.eop = true ∨ s.seg.flags.eos = true → (c ++ w).length ≤ s.params.unitMax →
        t.lastOk = true ∧ t.seg.inUnit = false ∧ t.seg.zc = 0 ∧
        (c ++ w ≠ [] →
          t.seg.result = .unit ∧ t.unitHolds (c ++ w) ∧ t.seg.unitLen = Word.ofNat (c ++ w).length) ∧
        (c ++ w = [] → t.seg.result = .needData ∧ t.seg.held = false ∧ t.seg.unitLen = 0)) ∧
      (s.seg.flags.eop = false → s.seg.flags.eos = false →
        t.lastOk = true ∧ t.seg.result = .needData ∧ t.seg.held = false ∧ t.seg.inUnit = true ∧
        t.seg.zc.val = min 2 (trailingZeros w) ∧ t.seg.unitLen.toNat + t.seg.zc.val = (c ++ w).length ∧
        t.unitHolds ((c ++ w).take t.seg.unitLen.toNat))) ∧
  (∀ (s : State) (pre : List Byte),
    s.Inv → s.cfg.valid = true → s.byteStream = true → s.seg.active = true → s.seg.inUnit = false →
    startCodeFree pre → s.scanHolds pre → s.scanEndsWith pre →
    ∃ t, exec .segNext s = .next t ∧ t.seg.result = .needData ∧ t.lastOk = true ∧ t.seg.active = false ∧
      t.seg.pktPos = s.scannedTo pre ∧ t.seg.inUnit = false ∧ t.seg.held = false ∧ t.seg.unitLen = 0 ∧
      t.unitMem = s.unitMem ∧ t.result = s.result ∧ t.seg.unitCount = s.seg.unitCount ∧
      t.seg.zc.val = if s.seg.flags.eop = true ∨ s.seg.flags.eos = true then 0 else min 2 (trailingZeros pre))

/-- R206, R207, R208: in byte-stream mode a unit that outgrows UNIT_MAX is discarded with UNIT_TOO_LONG, and the scanner is out of
the unit until the next start code. After UNIT_MAX bytes of the unit, `c` collected before and `w` without a start code, that
happens at the next byte that is not 0x00, with up to two zeros before it (ZC is then 0); at the third of three zeros (ZC stays
2); in both the packet stays active right after that byte; and at the packet's end with EOP or EOS after one or two zeros. -/
def Obligations.NalUnitTooLongIsDropped : Prop :=
  ∀ (s : State) (c lead w : List Byte),
    s.Inv → s.cfg.valid = true → s.byteStream = true → s.seg.active = true → s.unitOpens c lead →
    (c ++ w).length = s.params.unitMax →
    (∀ (k : Nat) (b : Byte), k ≤ 2 → b ≠ 0x00 → startCodeFree (w ++ List.replicate k 0x00 ++ [b]) →
      s.scanHolds (lead ++ w ++ List.replicate k 0x00 ++ [b]) →
      ∃ t, exec .segNext s = .next t ∧ unitDropped s t ∧ t.seg.active = true ∧ t.seg.zc = 0 ∧
        t.seg.pktPos = s.scannedTo (lead ++ w ++ List.replicate k 0x00 ++ [b])) ∧
    (startCodeFree w →
      (s.scanHolds (lead ++ w ++ [0x00, 0x00, 0x00]) →
        ∃ t, exec .segNext s = .next t ∧ unitDropped s t ∧ t.seg.active = true ∧ t.seg.zc = 2 ∧
          t.seg.pktPos = s.scannedTo (lead ++ w ++ [0x00, 0x00, 0x00])) ∧
      (∀ k : Nat, 1 ≤ k → k ≤ 2 → s.seg.flags.eop = true ∨ s.seg.flags.eos = true →
        s.scanHolds (lead ++ w ++ List.replicate k 0x00) → s.scanEndsWith (lead ++ w ++ List.replicate k 0x00) →
        ∃ t, exec .segNext s = .next t ∧ unitDropped s t ∧ t.seg.active = false ∧ t.seg.zc = 0 ∧
          t.seg.pktPos = s.scannedTo (lead ++ w ++ List.replicate k 0x00)))

/-- R207, R209: a start code split across packets is found: with a unit carried over and z zeros already counted, a packet
that begins with the rest of the start code ends the unit there, exactly as it was collected. -/
def Obligations.SplitStartCodeEndsUnit : Prop :=
  ∀ s : State, s.Inv → s.cfg.valid = true → s.byteStream = true → s.seg.active = true → s.seg.held = false →
    s.seg.inUnit = true → 0 < s.seg.unitLen.toNat →
    s.seg.pktPos.toNat + (3 - s.seg.zc.val) ≤ s.pktLen.toNat →
    s.pktHolds s.seg.pktPos.toNat (startCode.drop s.seg.zc.val) →
    ∃ t, exec .segNext s = .next t ∧ t.seg.result = .unit ∧ t.seg.held = true ∧ t.seg.unitLen = s.seg.unitLen ∧
      (∀ i, t.unitByte i = s.unitByte i) ∧ t.result = s.seg.unitLen ∧ t.seg.unitInfo = 0 ∧ t.seg.active = true ∧
      t.seg.inUnit = true ∧ t.seg.zc = 0 ∧ t.seg.pktPos = Word.ofNat (s.seg.pktPos.toNat + (3 - s.seg.zc.val))

/-- R210, R244: in length-prefixed mode, and in VP9 without a trusted index, the whole packet is one unit, whatever its
flags and bytes; an empty packet gives NEED_DATA; one longer than UNIT_MAX gives UNIT_TOO_LONG. The packet is used up in
each case, and the next SEG_NEXT reports NEED_DATA. -/
def Obligations.WholePacketIsOneUnit : Prop :=
  ∀ s : State, s.cfg.valid = true → s.seg.active = true →
    ((s.cfg.codec = .h264 ∨ s.cfg.codec = .h265) ∧ s.cfg.inmode = true) ∨ (s.cfg.codec = .vp9 ∧ s.seg.sfCount = 0) →
    ∃ t, exec .segNext s = .next t ∧ t.seg.active = false ∧ t.seg.pktPos = s.pktLen ∧
      (s.pktLen = 0 →
        t.seg.result = .needData ∧ t.seg.cause = .ok ∧ t.lastOk = true ∧ t.result = s.result ∧ t.unitMem = s.unitMem) ∧
      (0 < s.pktLen.toNat → s.pktLen.toNat ≤ s.params.unitMax →
        t.seg.result = .unit ∧ t.seg.cause = .ok ∧ t.lastOk = true ∧ t.seg.held = true ∧ t.seg.unitLen = s.pktLen ∧
        t.result = s.pktLen ∧ t.seg.unitInfo = 0 ∧ t.seg.unitCount = s.seg.unitCount + 1 ∧
        ∀ i, i < s.pktLen.toNat → t.unitByte i = s.pktByte i) ∧
      (s.params.unitMax < s.pktLen.toNat →
        t.seg.result = .error ∧ t.seg.cause = .unitTooLong ∧ t.lastOk = false ∧ t.lastCause = .unitTooLong ∧
        t.seg.held = false ∧ t.seg.unitLen = 0 ∧ t.result = s.result ∧ t.seg.unitCount = s.seg.unitCount ∧
        t.unitMem = s.unitMem) ∧
      ∃ t', exec .segNext t = .next t' ∧ t'.seg.result = .needData

/-! ## SEG_NEXT: AV1 -/

/-- R222, R223, R225, R231: in low-overhead mode an OBU with a valid header and a correct size field at PKT_POS is emitted:
UNIT holds its payload, UNIT_INFO its header fields, and PKT_POS moves past it. One longer than UNIT_MAX is skipped. -/
def Obligations.ObuWithSizeIsEmitted : Prop :=
  ∀ (s : State) (ty n : Nat) (rsv : Bool) (ext : Option Byte) (payload : List Byte),
    s.cfg.valid = true → s.cfg.codec = .av1 → s.cfg.inmode = false → s.seg.active = true →
    ty < 16 → ty ∈ s.params.obuValidTypes → 1 ≤ n → n ≤ 8 → payload.length < 2 ^ (7 * n) →
    s.pktHolds s.seg.pktPos.toNat (obuHeaderBytes ty true rsv ext ++ lebBytes n payload.length ++ payload) →
    s.seg.pktPos.toNat + ((obuHeaderBytes ty true rsv ext).length + n + payload.length) ≤ s.pktLen.toNat →
    ∃ t, exec .segNext s = .next t ∧ t.seg.active = true ∧
      t.seg.pktPos =
        Word.ofNat (s.seg.pktPos.toNat + ((obuHeaderBytes ty true rsv ext).length + n + payload.length)) ∧
      (payload.length ≤ s.params.unitMax →
        t.seg.result = .unit ∧ t.seg.unitLen = Word.ofNat payload.length ∧ t.unitHolds payload ∧
        t.seg.unitInfo =
          Word.ofNat (ty + 2 ^ 4 * ext.isSome.toNat + 2 ^ 5 + 2 ^ 6 * rsv.toNat +
            2 ^ 7 * ((ext.getD 0).toNat / 32) + 2 ^ 10 * ((ext.getD 0).toNat / 8 % 4) +
            2 ^ 12 * ((ext.getD 0).toNat % 8) + 2 ^ 16 * ((obuHeaderBytes ty true rsv ext).length + n))) ∧
      (s.params.unitMax < payload.length →
        t.seg.result = .error ∧ t.seg.cause = .unitTooLong ∧ t.seg.unitLen = 0 ∧ t.unitMem = s.unitMem)

/-- R222, R226, R220, R225: in both AV1 modes an OBU without a size field takes all the bytes its bounds leave: the rest
of the packet in low-overhead mode, the rest of `obu_length` in Annex B. UNIT holds them, UNIT_INFO the header fields,
HDR_BYTES without the `obu_length` prefix; more than UNIT_MAX of them are skipped with UNIT_TOO_LONG. -/
def Obligations.ObuWithoutSizeTakesRest : Prop :=
  ∀ (s : State) (start ty : Nat) (rsv : Bool) (ext : Option Byte) (payload : List Byte),
    s.cfg.valid = true → s.cfg.codec = .av1 → s.seg.active = true →
    ty < 16 → ty ∈ s.params.obuValidTypes →
    s.obuAt start (start + ((obuHeaderBytes ty false rsv ext).length + payload.length)) →
    s.pktHolds start (obuHeaderBytes ty false rsv ext ++ payload) →
    ∃ t, exec .segNext s = .next t ∧ t.seg.active = true ∧
      t.seg.pktPos = Word.ofNat (start + ((obuHeaderBytes ty false rsv ext).length + payload.length)) ∧
      (payload.length ≤ s.params.unitMax →
        t.seg.result = .unit ∧ t.seg.unitLen = Word.ofNat payload.length ∧ t.unitHolds payload ∧
        t.seg.unitInfo =
          Word.ofNat (ty + 2 ^ 4 * ext.isSome.toNat + 2 ^ 6 * rsv.toNat +
            2 ^ 7 * ((ext.getD 0).toNat / 32) + 2 ^ 10 * ((ext.getD 0).toNat / 8 % 4) +
            2 ^ 12 * ((ext.getD 0).toNat % 8) + 2 ^ 16 * (obuHeaderBytes ty false rsv ext).length)) ∧
      (s.params.unitMax < payload.length →
        t.seg.result = .error ∧ t.seg.cause = .unitTooLong ∧ t.seg.unitLen = 0 ∧ t.unitMem = s.unitMem)

/-- R227, R226, R110: in Annex B mode `obu_length` bounds the OBU: with an `obu_size` up to the room it leaves, the
`obu_size` bytes of payload are emitted, or dropped when longer than UNIT_MAX, the excess bytes, whatever they are, are
skipped, and PKT_POS moves by the whole `obu_length`; a larger `obu_size` abandons the packet with OBU_SIZE. HDR_BYTES of
UNIT_INFO does not count `obu_length` (R220). -/
def Obligations.AnnexBObuIsEmitted : Prop :=
  ∀ (s : State) (ty nl n size : Nat) (rsv : Bool) (ext : Option Byte) (body : List Byte),
    s.cfg.valid = true → s.cfg.codec = .av1 → s.cfg.inmode = true → s.seg.active = true →
    ty < 16 → ty ∈ s.params.obuValidTypes → 1 ≤ n → n ≤ 8 → size < 2 ^ (7 * n) → size ≤ 2 ^ 32 - 1 → 1 ≤ nl → nl ≤ 8 →
    (obuHeaderBytes ty true rsv ext).length + n + body.length < 2 ^ (7 * nl) →
    s.pktHolds s.seg.pktPos.toNat
      (lebBytes nl ((obuHeaderBytes ty true rsv ext).length + n + body.length) ++
        obuHeaderBytes ty true rsv ext ++ lebBytes n size ++ body) →
    s.seg.pktPos.toNat + (nl + (obuHeaderBytes ty true rsv ext).length + n + body.length) ≤ s.pktLen.toNat →
    ∃ t, exec .segNext s = .next t ∧
      (size ≤ body.length →
        t.seg.active = true ∧
        t.seg.pktPos =
          Word.ofNat (s.seg.pktPos.toNat + (nl + (obuHeaderBytes ty true rsv ext).length + n + body.length)) ∧
        (size ≤ s.params.unitMax →
          t.seg.result = .unit ∧ t.seg.unitLen = Word.ofNat size ∧ t.unitHolds (body.take size) ∧
          t.seg.unitInfo =
            Word.ofNat (ty + 2 ^ 4 * ext.isSome.toNat + 2 ^ 5 + 2 ^ 6 * rsv.toNat +
              2 ^ 7 * ((ext.getD 0).toNat / 32) + 2 ^ 10 * ((ext.getD 0).toNat / 8 % 4) +
              2 ^ 12 * ((ext.getD 0).toNat % 8) + 2 ^ 16 * ((obuHeaderBytes ty true rsv ext).length + n))) ∧
        (s.params.unitMax < size →
          t.seg.result = .error ∧ t.seg.cause = .unitTooLong ∧ t.seg.unitLen = 0 ∧ t.unitMem = s.unitMem)) ∧
      (body.length < size → packetAbandoned s t .obuSize)

/-- R222 to R224, R226, R228 to R231: in both AV1 modes, with the packet used up, an empty one included, SEG_NEXT reports NEED_DATA
and ends the packet. Else what abandons it, the OBU standing at PKT[start .. stop): a missing header or extension byte gives
OBU_TRUNC; a header byte with bit 7 set OBU_FORBIDDEN, whatever its other bits; a type not accepted OBU_TYPE; a size field that is
cut off or above 2^32 - 1 OBU_LEB128; a size beyond stop OBU_SIZE. In Annex B so does an `obu_length` that is cut off or above
2^32 - 1 (OBU_LEB128) or that passes the packet's end (OBU_SIZE). Nothing is stored. -/
def Obligations.BadObuAbandonsPacket : Prop :=
  ∀ (s : State), s.cfg.valid = true → s.cfg.codec = .av1 → s.seg.active = true →
    (s.pktLen.toNat ≤ s.seg.pktPos.toNat →
      exec .segNext s =
        .next { s with
          rd := s.readerAfterRelease
          seg := { s.seg with
            result := .needData, cause := .ok, active := false, held := false
            unitLen := if s.seg.held then 0 else s.seg.unitLen
            unitInfo := if s.seg.held then 0 else s.seg.unitInfo }
          lastOk := true, lastCause := .ok }) ∧
    (s.seg.pktPos.toNat < s.pktLen.toNat →
      ∃ t, exec .segNext s = .next t ∧
        (∀ start stop : Nat, s.obuAt start stop →
          (start = stop → packetAbandoned s t .obuTrunc) ∧
          (start < stop → 0x80 ≤ (s.pktByte start).toNat → packetAbandoned s t .obuForbidden) ∧
          (start < stop → (s.pktByte start).toNat < 0x80 → (s.pktByte start).toNat / 8 ∉ s.params.obuValidTypes →
            packetAbandoned s t .obuType) ∧
          (start + 1 = stop → (s.pktByte start).toNat < 0x80 → (s.pktByte start).toNat / 8 ∈ s.params.obuValidTypes →
            (s.pktByte start).toNat / 4 % 2 = 1 → packetAbandoned s t .obuTrunc) ∧
          (∀ (ty : Nat) (rsv : Bool) (ext : Option Byte), ty < 16 → ty ∈ s.params.obuValidTypes →
            s.pktHolds start (obuHeaderBytes ty true rsv ext) →
            start + (obuHeaderBytes ty true rsv ext).length ≤ stop →
            (s.badLeb (start + (obuHeaderBytes ty true rsv ext).length) stop → packetAbandoned s t .obuLeb128) ∧
            (∀ n size : Nat, 1 ≤ n → n ≤ 8 → size < 2 ^ (7 * n) → size ≤ 2 ^ 32 - 1 →
              s.pktHolds (start + (obuHeaderBytes ty true rsv ext).length) (lebBytes n size) →
              start + ((obuHeaderBytes ty true rsv ext).length + n) ≤ stop →
              stop < start + ((obuHeaderBytes ty true rsv ext).length + n + size) →
              packetAbandoned s t .obuSize))) ∧
        (s.cfg.inmode = true →
          (s.badLeb s.seg.pktPos.toNat s.pktLen.toNat → packetAbandoned s t .obuLeb128) ∧
          (∀ nl len : Nat, 1 ≤ nl → nl ≤ 8 → len < 2 ^ (7 * nl) → len ≤ 2 ^ 32 - 1 →
            s.pktHolds s.seg.pktPos.toNat (lebBytes nl len) → s.seg.pktPos.toNat + nl ≤ s.pktLen.toNat →
            s.pktLen.toNat < s.seg.pktPos.toNat + (nl + len) → packetAbandoned s t .obuSize)))

/-! ## VP9 -/

/-- R241, R242, R247, R111: a packet whose end is the index built from N frame sizes gives SF_COUNT = N and those sizes.
An empty packet, a trailer that is not 110xxxxx, a packet shorter than the index its trailer announces, and a first index
byte that differs from the trailer give no index: every SF_COUNT, SF_INDEX_SIZE and SF_SIZE register 0. -/
def Obligations.SuperframeIndexRoundTrip : Prop :=
  ∀ (s : State) (eos eop disc : Bool),
    s.cfg.valid = true → s.cfg.codec = .vp9 → (s.seg.active = false ∨ disc = true) →
    s.pktLen.toNat ≤ s.params.pktMax →
    ∃ t, exec (.segPacket eos eop disc) s = .next t ∧
      (s.pktLen = 0 → noIndex t) ∧
      ((s.pktByte (s.pktLen.toNat - 1)).toNat / 2 ^ 5 ≠ 0b110 → noIndex t) ∧
      (∀ (mag : Nat) (sizes : List Nat),
        1 ≤ mag → mag ≤ 4 → 1 ≤ sizes.length → sizes.length ≤ 8 → (∀ x ∈ sizes, x < 2 ^ (8 * mag)) →
        (∀ dataLen, s.pktLen.toNat = dataLen + (2 + mag * sizes.length) →
          s.pktHolds dataLen (superframeIndex mag sizes) →
          t.seg.sfCount = Word.ofNat sizes.length ∧ t.seg.sfIndexSize = Word.ofNat (2 + mag * sizes.length) ∧
          ∀ i, (h : i < 8) → t.seg.sfSize[i] = Word.ofNat (sizes.getD i 0)) ∧
        (s.pktByte (s.pktLen.toNat - 1) = (superframeIndex mag sizes).headD 0 →
          (s.pktLen.toNat < 2 + mag * sizes.length ∨
            s.pktByte (s.pktLen.toNat - (2 + mag * sizes.length)) ≠ s.pktByte (s.pktLen.toNat - 1)) →
          noIndex t))

/-- R243: VP9 SEG_NEXT of a packet with an index emits the next listed frame, skips one longer than UNIT_MAX, abandons the
packet on a size that runs past the frame data, and reports NEED_DATA after the last frame. -/
def Obligations.SuperframeFramesAreEmittedInOrder : Prop :=
  ∀ (s : State) (sz : Nat), s.Inv → s.cfg.valid = true → s.cfg.codec = .vp9 → s.seg.active = true → s.seg.sfCount ≠ 0 →
    ∃ t, exec .segNext s = .next t ∧
      (s.seg.sfNext = s.seg.sfCount → t.seg.result = .needData ∧ t.seg.active = false ∧ t.seg.pktPos = s.pktLen) ∧
      (s.seg.sfNext ≠ s.seg.sfCount → s.seg.sfSize.toList[s.seg.sfNext.toNat]? = some (Word.ofNat sz) → sz < 2 ^ 32 →
        (s.pktLen.toNat < s.seg.sfBase.toNat + sz + s.seg.sfIndexSize.toNat → packetAbandoned s t .sfSize) ∧
        (s.seg.sfBase.toNat + sz + s.seg.sfIndexSize.toNat ≤ s.pktLen.toNat →
          t.seg.sfNext = s.seg.sfNext + 1 ∧ t.seg.sfBase = Word.ofNat (s.seg.sfBase.toNat + sz) ∧
          t.seg.pktPos = Word.ofNat (s.seg.sfBase.toNat + sz) ∧ t.seg.active = true ∧
          (sz ≤ s.params.unitMax →
            t.seg.result = .unit ∧ t.seg.unitLen = Word.ofNat sz ∧
            t.seg.unitInfo = Word.ofNat (s.seg.sfNext.toNat + 16) ∧
            ∀ i, i < sz → t.unitByte i = s.pktByte (s.seg.sfBase.toNat + i)) ∧
          (s.params.unitMax < sz → t.seg.result = .error ∧ t.seg.cause = .unitTooLong ∧ t.seg.unitLen = 0)))

/-! ## All commands -/

/-- R32, R34, R33: ARG0 to ARG2 and PKT_LEN are written by no command but SRESET, CONFIG by none but CONFIG and SRESET. -/
def Obligations.CommandsKeepHostRegisters : Prop :=
  ∀ (s t : State) (i : Instr), i ≠ .sreset → exec i s = .next t →
    t.arg0 = s.arg0 ∧ t.arg1 = s.arg1 ∧ t.arg2 = s.arg2 ∧ t.pktLen = s.pktLen ∧ t.cmd = s.cmd ∧
    t.params = s.params ∧ t.pending = s.pending ∧ t.busData = s.busData ∧
    ((∀ c m, i ≠ .config c m) → t.cfg = s.cfg)

/-- R301, R24: NOP, CONFIG, SEG_PACKET, a SEG_NEXT that produces no unit, and every command that fails leave RESULT
unchanged. -/
def Obligations.ResultIsWrittenBySuccessOnly : Prop :=
  ∀ (s t : State) (i : Instr), exec i s = .next t →
    (t.lastOk = false → t.result = s.result) ∧
    (i = .nop ∨ (∃ c m, i = .config c m) ∨ (∃ a b c, i = .segPacket a b c) → t.result = s.result) ∧
    (i = .segNext → t.seg.result ≠ .unit → t.result = s.result)

/-- R215: every command keeps the segmenter's invariants, the one on PKT_POS while the host keeps PKT_LEN. -/
def Obligations.CommandsKeepSegmenterInvariants : Prop :=
  ∀ (s t : State) (i : Instr), s.Inv → exec i s = .next t →
    t.seg.unitLen.toNat ≤ t.params.unitMax ∧
    (s.pktPosInside → t.pktPosInside) ∧
    (t.rd.unitValid = true → t.rd.src = .unit → t.seg.held = true) ∧
    (t.seg.held = false → t.seg.unitInfo = 0) ∧
    (t.byteStream = true → t.seg.inUnit = false → t.seg.held = false → t.seg.unitLen = 0) ∧
    (t.byteStream = false → t.seg.held = false → t.seg.unitLen = 0)

/-! ## Invariants -/

/-- The model's invariant (R25 to R46, R211, R215, R221, R246) is kept by every step, from every state that has it. -/
def Obligations.StepKeepsInvariant : Prop :=
  ∀ s t : State, s.Inv → step s = .next t → t.Inv

/-- Power-on reset has the invariant, for every parameter choice in range. -/
def Obligations.ResetHasInvariant : Prop :=
  ∀ p : Params, p.wf = true → (State.resetWith p).Inv
end

