-- ==== Sys2Proof/Laws/Bits.lean ====
section
/-! SUPPORT. Laws of the bits of a payload (spec/00_scope.md R13) and of Take (spec/41_fixed_width.md R142): what a run of bits
is worth, and what a read gives where a codeword stands. -/

namespace Sys2Proof.Machine

/-! ## Runs of bits -/

theorem bitsAt_lt (P : List Byte) (q n : Nat) : bitsAt P q n < 2 ^ n := by
  induction n with
  | zero => simp [bitsAt]
  | succ n ih =>
    have : (bitAt P (q + n)).toNat ≤ 1 := Bool.toNat_le _
    simp only [bitsAt, pow_succ]
    omega

/-- The first m bits are the more significant ones. -/
theorem bitsAt_add (P : List Byte) (q m n : Nat) : bitsAt P q (m + n) = bitsAt P q m * 2 ^ n + bitsAt P (q + m) n := by
  induction n with
  | zero => simp [bitsAt]
  | succ n ih =>
    rw [← Nat.add_assoc]
    simp only [bitsAt, ih, pow_succ, Nat.add_assoc]
    ring

theorem bitsAt_one (P : List Byte) (q : Nat) : bitsAt P q 1 = (bitAt P q).toNat := by simp [bitsAt]

/-- The first bit read is the most significant bit of the result (R13). -/
theorem testBit_bitsAt (P : List Byte) (q n i : Nat) (h : i < n) :
    (bitsAt P q n).testBit (n - 1 - i) = bitAt P (q + i) := by
  induction n with
  | zero => omega
  | succ n ih =>
    simp only [bitsAt]
    by_cases hi : i = n
    · subst hi
      rw [show i + 1 - 1 - i = 0 by omega, Nat.testBit_zero]
      cases bitAt P (q + i) <;> simp
    · rw [show n + 1 - 1 - i = (n - 1 - i) + 1 by omega, Nat.testBit_succ]
      rw [show (2 * bitsAt P q n + (bitAt P (q + n)).toNat) / 2 = bitsAt P q n by
        have := Bool.toNat_le (bitAt P (q + n)); omega]
      exact ih (by omega)

theorem bitsAt_eq_zero_iff (P : List Byte) (q n : Nat) :
    bitsAt P q n = 0 ↔ ∀ i, i < n → bitAt P (q + i) = false := by
  induction n with
  | zero => simp [bitsAt]
  | succ n ih =>
    simp only [bitsAt]
    constructor
    · intro h i hi
      by_cases hn : i = n
      · subst hn
        cases hb : bitAt P (q + i)
        · rfl
        · rw [hb] at h; simp at h
      · exact ih.mp (by omega) i (by omega)
    · intro h
      rw [ih.mpr (fun i hi => h i (by omega)), h n (by omega)]
      rfl

/-! ## Take -/

theorem take_fits (P : List Byte) (n q : Nat) (h : q + n ≤ 8 * P.length) : take P n q = .got (bitsAt P q n) (q + n) := by
  rw [take, if_neg (by omega)]

theorem take_overruns (P : List Byte) (n q : Nat) (h : 8 * P.length < q + n) : take P n q = .failed .overrun := by
  rw [take, if_pos (by omega)]

/-- All that Take can do. -/
theorem take_cases (P : List Byte) (n q : Nat) :
    (q + n ≤ 8 * P.length ∧ take P n q = .got (bitsAt P q n) (q + n)) ∨
      (8 * P.length < q + n ∧ take P n q = .failed .overrun) := by
  by_cases h : q + n ≤ 8 * P.length
  · exact .inl ⟨h, take_fits P n q h⟩
  · exact .inr ⟨by omega, take_overruns P n q (by omega)⟩

theorem ReadOutcome.andThen_got {α β : Type} (v : α) (q : Nat) (f : α → Nat → ReadOutcome β) :
    (ReadOutcome.got v q).andThen f = f v q := rfl

theorem ReadOutcome.andThen_failed {α β : Type} (c : Cause) (f : α → Nat → ReadOutcome β) :
    (ReadOutcome.failed c : ReadOutcome α).andThen f = .failed c := rfl

/-! ## Codewords in the payload -/

theorem natBits_length (n v : Nat) : (natBits n v).length = n := by
  induction n with
  | zero => rfl
  | succ n ih => simp [natBits, ih]

theorem bitsAre_append (P : List Byte) (q : Nat) (a b : List Bool) :
    bitsAre P q (a ++ b) ↔ bitsAre P q a ∧ bitsAre P (q + a.length) b := by
  unfold bitsAre
  simp only [List.length_append]
  constructor
  · rintro ⟨h1, h2⟩
    refine ⟨⟨by omega, fun i hi => ?_⟩, by omega, fun i hi => ?_⟩
    · rw [h2 i (by omega), List.getElem_append_left]
    · rw [Nat.add_assoc, h2 (a.length + i) (by omega), List.getElem_append_right (by omega)]
      congr 1; omega
  · rintro ⟨⟨h1, h2⟩, h3, h4⟩
    refine ⟨by omega, fun i hi => ?_⟩
    by_cases h : i < a.length
    · rw [h2 i h, List.getElem_append_left]
    · rw [List.getElem_append_right (by omega), ← h4 (i - a.length) (by omega)]
      congr 1; omega

theorem bitsAre_cons (P : List Byte) (q : Nat) (b : Bool) (bs : List Bool) :
    bitsAre P q (b :: bs) ↔ q + 1 ≤ 8 * P.length ∧ bitAt P q = b ∧ bitsAre P (q + 1) bs := by
  rw [show b :: bs = [b] ++ bs from rfl, bitsAre_append]
  constructor
  · rintro ⟨⟨h1, h2⟩, h3⟩
    exact ⟨h1, h2 0 (by simp), h3⟩
  · rintro ⟨h1, h2, h3⟩
    refine ⟨⟨h1, fun i hi => ?_⟩, h3⟩
    have : i = 0 := by simpa using hi
    subst this
    simpa using h2

theorem bitsAre_length_le (P : List Byte) (q : Nat) (bs : List Bool) (h : bitsAre P q bs) :
    q + bs.length ≤ 8 * P.length := h.1

/-- Where the n low bits of v stand, the run is worth `v mod 2^n`. -/
theorem bitsAt_natBits (P : List Byte) (q n v : Nat) (h : bitsAre P q (natBits n v)) : bitsAt P q n = v % 2 ^ n := by
  induction n generalizing q with
  | zero => simp [bitsAt, Nat.mod_one]
  | succ n ih =>
    rw [natBits, bitsAre_cons] at h
    rw [Nat.add_comm, bitsAt_add, bitsAt_one, h.2.1, ih (q + 1) h.2.2, Nat.add_comm 1 n]
    have h1 : v % 2 ^ (n + 1) = v % 2 ^ n + 2 ^ n * (v / 2 ^ n % 2) := by rw [pow_succ, Nat.mod_mul]
    rw [h1, Nat.testBit_eq_decide_div_mod_eq]
    rcases Nat.mod_two_eq_zero_or_one (v / 2 ^ n) with h2 | h2 <;> simp [h2]; omega

/-- Taking n bits where the n low bits of v stand gives `v mod 2^n`. -/
theorem take_natBits (P : List Byte) (q n v : Nat) (h : bitsAre P q (natBits n v)) :
    take P n q = .got (v % 2 ^ n) (q + n) := by
  have := h.1
  rw [natBits_length] at this
  rw [take_fits P n q this, bitsAt_natBits P q n v h]

/-- Each 0 bit adds one to the prefix's count. -/
theorem zeroPrefix_zeros (P : List Byte) (c : Cause) (k limit L q : Nat)
    (h : bitsAre P q (List.replicate k false)) :
    zeroPrefix P c (k + limit) L q = zeroPrefix P c limit (L + k) (q + k) := by
  induction k generalizing L q with
  | zero => simp
  | succ k ih =>
    rw [List.replicate_succ, bitsAre_cons] at h
    rw [show k + 1 + limit = (k + limit) + 1 by omega, zeroPrefix, take_fits P 1 q h.1, ReadOutcome.andThen_got, bitsAt_one,
      h.2.1]
    simp only [Bool.toNat_false, zero_ne_one, if_false]
    rw [ih (L + 1) (q + 1) h.2.2, Nat.add_assoc L, Nat.add_assoc q, Nat.add_comm 1 k]

/-- The first 1 bit ends the prefix and is consumed with it. -/
theorem zeroPrefix_one (P : List Byte) (c : Cause) (limit L q : Nat) (h : q + 1 ≤ 8 * P.length)
    (hb : bitAt P q = true) : zeroPrefix P c (limit + 1) L q = .got L (q + 1) := by
  rw [zeroPrefix, take_fits P 1 q h, ReadOutcome.andThen_got, bitsAt_one, hb]
  rfl

/-- A prefix of k zeros and a 1 counts k, when the limit allows it. -/
theorem zeroPrefix_codeword (P : List Byte) (c : Cause) (k limit q : Nat) (hk : k < limit)
    (h : bitsAre P q (List.replicate k false ++ [true])) : zeroPrefix P c limit 0 q = .got k (q + (k + 1)) := by
  rw [bitsAre_append, bitsAre_cons] at h
  simp only [List.length_replicate] at h
  obtain ⟨r, rfl⟩ : ∃ r, limit = k + (r + 1) := ⟨limit - k - 1, by omega⟩
  rw [zeroPrefix_zeros P c k (r + 1) 0 q h.1, zeroPrefix_one P c r _ _ h.2.1 h.2.2.1]
  simp [Nat.add_assoc]

end Sys2Proof.Machine
end

