-- ==== Sys2Proof/Laws/Codes.lean ====
section
/-! SUPPORT. Laws of the codes written in whole bytes (spec/30_encoding.md R108, R112): a byte of a codeword in the payload,
LEB128 values and little-endian numbers from any source of bytes. -/

namespace Sys2Proof.Machine

theorem bytesBits_length (bs : List Byte) : (bytesBits bs).length = 8 * bs.length := by
  induction bs with
  | nil => rfl
  | cons b bs ih => simp only [bytesBits, List.length_append, natBits_length, ih, List.length_cons]; omega

/-- Where bytes stand as bits, from any bit position, each 8-bit group is its byte. -/
theorem take_bytesBits (P : List Byte) (q : Nat) (bs : List Byte) (h : bitsAre P q (bytesBits bs)) (i : Nat)
    (hi : i < bs.length) : take P 8 (q + 8 * i) = .got bs[i].toNat (q + 8 * i + 8) := by
  induction bs generalizing q i with
  | nil => simp at hi
  | cons b bs ih =>
    rw [bytesBits, bitsAre_append, natBits_length] at h
    cases i with
    | zero =>
      have := take_natBits P q 8 b.toNat h.1
      rw [Nat.mod_eq_of_lt b.isLt] at this
      simpa using this
    | succ i =>
      have := ih (q + 8) h.2 i (by simpa using hi)
      rw [show q + 8 * (i + 1) = q + 8 + 8 * i by omega]
      simpa using this

theorem payloadGroup_bytesBits (P : List Byte) (q : Nat) (bs : List Byte) (h : bitsAre P q (bytesBits bs)) (i : Nat)
    (hi : i < bs.length) : payloadGroup P q i = some bs[i] := by
  unfold payloadGroup
  rw [take_bytesBits P q bs h i hi]
  simp

theorem lebBytes_length (n v : Nat) : (lebBytes n v).length = n := by
  induction n using Nat.strong_induction_on generalizing v with
  | h n ih =>
    match n with
    | 0 => rfl
    | 1 => rfl
    | n + 2 => simp only [lebBytes, List.length_cons, ih (n + 1) (by omega)]

/-- A LEB128 form of v is read as v, redundant bytes included, and its bytes are counted. -/
theorem lebLoop_lebBytes (byteAt : Nat → Option Byte) (n v left i w : Nat) (hn : 1 ≤ n) (hl : n ≤ left)
    (hv : v < 2 ^ (7 * n)) (h : ∀ k, (hk : k < (lebBytes n v).length) → byteAt (i + k) = some (lebBytes n v)[k]) :
    lebLoop byteAt left i w = some (w + v * 2 ^ (7 * i), i + n) := by
  induction n using Nat.strong_induction_on generalizing v left i w with
  | h n ih =>
    obtain ⟨left, rfl⟩ : ∃ l, left = l + 1 := ⟨left - 1, by omega⟩
    match n with
    | 0 => omega
    | 1 =>
      have h0 := h 0 (by simp [lebBytes])
      simp only [Nat.add_zero, lebBytes, List.getElem_cons_zero] at h0
      have hv' : v < 128 := by simpa using hv
      have ht : (BitVec.ofNat 8 (v % 128)).toNat = v := by simp; omega
      simp only [lebLoop, h0, ht]
      rw [if_pos hv', Nat.mod_eq_of_lt hv']
    | n + 2 =>
      have h0 := h 0 (by simp [lebBytes])
      simp only [Nat.add_zero, lebBytes, List.getElem_cons_zero] at h0
      have ht : (BitVec.ofNat 8 (v % 128 + 128)).toNat = v % 128 + 128 := by simp; omega
      simp only [lebLoop, h0, ht]
      rw [if_neg (by omega)]
      have hv' : v / 128 < 2 ^ (7 * (n + 1)) := by
        rw [Nat.div_lt_iff_lt_mul (by norm_num), show (128 : Nat) = 2 ^ 7 from rfl, ← pow_add]
        simpa [Nat.mul_add, Nat.add_assoc] using hv
      rw [ih (n + 1) (by omega) (v / 128) left (i + 1) _ (by omega) (by omega) hv']
      · have h2 : (2 : Nat) ^ (7 * (i + 1)) = 128 * 2 ^ (7 * i) := by rw [Nat.mul_add, pow_add]; norm_num; ring
        have h3 : (v % 128 + 128) % 128 = v % 128 := by omega
        have h4 : v = v % 128 + 128 * (v / 128) := (Nat.mod_add_div v 128).symm
        rw [h2, h3]
        congr 2
        · conv_rhs => rw [h4]
          ring
        · omega
      · intro k hk
        have := h (k + 1) (by simpa [lebBytes] using hk)
        rw [show i + 1 + k = i + (k + 1) by omega, this]
        simp [lebBytes]

/-- Concatenation puts the left operand in the more significant bits (spec/00_scope.md R12), as a sum. -/
theorem toNat_append_add {m n : Nat} (x : BitVec m) (y : BitVec n) : (x ++ y).toNat = x.toNat * 2 ^ n + y.toNat := by
  rw [BitVec.toNat_append, ← Nat.shiftLeft_add_eq_or_of_lt y.isLt, Nat.shiftLeft_eq]

theorem leBytes_length (n v : Nat) : (leBytes n v).length = n := by
  induction n generalizing v with
  | zero => rfl
  | succ n ih => simp [leBytes, ih]

/-- LE of the little-endian bytes of v gives v. -/
theorem readLe_leBytes (P : List Byte) (n i t q v : Nat) (hv : v < 2 ^ (8 * n))
    (h : bitsAre P q (bytesBits (leBytes n v))) : readLe P n i t q = .got (t + v * 2 ^ (8 * i)) (q + 8 * n) := by
  induction n generalizing i t q v with
  | zero =>
    have : v = 0 := by simpa using hv
    subst this
    simp [readLe]
  | succ n ih =>
    rw [leBytes, bytesBits, bitsAre_append, natBits_length] at h
    have h0 := take_natBits P q 8 _ h.1
    have hb : (BitVec.ofNat 8 v).toNat % 2 ^ 8 = v % 256 := by simp
    rw [hb] at h0
    have hv' : v / 256 < 2 ^ (8 * n) := by
      rw [Nat.div_lt_iff_lt_mul (by norm_num), show (256 : Nat) = 2 ^ 8 from rfl, ← pow_add]
      simpa [Nat.mul_add] using hv
    rw [readLe, h0, ReadOutcome.andThen_got, ih (i + 1) _ (q + 8) (v / 256) hv' h.2]
    have h2 : (2 : Nat) ^ (8 * (i + 1)) = 256 * 2 ^ (8 * i) := by rw [Nat.mul_add, pow_add]; norm_num; ring
    have h4 : v = v % 256 + 256 * (v / 256) := (Nat.mod_add_div v 256).symm
    rw [h2]
    congr 1
    · conv_rhs => rw [h4]
      ring
    · omega

/-- The j-th little-endian byte of v. -/
theorem leBytes_getElem (n v j : Nat) (h : j < (leBytes n v).length) :
    (leBytes n v)[j].toNat = v / 2 ^ (8 * j) % 256 := by
  induction n generalizing v j with
  | zero => simp [leBytes] at h
  | succ n ih =>
    cases j with
    | zero => simp [leBytes]
    | succ j =>
      simp only [leBytes, List.getElem_cons_succ]
      rw [ih, Nat.div_div_eq_div_mul, Nat.mul_add, pow_add, Nat.mul_comm]
      rfl

end Sys2Proof.Machine
end

