-- ==== Sys2Proof/Laws/Filter.lean ====
section
/-! SUPPORT. Laws of the emulation-prevention filter (spec/20_memory.md R62) and of the payload it binds. -/

namespace Sys2Proof.Machine

/-- Every payload byte is a raw byte, at the offset its map entry gives. -/
theorem epbFilter_mem (en : Bool) (raw : List Byte) (i z : Nat) (c : Host.Cell) (h : c ∈ epbFilter en raw i z) :
    i ≤ c.1 ∧ c.1 < i + raw.length ∧ raw[c.1 - i]? = some c.2 := by
  induction raw generalizing i z with
  | nil => simp [epbFilter] at h
  | cons b raw ih =>
    have step : ∀ z', c ∈ epbFilter en raw (i + 1) z' →
        i ≤ c.1 ∧ c.1 < i + (b :: raw).length ∧ (b :: raw)[c.1 - i]? = some c.2 := by
      intro z' h'
      have := ih _ _ h'
      refine ⟨by omega, by simp only [List.length_cons]; omega, ?_⟩
      rw [show c.1 - i = (c.1 - (i + 1)) + 1 by omega]
      simpa using this.2.2
    simp only [epbFilter] at h
    split at h
    · exact step _ h
    · rcases List.mem_cons.mp h with rfl | h
      · simp
      · exact step _ h

/-- The map rises. -/
theorem epbFilter_rises (en : Bool) (raw : List Byte) (i z : Nat) :
    (epbFilter en raw i z).Pairwise (fun c d => c.1 < d.1) := by
  induction raw generalizing i z with
  | nil => simp [epbFilter]
  | cons b raw ih =>
    simp only [epbFilter]
    split
    · exact ih _ _
    · refine List.Pairwise.cons (fun d hd => ?_) (ih _ _)
      have := (epbFilter_mem _ _ _ _ _ hd).1
      simp only; omega

/-- A rising list of offsets: the k-th is at least k above the lowest possible one. -/
theorem rising_index_le (l : List Nat) (lo k o : Nat) (h : l.Pairwise (· < ·)) (hlo : ∀ x ∈ l, lo ≤ x)
    (hk : l[k]? = some o) : lo + k ≤ o := by
  induction l generalizing lo k with
  | nil => simp at hk
  | cons x l ih =>
    cases k with
    | zero =>
      have : x = o := by simpa using hk
      simpa [this] using hlo x (by simp)
    | succ k =>
      rw [List.pairwise_cons] at h
      have := ih (lo + 1) k h.2 (fun y hy => by have := h.1 y hy; have := hlo x (by simp); omega) (by simpa using hk)
      omega

/-- A rising list of offsets below n has at most n of them. -/
theorem rising_length_le (l : List Nat) (n : Nat) (h : l.Pairwise (· < ·)) (hn : ∀ x ∈ l, x < n) : l.length ≤ n := by
  by_contra hc
  have hlt : n < l.length := by omega
  have h1 := rising_index_le l 0 n l[n] h (fun x _ => Nat.zero_le x) (by simp [hlt])
  have h2 := hn l[n] (List.getElem_mem hlt)
  omega

/-- The filter never adds a byte. -/
theorem epbFilter_length_le (en : Bool) (raw : List Byte) (i z : Nat) :
    (epbFilter en raw i z).length ≤ raw.length := by
  induction raw generalizing i z with
  | nil => simp [epbFilter]
  | cons b raw ih =>
    simp only [epbFilter]
    split
    · exact le_trans (ih _ _) (by simp)
    · simpa using ih _ _

/-- The payload bytes do not depend on where the raw offsets start. -/
theorem epbFilter_bytes (en : Bool) (raw : List Byte) (i j z : Nat) :
    (epbFilter en raw i z).map Prod.snd = (epbFilter en raw j z).map Prod.snd := by
  induction raw generalizing i j z with
  | nil => rfl
  | cons b raw ih =>
    simp only [epbFilter]
    split
    · exact ih _ _ _
    · simp only [List.map_cons]; rw [ih]

/-- With removal off the payload is the raw bytes. -/
theorem epbFilter_off (raw : List Byte) (i z : Nat) : (epbFilter false raw i z).map Prod.snd = raw := by
  induction raw generalizing i z with
  | nil => rfl
  | cons b raw ih => simp [epbFilter, ih]

/-- The filter's count of zeros after some raw bytes. -/
def epbZeros (en : Bool) : (raw : List Byte) → (z : Nat) → Nat
  | [], z => z
  | b :: raw, z =>
    if en && decide (2 ≤ z) && b == 0x03 then epbZeros en raw 0
    else epbZeros en raw (if b = 0x00 then z + 1 else 0)

/-- The filter works through the raw bytes in order. -/
theorem epbFilter_append (en : Bool) (a b : List Byte) (i z : Nat) :
    epbFilter en (a ++ b) i z = epbFilter en a i z ++ epbFilter en b (i + a.length) (epbZeros en a z) := by
  induction a generalizing i z with
  | nil => rfl
  | cons c a ih =>
    simp only [List.cons_append, epbFilter, epbZeros, List.length_cons]
    split
    · rw [ih, show i + 1 + a.length = i + (a.length + 1) by omega]
    · rw [ih, List.cons_append, show i + 1 + a.length = i + (a.length + 1) by omega]

/-- What binding leaves in the reader: all of it. -/
theorem State.bind_rd (s : State) (src : UnitSource) (base len : Word) (epb : Bool) :
    (s.bind src base len epb).rd =
      { unitValid := true, epbEn := epb, src := src, err := false, errCause := .ok, pos := 0, errPos := 0,
        base := base, rawLen := len, payload := epbFilter epb (s.rawBytes src base.toNat len.toNat) 0 0 } := rfl

theorem State.rawBytes_length (s : State) (src : UnitSource) (base len : Nat) :
    (s.rawBytes src base len).length = len := by
  cases src <;> simp [State.rawBytes, State.unitBytes, State.pktBytes]

end Sys2Proof.Machine
end

