-- ==== Sys2Proof/Laws/Memory.lean ====
section
/-! SUPPORT. Laws of the byte memories: what a read gives after a write, that every write keeps the canonical form and the
memory's bounds, and what the operations over them leave alone. -/

namespace Sys2Proof.Machine

/-! ## One byte -/

/-- Every index listed lies below `n`. -/
def Memory.below (n : Nat) (m : Memory) : Prop := ∀ c ∈ m, c.1 < n

theorem Memory.wf_nil : Memory.wf [] = true := rfl

theorem Memory.below_nil (n : Nat) : Memory.below n [] := by simp [Memory.below]

theorem Memory.read?_write (m : Memory) (a i : Nat) (b : Byte) :
    Memory.read? (Memory.write m a b) i = if i = a then some b else Memory.read? m i := by
  induction m with
  | nil => simp [Memory.write, Memory.read?, eq_comm]
  | cons c m ih =>
    simp only [Memory.write]
    split
    · simp [Memory.read?, eq_comm]
    · split
      · subst a
        simp only [Memory.read?]
        split <;> simp_all [eq_comm]
      · simp only [Memory.read?, ih]
        split <;> split <;> simp_all

/-- Read after write, at the same index. -/
theorem Memory.read?_write_same (m : Memory) (a : Nat) (b : Byte) : Memory.read? (Memory.write m a b) a = some b := by
  simp [Memory.read?_write]

/-- A write leaves every other index alone. -/
theorem Memory.read?_write_other (m : Memory) (a i : Nat) (b : Byte) (h : i ≠ a) :
    Memory.read? (Memory.write m a b) i = Memory.read? m i := by
  simp [Memory.read?_write, h]

theorem Memory.mem_write (m : Memory) (a : Nat) (b : Byte) (c : Host.Cell) (h : c ∈ Memory.write m a b) :
    c = (a, b) ∨ c ∈ m := by
  induction m with
  | nil => simp_all [Memory.write]
  | cons d m ih =>
    simp only [Memory.write] at h
    split at h
    · simp_all
    · split at h
      · simp at h ⊢; tauto
      · simp at h ⊢; tauto

/-- A write keeps the canonical form. -/
theorem Memory.wf_write (m : Memory) (a : Nat) (b : Byte) (h : Memory.wf m = true) :
    Memory.wf (Memory.write m a b) = true := by
  induction m with
  | nil => rfl
  | cons c m ih =>
    simp only [Memory.wf, Bool.and_eq_true, List.all_eq_true, decide_eq_true_eq] at h
    simp only [Memory.write]
    split
    · rename_i ha
      simp only [Memory.wf, Bool.and_eq_true, List.all_eq_true, decide_eq_true_eq, List.mem_cons]
      refine ⟨?_, h⟩
      rintro d (rfl | hd)
      · exact ha
      · exact lt_trans ha (h.1 d hd)
    · split
      · rename_i ha
        simp only [Memory.wf, Bool.and_eq_true, List.all_eq_true, decide_eq_true_eq]
        exact ⟨fun d hd => ha ▸ h.1 d hd, h.2⟩
      · simp only [Memory.wf, Bool.and_eq_true, List.all_eq_true, decide_eq_true_eq]
        refine ⟨fun d hd => ?_, ih h.2⟩
        rcases Memory.mem_write m a b d hd with rfl | hd
        · simp only; omega
        · exact h.1 d hd

theorem Memory.below_write (n : Nat) (m : Memory) (a : Nat) (b : Byte) (ha : a < n) (h : Memory.below n m) :
    Memory.below n (Memory.write m a b) := by
  intro c hc
  rcases Memory.mem_write m a b c hc with rfl | hc
  · exact ha
  · exact h c hc

/-! ## A run of bytes -/

theorem Memory.read?_writeBytes (bs : List Byte) (m : Memory) (a i : Nat) :
    Memory.read? (Memory.writeBytes m a bs) i =
      if a ≤ i then (bs[i - a]?).or (Memory.read? m i) else Memory.read? m i := by
  induction bs generalizing m a with
  | nil => simp [Memory.writeBytes]
  | cons b bs ih =>
    simp only [Memory.writeBytes, ih, Memory.read?_write]
    by_cases h1 : a + 1 ≤ i
    · have h2 : i - a = (i - (a + 1)) + 1 := by omega
      rw [if_pos h1, if_neg (by omega), if_pos (by omega), h2]
      simp
    · rw [if_neg h1]
      by_cases h2 : i = a
      · subst h2; simp
      · rw [if_neg h2, if_neg (by omega)]

/-- The bytes written are read back. -/
theorem Memory.read?_writeBytes_inside (bs : List Byte) (m : Memory) (a i : Nat) (h : i < bs.length) :
    Memory.read? (Memory.writeBytes m a bs) (a + i) = some bs[i] := by
  simp [Memory.read?_writeBytes, h]

/-- Every byte outside the run is left alone. -/
theorem Memory.read?_writeBytes_outside (bs : List Byte) (m : Memory) (a i : Nat) (h : i < a ∨ a + bs.length ≤ i) :
    Memory.read? (Memory.writeBytes m a bs) i = Memory.read? m i := by
  rw [Memory.read?_writeBytes]
  split
  · rw [List.getElem?_eq_none (by omega)]; rfl
  · rfl

/-- Writing a run keeps the canonical form. -/
theorem Memory.wf_writeBytes (bs : List Byte) (m : Memory) (a : Nat) (h : Memory.wf m = true) :
    Memory.wf (Memory.writeBytes m a bs) = true := by
  induction bs generalizing m a with
  | nil => exact h
  | cons b bs ih => exact ih _ _ (Memory.wf_write m a b h)

theorem Memory.below_writeBytes (n : Nat) (bs : List Byte) (m : Memory) (a : Nat) (ha : a + bs.length ≤ n)
    (h : Memory.below n m) : Memory.below n (Memory.writeBytes m a bs) := by
  induction bs generalizing m a with
  | nil => exact h
  | cons b bs ih =>
    simp only [List.length_cons] at ha
    exact ih _ _ (by omega) (Memory.below_write n m a b (by omega) h)

/-! ## The two memories of the machine -/

theorem Memory.byte_write (base : Nat) (m : Memory) (a i : Nat) (b : Byte) :
    Memory.byte base (Memory.write m a b) i = if i = a then b else Memory.byte base m i := by
  simp only [Memory.byte, Memory.read?_write]
  split <;> simp

theorem Memory.byte_writeBytes (base : Nat) (bs : List Byte) (m : Memory) (a i : Nat) :
    Memory.byte base (Memory.writeBytes m a bs) i =
      if a ≤ i then bs.getD (i - a) (Memory.byte base m i) else Memory.byte base m i := by
  simp only [Memory.byte, Memory.read?_writeBytes]
  split
  · rw [List.getD_eq_getElem?_getD]
    cases bs[i - a]? <;> simp
  · rfl

/-- The reset state's memories are in canonical form, for all parameters. -/
theorem State.resetWith_memories_wf (p : Params) :
    Memory.wf (State.resetWith p).pktMem = true ∧ Memory.wf (State.resetWith p).unitMem = true := ⟨rfl, rfl⟩

/-- The reset state's memories are in canonical form. -/
theorem State.reset_memories_wf : Memory.wf State.reset.pktMem = true ∧ Memory.wf State.reset.unitMem = true :=
  State.resetWith_memories_wf _

theorem State.pktBytes_length (s : State) (start n : Nat) : (s.pktBytes start n).length = n := by
  simp [State.pktBytes]

theorem State.unitBytes_length (s : State) (n : Nat) : (s.unitBytes n).length = n := by
  simp [State.unitBytes]

theorem State.pktBytes_getElem? (s : State) (start n i : Nat) :
    (s.pktBytes start n)[i]? = if i < n then some (s.pktByte (start + i)) else none := by
  simp only [State.pktBytes, List.getElem?_map]
  by_cases h : i < n
  · rw [List.getElem?_range h, if_pos h]; rfl
  · rw [List.getElem?_eq_none (by simpa using h), if_neg h]; rfl

/-- The engine sees the packet through PKT_MEM and PKT_MAX alone. -/
theorem State.pktByte_congr (s t : State) (hm : t.pktMem = s.pktMem) (hp : t.params = s.params) (i : Nat) :
    t.pktByte i = s.pktByte i := by
  simp [State.pktByte, hm, hp]

/-- The engine sees units through UNIT_MEM and UNIT_MAX alone. -/
theorem State.unitByte_congr (s t : State) (hm : t.unitMem = s.unitMem) (hp : t.params = s.params) (i : Nat) :
    t.unitByte i = s.unitByte i := by
  simp [State.unitByte, hm, hp]

/-- A byte at or above UNIT_MAX reads 0 in every state. -/
theorem State.unitByte_above (s : State) (i : Nat) (h : s.params.unitMax ≤ i) : s.unitByte i = 0 := by
  simp [State.unitByte, Nat.not_lt.mpr h]

/-- A byte at or above PKT_MAX reads 0 in every state (spec/70_reset_and_hazards.md R302). -/
theorem State.pktByte_above (s : State) (i : Nat) (h : s.params.pktMax ≤ i) : s.pktByte i = 0 := by
  simp [State.pktByte, Nat.not_lt.mpr h]

/-! ## Host writes -/

theorem State.busWriteByte_eq (s : State) (a : Nat) (b : Byte) :
    s.busWriteByte a b = { s with pktMem := (s.busWriteByte a b).pktMem } := by
  unfold State.busWriteByte; split <;> rfl

/-- A host write outside the registers changes PKT_MEM only. -/
theorem State.busWriteLe_eq (s : State) (a : Nat) (v : Word) (n : Nat) :
    s.busWriteLe a v n = { s with pktMem := (s.busWriteLe a v n).pktMem } := by
  induction n with
  | zero => rfl
  | succ n ih =>
    rw [State.busWriteLe, State.busWriteByte_eq, ih]

theorem State.busWriteByte_wf (s : State) (a : Nat) (b : Byte) (h : Memory.wf s.pktMem = true) :
    Memory.wf (s.busWriteByte a b).pktMem = true := by
  unfold State.busWriteByte
  split
  · exact Memory.wf_write _ _ _ h
  · exact h

theorem State.busWriteByte_below (s : State) (a : Nat) (b : Byte) (h : Memory.below s.params.pktMax s.pktMem) :
    Memory.below s.params.pktMax (s.busWriteByte a b).pktMem := by
  unfold State.busWriteByte
  split
  · exact Memory.below_write _ _ _ _ (by omega) h
  · exact h

/-- A host write keeps PKT_MEM's canonical form and bounds. -/
theorem State.busWriteLe_keeps (s : State) (a : Nat) (v : Word) (n : Nat)
    (h : Memory.wf s.pktMem = true ∧ Memory.below s.params.pktMax s.pktMem) :
    Memory.wf (s.busWriteLe a v n).pktMem = true ∧ Memory.below s.params.pktMax (s.busWriteLe a v n).pktMem := by
  induction n with
  | zero => exact h
  | succ n ih =>
    have hp : (s.busWriteLe a v n).params = s.params := by rw [State.busWriteLe_eq]
    refine ⟨State.busWriteByte_wf _ _ _ ih.1, ?_⟩
    have := State.busWriteByte_below (s.busWriteLe a v n) (a + n) (v.extractLsb' (8 * n) 8)
    rw [hp] at this
    exact this ih.2

end Sys2Proof.Machine
end

