-- ==== Sys2Proof/Laws/HostPort.lean ====
section
/-! SUPPORT. Laws of the host's bus accesses: what a host write can change, which address is the command port, and what one
byte written does to every byte read. -/

namespace Sys2Proof.Machine

/-- Only the write of a word at address 0 issues a command. -/
theorem eq_commandAccess (a : Word) (w : AccessWidth) (v : Word) (h : isCommandWrite a.toNat w = true) :
    HostAccess.write a w v = commandAccess v := by
  simp only [isCommandWrite, Reg.offset, Bool.and_eq_true, beq_iff_eq] at h
  have : a = 0 := BitVec.eq_of_toNat_eq (by simpa using h.1)
  simp [commandAccess, this, h.2, Reg.offset]

/-- A command access runs its word. -/
theorem perform_commandAccess (w : Word) (s : State) : perform (commandAccess w) s = issue w s := rfl

/-- All a host write can change when it issues no command. -/
theorem State.memWrite_eq (s : State) (addr : Nat) (w : AccessWidth) (v : Word) :
    s.memWrite addr w v =
      { s with
        arg0 := (s.memWrite addr w v).arg0, arg1 := (s.memWrite addr w v).arg1, arg2 := (s.memWrite addr w v).arg2
        pktLen := (s.memWrite addr w v).pktLen, pktMem := (s.memWrite addr w v).pktMem } := by
  unfold State.memWrite
  split
  · rfl
  · split
    · split
      · unfold State.writeReg; split <;> rfl
      · rfl
    · rw [State.busWriteLe_eq]

/-- A host write keeps PKT_MEM's canonical form and bounds. -/
theorem State.memWrite_keeps (s : State) (addr : Nat) (w : AccessWidth) (v : Word)
    (h : Memory.wf s.pktMem = true ∧ Memory.below s.params.pktMax s.pktMem) :
    Memory.wf (s.memWrite addr w v).pktMem = true ∧ Memory.below s.params.pktMax (s.memWrite addr w v).pktMem := by
  unfold State.memWrite
  split
  · exact h
  · split
    · split
      · unfold State.writeReg; split <;> exact h
      · exact h
    · exact State.busWriteLe_keeps s addr v _ h

/-- One byte written inside PKT_MEM, seen from every address. -/
theorem State.busByte_busWriteByte (s : State) (a x : Nat) (b : Byte) (h0 : Config.pktBase ≤ a)
    (h1 : a < Config.pktBase + s.params.pktMax) :
    (s.busWriteByte a b).busByte x = if x = a then b else s.busByte x := by
  unfold State.busWriteByte
  rw [if_pos ⟨h0, h1⟩]
  simp only [State.busByte, State.pktByte, State.unitByte, Memory.byte_write]
  by_cases hx : x = a
  · subst hx
    rw [if_pos ⟨h0, h1⟩, if_pos (by omega), if_pos rfl, if_pos rfl]
  · rw [if_neg hx]
    split
    · rw [if_neg (by omega : ¬ x - Config.pktBase = a - Config.pktBase)]
    · rfl

/-- A byte written outside PKT_MEM is ignored. -/
theorem State.busWriteByte_outside (s : State) (a : Nat) (b : Byte)
    (h : a < Config.pktBase ∨ Config.pktBase + s.params.pktMax ≤ a) : s.busWriteByte a b = s := by
  rw [State.busWriteByte, if_neg (by omega)]

/-- The bytes of a host read make a number of their width. -/
theorem State.busLe_lt (s : State) (a n : Nat) : s.busLe a n < 2 ^ (8 * n) := by
  induction n with
  | zero => simp [State.busLe]
  | succ n ih =>
    simp only [State.busLe]
    have := (s.busByte (a + n)).isLt
    have h : 2 ^ (8 * (n + 1)) = 256 * 2 ^ (8 * n) := by rw [Nat.mul_add, pow_add]; norm_num; ring
    rw [h]; nlinarith

/-- Outside the register window an access is allowed when it is naturally aligned (spec/20_memory.md R69). -/
theorem accessAllowed_memory (a : Nat) (w : AccessWidth) (h : Config.regWindow ≤ a) :
    accessAllowed a w = (a % w.bytes == 0) := by
  simp [accessAllowed, Nat.not_lt.mpr h]

theorem State.memWrite_memory (s : State) (a : Nat) (w : AccessWidth) (v : Word) (h : Config.regWindow ≤ a)
    (ha : a % w.bytes = 0) : s.memWrite a w v = s.busWriteLe a v w.bytes := by
  simp [State.memWrite, accessAllowed_memory a w h, ha, Nat.not_lt.mpr h]

theorem State.memRead_memory (s : State) (a : Nat) (w : AccessWidth) (h : Config.regWindow ≤ a)
    (ha : a % w.bytes = 0) : s.memRead a w = Word.ofNat (s.busLe a w.bytes) := by
  simp [State.memRead, accessAllowed_memory a w h, ha, Nat.not_lt.mpr h]

theorem Reg.ofOffset_offset (r : Reg) : Reg.ofOffset r.offset = some r := by
  cases r with
  | sfSize i => revert i; decide
  | _ => rfl

theorem Reg.offset_bounds (r : Reg) : r.offset < Config.regWindow ∧ r.offset % 4 = 0 := by
  cases r with
  | sfSize i => revert i; decide
  | _ => decide

end Sys2Proof.Machine
end

