-- ==== Sys2Proof/Laws/State.lean ====
section
/-! SUPPORT. One lemma per field for each state update of Machine/Ops.lean and Machine/NalSegmenter.lean, so that no later
proof unfolds a record update. -/

namespace Sys2Proof.Machine

/-! ## succeed -/

@[simp] theorem State.succeed_params (s : State) : s.succeed.params = s.params := rfl
@[simp] theorem State.succeed_pending (s : State) : s.succeed.pending = s.pending := rfl
@[simp] theorem State.succeed_busData (s : State) : s.succeed.busData = s.busData := rfl
@[simp] theorem State.succeed_cmd (s : State) : s.succeed.cmd = s.cmd := rfl
@[simp] theorem State.succeed_result (s : State) : s.succeed.result = s.result := rfl
@[simp] theorem State.succeed_lastOk (s : State) : s.succeed.lastOk = true := rfl
@[simp] theorem State.succeed_lastCause (s : State) : s.succeed.lastCause = .ok := rfl
@[simp] theorem State.succeed_arg0 (s : State) : s.succeed.arg0 = s.arg0 := rfl
@[simp] theorem State.succeed_arg1 (s : State) : s.succeed.arg1 = s.arg1 := rfl
@[simp] theorem State.succeed_arg2 (s : State) : s.succeed.arg2 = s.arg2 := rfl
@[simp] theorem State.succeed_cfg (s : State) : s.succeed.cfg = s.cfg := rfl
@[simp] theorem State.succeed_pktLen (s : State) : s.succeed.pktLen = s.pktLen := rfl
@[simp] theorem State.succeed_rd (s : State) : s.succeed.rd = s.rd := rfl
@[simp] theorem State.succeed_seg (s : State) : s.succeed.seg = s.seg := rfl
@[simp] theorem State.succeed_pktMem (s : State) : s.succeed.pktMem = s.pktMem := rfl
@[simp] theorem State.succeed_unitMem (s : State) : s.succeed.unitMem = s.unitMem := rfl

/-! ## refuse -/

@[simp] theorem State.refuse_params (c : Cause) (s : State) : (s.refuse c).params = s.params := rfl
@[simp] theorem State.refuse_pending (c : Cause) (s : State) : (s.refuse c).pending = s.pending := rfl
@[simp] theorem State.refuse_busData (c : Cause) (s : State) : (s.refuse c).busData = s.busData := rfl
@[simp] theorem State.refuse_cmd (c : Cause) (s : State) : (s.refuse c).cmd = s.cmd := rfl
@[simp] theorem State.refuse_result (c : Cause) (s : State) : (s.refuse c).result = s.result := rfl
@[simp] theorem State.refuse_lastOk (c : Cause) (s : State) : (s.refuse c).lastOk = false := rfl
@[simp] theorem State.refuse_lastCause (c : Cause) (s : State) : (s.refuse c).lastCause = c := rfl
@[simp] theorem State.refuse_arg0 (c : Cause) (s : State) : (s.refuse c).arg0 = s.arg0 := rfl
@[simp] theorem State.refuse_arg1 (c : Cause) (s : State) : (s.refuse c).arg1 = s.arg1 := rfl
@[simp] theorem State.refuse_arg2 (c : Cause) (s : State) : (s.refuse c).arg2 = s.arg2 := rfl
@[simp] theorem State.refuse_cfg (c : Cause) (s : State) : (s.refuse c).cfg = s.cfg := rfl
@[simp] theorem State.refuse_pktLen (c : Cause) (s : State) : (s.refuse c).pktLen = s.pktLen := rfl
@[simp] theorem State.refuse_rd (c : Cause) (s : State) : (s.refuse c).rd = s.rd := rfl
@[simp] theorem State.refuse_seg (c : Cause) (s : State) : (s.refuse c).seg = s.seg := rfl
@[simp] theorem State.refuse_pktMem (c : Cause) (s : State) : (s.refuse c).pktMem = s.pktMem := rfl
@[simp] theorem State.refuse_unitMem (c : Cause) (s : State) : (s.refuse c).unitMem = s.unitMem := rfl

/-! ## fail -/

@[simp] theorem State.fail_params (c : Cause) (s : State) : (s.fail c).params = s.params := rfl
@[simp] theorem State.fail_pending (c : Cause) (s : State) : (s.fail c).pending = s.pending := rfl
@[simp] theorem State.fail_busData (c : Cause) (s : State) : (s.fail c).busData = s.busData := rfl
@[simp] theorem State.fail_cmd (c : Cause) (s : State) : (s.fail c).cmd = s.cmd := rfl
@[simp] theorem State.fail_result (c : Cause) (s : State) : (s.fail c).result = s.result := rfl
@[simp] theorem State.fail_lastOk (c : Cause) (s : State) : (s.fail c).lastOk = false := rfl
@[simp] theorem State.fail_lastCause (c : Cause) (s : State) : (s.fail c).lastCause = c := rfl
@[simp] theorem State.fail_arg0 (c : Cause) (s : State) : (s.fail c).arg0 = s.arg0 := rfl
@[simp] theorem State.fail_arg1 (c : Cause) (s : State) : (s.fail c).arg1 = s.arg1 := rfl
@[simp] theorem State.fail_arg2 (c : Cause) (s : State) : (s.fail c).arg2 = s.arg2 := rfl
@[simp] theorem State.fail_cfg (c : Cause) (s : State) : (s.fail c).cfg = s.cfg := rfl
@[simp] theorem State.fail_pktLen (c : Cause) (s : State) : (s.fail c).pktLen = s.pktLen := rfl
@[simp] theorem State.fail_seg (c : Cause) (s : State) : (s.fail c).seg = s.seg := rfl
@[simp] theorem State.fail_pktMem (c : Cause) (s : State) : (s.fail c).pktMem = s.pktMem := rfl
@[simp] theorem State.fail_unitMem (c : Cause) (s : State) : (s.fail c).unitMem = s.unitMem := rfl

/-! ## segFail -/

@[simp] theorem State.segFail_params (c : Cause) (s : State) : (s.segFail c).params = s.params := rfl
@[simp] theorem State.segFail_pending (c : Cause) (s : State) : (s.segFail c).pending = s.pending := rfl
@[simp] theorem State.segFail_busData (c : Cause) (s : State) : (s.segFail c).busData = s.busData := rfl
@[simp] theorem State.segFail_cmd (c : Cause) (s : State) : (s.segFail c).cmd = s.cmd := rfl
@[simp] theorem State.segFail_result (c : Cause) (s : State) : (s.segFail c).result = s.result := rfl
@[simp] theorem State.segFail_lastOk (c : Cause) (s : State) : (s.segFail c).lastOk = false := rfl
@[simp] theorem State.segFail_lastCause (c : Cause) (s : State) : (s.segFail c).lastCause = c := rfl
@[simp] theorem State.segFail_arg0 (c : Cause) (s : State) : (s.segFail c).arg0 = s.arg0 := rfl
@[simp] theorem State.segFail_arg1 (c : Cause) (s : State) : (s.segFail c).arg1 = s.arg1 := rfl
@[simp] theorem State.segFail_arg2 (c : Cause) (s : State) : (s.segFail c).arg2 = s.arg2 := rfl
@[simp] theorem State.segFail_cfg (c : Cause) (s : State) : (s.segFail c).cfg = s.cfg := rfl
@[simp] theorem State.segFail_pktLen (c : Cause) (s : State) : (s.segFail c).pktLen = s.pktLen := rfl
@[simp] theorem State.segFail_rd (c : Cause) (s : State) : (s.segFail c).rd = s.rd := rfl
@[simp] theorem State.segFail_pktMem (c : Cause) (s : State) : (s.segFail c).pktMem = s.pktMem := rfl
@[simp] theorem State.segFail_unitMem (c : Cause) (s : State) : (s.segFail c).unitMem = s.unitMem := rfl
@[simp] theorem State.segFail_seg_result (c : Cause) (s : State) : (s.segFail c).seg.result = .error := rfl
@[simp] theorem State.segFail_seg_active (c : Cause) (s : State) : (s.segFail c).seg.active = s.seg.active := rfl
@[simp] theorem State.segFail_seg_held (c : Cause) (s : State) : (s.segFail c).seg.held = s.seg.held := rfl
@[simp] theorem State.segFail_seg_inUnit (c : Cause) (s : State) : (s.segFail c).seg.inUnit = s.seg.inUnit := rfl
@[simp] theorem State.segFail_seg_zc (c : Cause) (s : State) : (s.segFail c).seg.zc = s.seg.zc := rfl
@[simp] theorem State.segFail_seg_cause (c : Cause) (s : State) : (s.segFail c).seg.cause = c := rfl
@[simp] theorem State.segFail_seg_flags (c : Cause) (s : State) : (s.segFail c).seg.flags = s.seg.flags := rfl
@[simp] theorem State.segFail_seg_pktPos (c : Cause) (s : State) : (s.segFail c).seg.pktPos = s.seg.pktPos := rfl
@[simp] theorem State.segFail_seg_unitLen (c : Cause) (s : State) : (s.segFail c).seg.unitLen = s.seg.unitLen := rfl
@[simp] theorem State.segFail_seg_unitInfo (c : Cause) (s : State) : (s.segFail c).seg.unitInfo = s.seg.unitInfo := rfl
@[simp] theorem State.segFail_seg_unitCount (c : Cause) (s : State) : (s.segFail c).seg.unitCount = s.seg.unitCount := rfl
@[simp] theorem State.segFail_seg_sfCount (c : Cause) (s : State) : (s.segFail c).seg.sfCount = s.seg.sfCount := rfl
@[simp] theorem State.segFail_seg_sfIndexSize (c : Cause) (s : State) : (s.segFail c).seg.sfIndexSize = s.seg.sfIndexSize := rfl
@[simp] theorem State.segFail_seg_sfNext (c : Cause) (s : State) : (s.segFail c).seg.sfNext = s.seg.sfNext := rfl
@[simp] theorem State.segFail_seg_sfBase (c : Cause) (s : State) : (s.segFail c).seg.sfBase = s.seg.sfBase := rfl
@[simp] theorem State.segFail_seg_sfSize (c : Cause) (s : State) : (s.segFail c).seg.sfSize = s.seg.sfSize := rfl

/-! ## unbind -/

@[simp] theorem State.unbind_params (s : State) : s.unbind.params = s.params := rfl
@[simp] theorem State.unbind_pending (s : State) : s.unbind.pending = s.pending := rfl
@[simp] theorem State.unbind_busData (s : State) : s.unbind.busData = s.busData := rfl
@[simp] theorem State.unbind_cmd (s : State) : s.unbind.cmd = s.cmd := rfl
@[simp] theorem State.unbind_result (s : State) : s.unbind.result = s.result := rfl
@[simp] theorem State.unbind_lastOk (s : State) : s.unbind.lastOk = s.lastOk := rfl
@[simp] theorem State.unbind_lastCause (s : State) : s.unbind.lastCause = s.lastCause := rfl
@[simp] theorem State.unbind_arg0 (s : State) : s.unbind.arg0 = s.arg0 := rfl
@[simp] theorem State.unbind_arg1 (s : State) : s.unbind.arg1 = s.arg1 := rfl
@[simp] theorem State.unbind_arg2 (s : State) : s.unbind.arg2 = s.arg2 := rfl
@[simp] theorem State.unbind_cfg (s : State) : s.unbind.cfg = s.cfg := rfl
@[simp] theorem State.unbind_pktLen (s : State) : s.unbind.pktLen = s.pktLen := rfl
@[simp] theorem State.unbind_seg (s : State) : s.unbind.seg = s.seg := rfl
@[simp] theorem State.unbind_pktMem (s : State) : s.unbind.pktMem = s.pktMem := rfl
@[simp] theorem State.unbind_unitMem (s : State) : s.unbind.unitMem = s.unitMem := rfl
@[simp] theorem State.unbind_rd_unitValid (s : State) : s.unbind.rd.unitValid = false := rfl
@[simp] theorem State.unbind_rd_epbEn (s : State) : s.unbind.rd.epbEn = s.rd.epbEn := rfl
@[simp] theorem State.unbind_rd_src (s : State) : s.unbind.rd.src = s.rd.src := rfl
@[simp] theorem State.unbind_rd_err (s : State) : s.unbind.rd.err = s.rd.err := rfl
@[simp] theorem State.unbind_rd_errCause (s : State) : s.unbind.rd.errCause = s.rd.errCause := rfl
@[simp] theorem State.unbind_rd_pos (s : State) : s.unbind.rd.pos = 0 := rfl
@[simp] theorem State.unbind_rd_errPos (s : State) : s.unbind.rd.errPos = s.rd.errPos := rfl
@[simp] theorem State.unbind_rd_base (s : State) : s.unbind.rd.base = s.rd.base := rfl
@[simp] theorem State.unbind_rd_rawLen (s : State) : s.unbind.rd.rawLen = 0 := rfl
@[simp] theorem State.unbind_rd_payload (s : State) : s.unbind.rd.payload = [] := rfl

/-! ## needData -/

@[simp] theorem State.needData_params (s : State) : s.needData.params = s.params := rfl
@[simp] theorem State.needData_pending (s : State) : s.needData.pending = s.pending := rfl
@[simp] theorem State.needData_busData (s : State) : s.needData.busData = s.busData := rfl
@[simp] theorem State.needData_cmd (s : State) : s.needData.cmd = s.cmd := rfl
@[simp] theorem State.needData_result (s : State) : s.needData.result = s.result := rfl
@[simp] theorem State.needData_lastOk (s : State) : s.needData.lastOk = true := rfl
@[simp] theorem State.needData_lastCause (s : State) : s.needData.lastCause = .ok := rfl
@[simp] theorem State.needData_arg0 (s : State) : s.needData.arg0 = s.arg0 := rfl
@[simp] theorem State.needData_arg1 (s : State) : s.needData.arg1 = s.arg1 := rfl
@[simp] theorem State.needData_arg2 (s : State) : s.needData.arg2 = s.arg2 := rfl
@[simp] theorem State.needData_cfg (s : State) : s.needData.cfg = s.cfg := rfl
@[simp] theorem State.needData_pktLen (s : State) : s.needData.pktLen = s.pktLen := rfl
@[simp] theorem State.needData_rd (s : State) : s.needData.rd = s.rd := rfl
@[simp] theorem State.needData_pktMem (s : State) : s.needData.pktMem = s.pktMem := rfl
@[simp] theorem State.needData_unitMem (s : State) : s.needData.unitMem = s.unitMem := rfl
@[simp] theorem State.needData_seg_result (s : State) : s.needData.seg.result = .needData := rfl
@[simp] theorem State.needData_seg_active (s : State) : s.needData.seg.active = s.seg.active := rfl
@[simp] theorem State.needData_seg_held (s : State) : s.needData.seg.held = s.seg.held := rfl
@[simp] theorem State.needData_seg_inUnit (s : State) : s.needData.seg.inUnit = s.seg.inUnit := rfl
@[simp] theorem State.needData_seg_zc (s : State) : s.needData.seg.zc = s.seg.zc := rfl
@[simp] theorem State.needData_seg_cause (s : State) : s.needData.seg.cause = .ok := rfl
@[simp] theorem State.needData_seg_flags (s : State) : s.needData.seg.flags = s.seg.flags := rfl
@[simp] theorem State.needData_seg_pktPos (s : State) : s.needData.seg.pktPos = s.seg.pktPos := rfl
@[simp] theorem State.needData_seg_unitLen (s : State) : s.needData.seg.unitLen = s.seg.unitLen := rfl
@[simp] theorem State.needData_seg_unitInfo (s : State) : s.needData.seg.unitInfo = s.seg.unitInfo := rfl
@[simp] theorem State.needData_seg_unitCount (s : State) : s.needData.seg.unitCount = s.seg.unitCount := rfl
@[simp] theorem State.needData_seg_sfCount (s : State) : s.needData.seg.sfCount = s.seg.sfCount := rfl
@[simp] theorem State.needData_seg_sfIndexSize (s : State) : s.needData.seg.sfIndexSize = s.seg.sfIndexSize := rfl
@[simp] theorem State.needData_seg_sfNext (s : State) : s.needData.seg.sfNext = s.seg.sfNext := rfl
@[simp] theorem State.needData_seg_sfBase (s : State) : s.needData.seg.sfBase = s.seg.sfBase := rfl
@[simp] theorem State.needData_seg_sfSize (s : State) : s.needData.seg.sfSize = s.seg.sfSize := rfl

/-! ## emitUnit -/

@[simp] theorem State.emitUnit_params (info : Word) (s : State) : (s.emitUnit info).params = s.params := rfl
@[simp] theorem State.emitUnit_pending (info : Word) (s : State) : (s.emitUnit info).pending = s.pending := rfl
@[simp] theorem State.emitUnit_busData (info : Word) (s : State) : (s.emitUnit info).busData = s.busData := rfl
@[simp] theorem State.emitUnit_cmd (info : Word) (s : State) : (s.emitUnit info).cmd = s.cmd := rfl
@[simp] theorem State.emitUnit_result (info : Word) (s : State) : (s.emitUnit info).result = s.seg.unitLen := rfl
@[simp] theorem State.emitUnit_lastOk (info : Word) (s : State) : (s.emitUnit info).lastOk = true := rfl
@[simp] theorem State.emitUnit_lastCause (info : Word) (s : State) : (s.emitUnit info).lastCause = .ok := rfl
@[simp] theorem State.emitUnit_arg0 (info : Word) (s : State) : (s.emitUnit info).arg0 = s.arg0 := rfl
@[simp] theorem State.emitUnit_arg1 (info : Word) (s : State) : (s.emitUnit info).arg1 = s.arg1 := rfl
@[simp] theorem State.emitUnit_arg2 (info : Word) (s : State) : (s.emitUnit info).arg2 = s.arg2 := rfl
@[simp] theorem State.emitUnit_cfg (info : Word) (s : State) : (s.emitUnit info).cfg = s.cfg := rfl
@[simp] theorem State.emitUnit_pktLen (info : Word) (s : State) : (s.emitUnit info).pktLen = s.pktLen := rfl
@[simp] theorem State.emitUnit_rd (info : Word) (s : State) : (s.emitUnit info).rd = s.rd := rfl
@[simp] theorem State.emitUnit_pktMem (info : Word) (s : State) : (s.emitUnit info).pktMem = s.pktMem := rfl
@[simp] theorem State.emitUnit_unitMem (info : Word) (s : State) : (s.emitUnit info).unitMem = s.unitMem := rfl
@[simp] theorem State.emitUnit_seg_result (info : Word) (s : State) : (s.emitUnit info).seg.result = .unit := rfl
@[simp] theorem State.emitUnit_seg_active (info : Word) (s : State) : (s.emitUnit info).seg.active = s.seg.active := rfl
@[simp] theorem State.emitUnit_seg_held (info : Word) (s : State) : (s.emitUnit info).seg.held = true := rfl
@[simp] theorem State.emitUnit_seg_inUnit (info : Word) (s : State) : (s.emitUnit info).seg.inUnit = s.seg.inUnit := rfl
@[simp] theorem State.emitUnit_seg_zc (info : Word) (s : State) : (s.emitUnit info).seg.zc = s.seg.zc := rfl
@[simp] theorem State.emitUnit_seg_cause (info : Word) (s : State) : (s.emitUnit info).seg.cause = .ok := rfl
@[simp] theorem State.emitUnit_seg_flags (info : Word) (s : State) : (s.emitUnit info).seg.flags = s.seg.flags := rfl
@[simp] theorem State.emitUnit_seg_pktPos (info : Word) (s : State) : (s.emitUnit info).seg.pktPos = s.seg.pktPos := rfl
@[simp] theorem State.emitUnit_seg_unitLen (info : Word) (s : State) : (s.emitUnit info).seg.unitLen = s.seg.unitLen := rfl
@[simp] theorem State.emitUnit_seg_unitInfo (info : Word) (s : State) : (s.emitUnit info).seg.unitInfo = info := rfl
@[simp] theorem State.emitUnit_seg_unitCount (info : Word) (s : State) : (s.emitUnit info).seg.unitCount = s.seg.unitCount + 1 := rfl
@[simp] theorem State.emitUnit_seg_sfCount (info : Word) (s : State) : (s.emitUnit info).seg.sfCount = s.seg.sfCount := rfl
@[simp] theorem State.emitUnit_seg_sfIndexSize (info : Word) (s : State) : (s.emitUnit info).seg.sfIndexSize = s.seg.sfIndexSize := rfl
@[simp] theorem State.emitUnit_seg_sfNext (info : Word) (s : State) : (s.emitUnit info).seg.sfNext = s.seg.sfNext := rfl
@[simp] theorem State.emitUnit_seg_sfBase (info : Word) (s : State) : (s.emitUnit info).seg.sfBase = s.seg.sfBase := rfl
@[simp] theorem State.emitUnit_seg_sfSize (info : Word) (s : State) : (s.emitUnit info).seg.sfSize = s.seg.sfSize := rfl

/-! ## abandon -/

@[simp] theorem State.abandon_params (c : Cause) (s : State) : (s.abandon c).params = s.params := rfl
@[simp] theorem State.abandon_pending (c : Cause) (s : State) : (s.abandon c).pending = s.pending := rfl
@[simp] theorem State.abandon_busData (c : Cause) (s : State) : (s.abandon c).busData = s.busData := rfl
@[simp] theorem State.abandon_cmd (c : Cause) (s : State) : (s.abandon c).cmd = s.cmd := rfl
@[simp] theorem State.abandon_result (c : Cause) (s : State) : (s.abandon c).result = s.result := rfl
@[simp] theorem State.abandon_lastOk (c : Cause) (s : State) : (s.abandon c).lastOk = false := rfl
@[simp] theorem State.abandon_lastCause (c : Cause) (s : State) : (s.abandon c).lastCause = c := rfl
@[simp] theorem State.abandon_arg0 (c : Cause) (s : State) : (s.abandon c).arg0 = s.arg0 := rfl
@[simp] theorem State.abandon_arg1 (c : Cause) (s : State) : (s.abandon c).arg1 = s.arg1 := rfl
@[simp] theorem State.abandon_arg2 (c : Cause) (s : State) : (s.abandon c).arg2 = s.arg2 := rfl
@[simp] theorem State.abandon_cfg (c : Cause) (s : State) : (s.abandon c).cfg = s.cfg := rfl
@[simp] theorem State.abandon_pktLen (c : Cause) (s : State) : (s.abandon c).pktLen = s.pktLen := rfl
@[simp] theorem State.abandon_rd (c : Cause) (s : State) : (s.abandon c).rd = s.rd := rfl
@[simp] theorem State.abandon_pktMem (c : Cause) (s : State) : (s.abandon c).pktMem = s.pktMem := rfl
@[simp] theorem State.abandon_unitMem (c : Cause) (s : State) : (s.abandon c).unitMem = s.unitMem := rfl
@[simp] theorem State.abandon_seg_result (c : Cause) (s : State) : (s.abandon c).seg.result = .error := rfl
@[simp] theorem State.abandon_seg_active (c : Cause) (s : State) : (s.abandon c).seg.active = false := rfl
@[simp] theorem State.abandon_seg_held (c : Cause) (s : State) : (s.abandon c).seg.held = s.seg.held := rfl
@[simp] theorem State.abandon_seg_inUnit (c : Cause) (s : State) : (s.abandon c).seg.inUnit = s.seg.inUnit := rfl
@[simp] theorem State.abandon_seg_zc (c : Cause) (s : State) : (s.abandon c).seg.zc = s.seg.zc := rfl
@[simp] theorem State.abandon_seg_cause (c : Cause) (s : State) : (s.abandon c).seg.cause = c := rfl
@[simp] theorem State.abandon_seg_flags (c : Cause) (s : State) : (s.abandon c).seg.flags = s.seg.flags := rfl
@[simp] theorem State.abandon_seg_pktPos (c : Cause) (s : State) : (s.abandon c).seg.pktPos = s.pktLen := rfl
@[simp] theorem State.abandon_seg_unitLen (c : Cause) (s : State) : (s.abandon c).seg.unitLen = 0 := rfl
@[simp] theorem State.abandon_seg_unitInfo (c : Cause) (s : State) : (s.abandon c).seg.unitInfo = s.seg.unitInfo := rfl
@[simp] theorem State.abandon_seg_unitCount (c : Cause) (s : State) : (s.abandon c).seg.unitCount = s.seg.unitCount := rfl
@[simp] theorem State.abandon_seg_sfCount (c : Cause) (s : State) : (s.abandon c).seg.sfCount = s.seg.sfCount := rfl
@[simp] theorem State.abandon_seg_sfIndexSize (c : Cause) (s : State) : (s.abandon c).seg.sfIndexSize = s.seg.sfIndexSize := rfl
@[simp] theorem State.abandon_seg_sfNext (c : Cause) (s : State) : (s.abandon c).seg.sfNext = s.seg.sfNext := rfl
@[simp] theorem State.abandon_seg_sfBase (c : Cause) (s : State) : (s.abandon c).seg.sfBase = s.seg.sfBase := rfl
@[simp] theorem State.abandon_seg_sfSize (c : Cause) (s : State) : (s.abandon c).seg.sfSize = s.seg.sfSize := rfl

/-! ## dropLongUnit -/

@[simp] theorem State.dropLongUnit_params (s : State) : s.dropLongUnit.params = s.params := rfl
@[simp] theorem State.dropLongUnit_pending (s : State) : s.dropLongUnit.pending = s.pending := rfl
@[simp] theorem State.dropLongUnit_busData (s : State) : s.dropLongUnit.busData = s.busData := rfl
@[simp] theorem State.dropLongUnit_cmd (s : State) : s.dropLongUnit.cmd = s.cmd := rfl
@[simp] theorem State.dropLongUnit_result (s : State) : s.dropLongUnit.result = s.result := rfl
@[simp] theorem State.dropLongUnit_lastOk (s : State) : s.dropLongUnit.lastOk = false := rfl
@[simp] theorem State.dropLongUnit_lastCause (s : State) : s.dropLongUnit.lastCause = .unitTooLong := rfl
@[simp] theorem State.dropLongUnit_arg0 (s : State) : s.dropLongUnit.arg0 = s.arg0 := rfl
@[simp] theorem State.dropLongUnit_arg1 (s : State) : s.dropLongUnit.arg1 = s.arg1 := rfl
@[simp] theorem State.dropLongUnit_arg2 (s : State) : s.dropLongUnit.arg2 = s.arg2 := rfl
@[simp] theorem State.dropLongUnit_cfg (s : State) : s.dropLongUnit.cfg = s.cfg := rfl
@[simp] theorem State.dropLongUnit_pktLen (s : State) : s.dropLongUnit.pktLen = s.pktLen := rfl
@[simp] theorem State.dropLongUnit_rd (s : State) : s.dropLongUnit.rd = s.rd := rfl
@[simp] theorem State.dropLongUnit_pktMem (s : State) : s.dropLongUnit.pktMem = s.pktMem := rfl
@[simp] theorem State.dropLongUnit_unitMem (s : State) : s.dropLongUnit.unitMem = s.unitMem := rfl
@[simp] theorem State.dropLongUnit_seg_result (s : State) : s.dropLongUnit.seg.result = .error := rfl
@[simp] theorem State.dropLongUnit_seg_active (s : State) : s.dropLongUnit.seg.active = s.seg.active := rfl
@[simp] theorem State.dropLongUnit_seg_held (s : State) : s.dropLongUnit.seg.held = s.seg.held := rfl
@[simp] theorem State.dropLongUnit_seg_inUnit (s : State) : s.dropLongUnit.seg.inUnit = s.seg.inUnit := rfl
@[simp] theorem State.dropLongUnit_seg_zc (s : State) : s.dropLongUnit.seg.zc = s.seg.zc := rfl
@[simp] theorem State.dropLongUnit_seg_cause (s : State) : s.dropLongUnit.seg.cause = .unitTooLong := rfl
@[simp] theorem State.dropLongUnit_seg_flags (s : State) : s.dropLongUnit.seg.flags = s.seg.flags := rfl
@[simp] theorem State.dropLongUnit_seg_pktPos (s : State) : s.dropLongUnit.seg.pktPos = s.seg.pktPos := rfl
@[simp] theorem State.dropLongUnit_seg_unitLen (s : State) : s.dropLongUnit.seg.unitLen = 0 := rfl
@[simp] theorem State.dropLongUnit_seg_unitInfo (s : State) : s.dropLongUnit.seg.unitInfo = s.seg.unitInfo := rfl
@[simp] theorem State.dropLongUnit_seg_unitCount (s : State) : s.dropLongUnit.seg.unitCount = s.seg.unitCount := rfl
@[simp] theorem State.dropLongUnit_seg_sfCount (s : State) : s.dropLongUnit.seg.sfCount = s.seg.sfCount := rfl
@[simp] theorem State.dropLongUnit_seg_sfIndexSize (s : State) : s.dropLongUnit.seg.sfIndexSize = s.seg.sfIndexSize := rfl
@[simp] theorem State.dropLongUnit_seg_sfNext (s : State) : s.dropLongUnit.seg.sfNext = s.seg.sfNext := rfl
@[simp] theorem State.dropLongUnit_seg_sfBase (s : State) : s.dropLongUnit.seg.sfBase = s.seg.sfBase := rfl
@[simp] theorem State.dropLongUnit_seg_sfSize (s : State) : s.dropLongUnit.seg.sfSize = s.seg.sfSize := rfl

/-! ## copyUnit -/

@[simp] theorem State.copyUnit_params (start n : Nat) (s : State) : (s.copyUnit start n).params = s.params := rfl
@[simp] theorem State.copyUnit_pending (start n : Nat) (s : State) : (s.copyUnit start n).pending = s.pending := rfl
@[simp] theorem State.copyUnit_busData (start n : Nat) (s : State) : (s.copyUnit start n).busData = s.busData := rfl
@[simp] theorem State.copyUnit_cmd (start n : Nat) (s : State) : (s.copyUnit start n).cmd = s.cmd := rfl
@[simp] theorem State.copyUnit_result (start n : Nat) (s : State) : (s.copyUnit start n).result = s.result := rfl
@[simp] theorem State.copyUnit_lastOk (start n : Nat) (s : State) : (s.copyUnit start n).lastOk = s.lastOk := rfl
@[simp] theorem State.copyUnit_lastCause (start n : Nat) (s : State) : (s.copyUnit start n).lastCause = s.lastCause := rfl
@[simp] theorem State.copyUnit_arg0 (start n : Nat) (s : State) : (s.copyUnit start n).arg0 = s.arg0 := rfl
@[simp] theorem State.copyUnit_arg1 (start n : Nat) (s : State) : (s.copyUnit start n).arg1 = s.arg1 := rfl
@[simp] theorem State.copyUnit_arg2 (start n : Nat) (s : State) : (s.copyUnit start n).arg2 = s.arg2 := rfl
@[simp] theorem State.copyUnit_cfg (start n : Nat) (s : State) : (s.copyUnit start n).cfg = s.cfg := rfl
@[simp] theorem State.copyUnit_pktLen (start n : Nat) (s : State) : (s.copyUnit start n).pktLen = s.pktLen := rfl
@[simp] theorem State.copyUnit_rd (start n : Nat) (s : State) : (s.copyUnit start n).rd = s.rd := rfl
@[simp] theorem State.copyUnit_pktMem (start n : Nat) (s : State) : (s.copyUnit start n).pktMem = s.pktMem := rfl
@[simp] theorem State.copyUnit_unitMem (start n : Nat) (s : State) : (s.copyUnit start n).unitMem = Memory.writeBytes s.unitMem 0 (s.pktBytes start n) := rfl
@[simp] theorem State.copyUnit_seg_result (start n : Nat) (s : State) : (s.copyUnit start n).seg.result = s.seg.result := rfl
@[simp] theorem State.copyUnit_seg_active (start n : Nat) (s : State) : (s.copyUnit start n).seg.active = s.seg.active := rfl
@[simp] theorem State.copyUnit_seg_held (start n : Nat) (s : State) : (s.copyUnit start n).seg.held = s.seg.held := rfl
@[simp] theorem State.copyUnit_seg_inUnit (start n : Nat) (s : State) : (s.copyUnit start n).seg.inUnit = s.seg.inUnit := rfl
@[simp] theorem State.copyUnit_seg_zc (start n : Nat) (s : State) : (s.copyUnit start n).seg.zc = s.seg.zc := rfl
@[simp] theorem State.copyUnit_seg_cause (start n : Nat) (s : State) : (s.copyUnit start n).seg.cause = s.seg.cause := rfl
@[simp] theorem State.copyUnit_seg_flags (start n : Nat) (s : State) : (s.copyUnit start n).seg.flags = s.seg.flags := rfl
@[simp] theorem State.copyUnit_seg_pktPos (start n : Nat) (s : State) : (s.copyUnit start n).seg.pktPos = s.seg.pktPos := rfl
@[simp] theorem State.copyUnit_seg_unitLen (start n : Nat) (s : State) : (s.copyUnit start n).seg.unitLen = Word.ofNat n := rfl
@[simp] theorem State.copyUnit_seg_unitInfo (start n : Nat) (s : State) : (s.copyUnit start n).seg.unitInfo = s.seg.unitInfo := rfl
@[simp] theorem State.copyUnit_seg_unitCount (start n : Nat) (s : State) : (s.copyUnit start n).seg.unitCount = s.seg.unitCount := rfl
@[simp] theorem State.copyUnit_seg_sfCount (start n : Nat) (s : State) : (s.copyUnit start n).seg.sfCount = s.seg.sfCount := rfl
@[simp] theorem State.copyUnit_seg_sfIndexSize (start n : Nat) (s : State) : (s.copyUnit start n).seg.sfIndexSize = s.seg.sfIndexSize := rfl
@[simp] theorem State.copyUnit_seg_sfNext (start n : Nat) (s : State) : (s.copyUnit start n).seg.sfNext = s.seg.sfNext := rfl
@[simp] theorem State.copyUnit_seg_sfBase (start n : Nat) (s : State) : (s.copyUnit start n).seg.sfBase = s.seg.sfBase := rfl
@[simp] theorem State.copyUnit_seg_sfSize (start n : Nat) (s : State) : (s.copyUnit start n).seg.sfSize = s.seg.sfSize := rfl

/-! ## appendByte -/

@[simp] theorem State.appendByte_params (b : Byte) (s : State) : (s.appendByte b).params = s.params := rfl
@[simp] theorem State.appendByte_pending (b : Byte) (s : State) : (s.appendByte b).pending = s.pending := rfl
@[simp] theorem State.appendByte_busData (b : Byte) (s : State) : (s.appendByte b).busData = s.busData := rfl
@[simp] theorem State.appendByte_cmd (b : Byte) (s : State) : (s.appendByte b).cmd = s.cmd := rfl
@[simp] theorem State.appendByte_result (b : Byte) (s : State) : (s.appendByte b).result = s.result := rfl
@[simp] theorem State.appendByte_lastOk (b : Byte) (s : State) : (s.appendByte b).lastOk = s.lastOk := rfl
@[simp] theorem State.appendByte_lastCause (b : Byte) (s : State) : (s.appendByte b).lastCause = s.lastCause := rfl
@[simp] theorem State.appendByte_arg0 (b : Byte) (s : State) : (s.appendByte b).arg0 = s.arg0 := rfl
@[simp] theorem State.appendByte_arg1 (b : Byte) (s : State) : (s.appendByte b).arg1 = s.arg1 := rfl
@[simp] theorem State.appendByte_arg2 (b : Byte) (s : State) : (s.appendByte b).arg2 = s.arg2 := rfl
@[simp] theorem State.appendByte_cfg (b : Byte) (s : State) : (s.appendByte b).cfg = s.cfg := rfl
@[simp] theorem State.appendByte_pktLen (b : Byte) (s : State) : (s.appendByte b).pktLen = s.pktLen := rfl
@[simp] theorem State.appendByte_rd (b : Byte) (s : State) : (s.appendByte b).rd = s.rd := rfl
@[simp] theorem State.appendByte_pktMem (b : Byte) (s : State) : (s.appendByte b).pktMem = s.pktMem := rfl
@[simp] theorem State.appendByte_unitMem (b : Byte) (s : State) : (s.appendByte b).unitMem = Memory.write s.unitMem s.seg.unitLen.toNat b := rfl
@[simp] theorem State.appendByte_seg_result (b : Byte) (s : State) : (s.appendByte b).seg.result = s.seg.result := rfl
@[simp] theorem State.appendByte_seg_active (b : Byte) (s : State) : (s.appendByte b).seg.active = s.seg.active := rfl
@[simp] theorem State.appendByte_seg_held (b : Byte) (s : State) : (s.appendByte b).seg.held = s.seg.held := rfl
@[simp] theorem State.appendByte_seg_inUnit (b : Byte) (s : State) : (s.appendByte b).seg.inUnit = s.seg.inUnit := rfl
@[simp] theorem State.appendByte_seg_zc (b : Byte) (s : State) : (s.appendByte b).seg.zc = s.seg.zc := rfl
@[simp] theorem State.appendByte_seg_cause (b : Byte) (s : State) : (s.appendByte b).seg.cause = s.seg.cause := rfl
@[simp] theorem State.appendByte_seg_flags (b : Byte) (s : State) : (s.appendByte b).seg.flags = s.seg.flags := rfl
@[simp] theorem State.appendByte_seg_pktPos (b : Byte) (s : State) : (s.appendByte b).seg.pktPos = s.seg.pktPos := rfl
@[simp] theorem State.appendByte_seg_unitLen (b : Byte) (s : State) : (s.appendByte b).seg.unitLen = Word.ofNat (s.seg.unitLen.toNat + 1) := rfl
@[simp] theorem State.appendByte_seg_unitInfo (b : Byte) (s : State) : (s.appendByte b).seg.unitInfo = s.seg.unitInfo := rfl
@[simp] theorem State.appendByte_seg_unitCount (b : Byte) (s : State) : (s.appendByte b).seg.unitCount = s.seg.unitCount := rfl
@[simp] theorem State.appendByte_seg_sfCount (b : Byte) (s : State) : (s.appendByte b).seg.sfCount = s.seg.sfCount := rfl
@[simp] theorem State.appendByte_seg_sfIndexSize (b : Byte) (s : State) : (s.appendByte b).seg.sfIndexSize = s.seg.sfIndexSize := rfl
@[simp] theorem State.appendByte_seg_sfNext (b : Byte) (s : State) : (s.appendByte b).seg.sfNext = s.seg.sfNext := rfl
@[simp] theorem State.appendByte_seg_sfBase (b : Byte) (s : State) : (s.appendByte b).seg.sfBase = s.seg.sfBase := rfl
@[simp] theorem State.appendByte_seg_sfSize (b : Byte) (s : State) : (s.appendByte b).seg.sfSize = s.seg.sfSize := rfl

/-! ## scanOverflow -/

@[simp] theorem State.scanOverflow_params (s : State) : s.scanOverflow.params = s.params := rfl
@[simp] theorem State.scanOverflow_pending (s : State) : s.scanOverflow.pending = s.pending := rfl
@[simp] theorem State.scanOverflow_busData (s : State) : s.scanOverflow.busData = s.busData := rfl
@[simp] theorem State.scanOverflow_cmd (s : State) : s.scanOverflow.cmd = s.cmd := rfl
@[simp] theorem State.scanOverflow_result (s : State) : s.scanOverflow.result = s.result := rfl
@[simp] theorem State.scanOverflow_lastOk (s : State) : s.scanOverflow.lastOk = s.lastOk := rfl
@[simp] theorem State.scanOverflow_lastCause (s : State) : s.scanOverflow.lastCause = s.lastCause := rfl
@[simp] theorem State.scanOverflow_arg0 (s : State) : s.scanOverflow.arg0 = s.arg0 := rfl
@[simp] theorem State.scanOverflow_arg1 (s : State) : s.scanOverflow.arg1 = s.arg1 := rfl
@[simp] theorem State.scanOverflow_arg2 (s : State) : s.scanOverflow.arg2 = s.arg2 := rfl
@[simp] theorem State.scanOverflow_cfg (s : State) : s.scanOverflow.cfg = s.cfg := rfl
@[simp] theorem State.scanOverflow_pktLen (s : State) : s.scanOverflow.pktLen = s.pktLen := rfl
@[simp] theorem State.scanOverflow_rd (s : State) : s.scanOverflow.rd = s.rd := rfl
@[simp] theorem State.scanOverflow_pktMem (s : State) : s.scanOverflow.pktMem = s.pktMem := rfl
@[simp] theorem State.scanOverflow_unitMem (s : State) : s.scanOverflow.unitMem = s.unitMem := rfl
@[simp] theorem State.scanOverflow_seg_result (s : State) : s.scanOverflow.seg.result = s.seg.result := rfl
@[simp] theorem State.scanOverflow_seg_active (s : State) : s.scanOverflow.seg.active = s.seg.active := rfl
@[simp] theorem State.scanOverflow_seg_held (s : State) : s.scanOverflow.seg.held = s.seg.held := rfl
@[simp] theorem State.scanOverflow_seg_inUnit (s : State) : s.scanOverflow.seg.inUnit = false := rfl
@[simp] theorem State.scanOverflow_seg_zc (s : State) : s.scanOverflow.seg.zc = s.seg.zc := rfl
@[simp] theorem State.scanOverflow_seg_cause (s : State) : s.scanOverflow.seg.cause = s.seg.cause := rfl
@[simp] theorem State.scanOverflow_seg_flags (s : State) : s.scanOverflow.seg.flags = s.seg.flags := rfl
@[simp] theorem State.scanOverflow_seg_pktPos (s : State) : s.scanOverflow.seg.pktPos = s.seg.pktPos := rfl
@[simp] theorem State.scanOverflow_seg_unitLen (s : State) : s.scanOverflow.seg.unitLen = 0 := rfl
@[simp] theorem State.scanOverflow_seg_unitInfo (s : State) : s.scanOverflow.seg.unitInfo = s.seg.unitInfo := rfl
@[simp] theorem State.scanOverflow_seg_unitCount (s : State) : s.scanOverflow.seg.unitCount = s.seg.unitCount := rfl
@[simp] theorem State.scanOverflow_seg_sfCount (s : State) : s.scanOverflow.seg.sfCount = s.seg.sfCount := rfl
@[simp] theorem State.scanOverflow_seg_sfIndexSize (s : State) : s.scanOverflow.seg.sfIndexSize = s.seg.sfIndexSize := rfl
@[simp] theorem State.scanOverflow_seg_sfNext (s : State) : s.scanOverflow.seg.sfNext = s.seg.sfNext := rfl
@[simp] theorem State.scanOverflow_seg_sfBase (s : State) : s.scanOverflow.seg.sfBase = s.seg.sfBase := rfl
@[simp] theorem State.scanOverflow_seg_sfSize (s : State) : s.scanOverflow.seg.sfSize = s.seg.sfSize := rfl

/-! ## setZc -/

@[simp] theorem State.setZc_params (z : Fin 3) (s : State) : (s.setZc z).params = s.params := rfl
@[simp] theorem State.setZc_pending (z : Fin 3) (s : State) : (s.setZc z).pending = s.pending := rfl
@[simp] theorem State.setZc_busData (z : Fin 3) (s : State) : (s.setZc z).busData = s.busData := rfl
@[simp] theorem State.setZc_cmd (z : Fin 3) (s : State) : (s.setZc z).cmd = s.cmd := rfl
@[simp] theorem State.setZc_result (z : Fin 3) (s : State) : (s.setZc z).result = s.result := rfl
@[simp] theorem State.setZc_lastOk (z : Fin 3) (s : State) : (s.setZc z).lastOk = s.lastOk := rfl
@[simp] theorem State.setZc_lastCause (z : Fin 3) (s : State) : (s.setZc z).lastCause = s.lastCause := rfl
@[simp] theorem State.setZc_arg0 (z : Fin 3) (s : State) : (s.setZc z).arg0 = s.arg0 := rfl
@[simp] theorem State.setZc_arg1 (z : Fin 3) (s : State) : (s.setZc z).arg1 = s.arg1 := rfl
@[simp] theorem State.setZc_arg2 (z : Fin 3) (s : State) : (s.setZc z).arg2 = s.arg2 := rfl
@[simp] theorem State.setZc_cfg (z : Fin 3) (s : State) : (s.setZc z).cfg = s.cfg := rfl
@[simp] theorem State.setZc_pktLen (z : Fin 3) (s : State) : (s.setZc z).pktLen = s.pktLen := rfl
@[simp] theorem State.setZc_rd (z : Fin 3) (s : State) : (s.setZc z).rd = s.rd := rfl
@[simp] theorem State.setZc_pktMem (z : Fin 3) (s : State) : (s.setZc z).pktMem = s.pktMem := rfl
@[simp] theorem State.setZc_unitMem (z : Fin 3) (s : State) : (s.setZc z).unitMem = s.unitMem := rfl
@[simp] theorem State.setZc_seg_result (z : Fin 3) (s : State) : (s.setZc z).seg.result = s.seg.result := rfl
@[simp] theorem State.setZc_seg_active (z : Fin 3) (s : State) : (s.setZc z).seg.active = s.seg.active := rfl
@[simp] theorem State.setZc_seg_held (z : Fin 3) (s : State) : (s.setZc z).seg.held = s.seg.held := rfl
@[simp] theorem State.setZc_seg_inUnit (z : Fin 3) (s : State) : (s.setZc z).seg.inUnit = s.seg.inUnit := rfl
@[simp] theorem State.setZc_seg_zc (z : Fin 3) (s : State) : (s.setZc z).seg.zc = z := rfl
@[simp] theorem State.setZc_seg_cause (z : Fin 3) (s : State) : (s.setZc z).seg.cause = s.seg.cause := rfl
@[simp] theorem State.setZc_seg_flags (z : Fin 3) (s : State) : (s.setZc z).seg.flags = s.seg.flags := rfl
@[simp] theorem State.setZc_seg_pktPos (z : Fin 3) (s : State) : (s.setZc z).seg.pktPos = s.seg.pktPos := rfl
@[simp] theorem State.setZc_seg_unitLen (z : Fin 3) (s : State) : (s.setZc z).seg.unitLen = s.seg.unitLen := rfl
@[simp] theorem State.setZc_seg_unitInfo (z : Fin 3) (s : State) : (s.setZc z).seg.unitInfo = s.seg.unitInfo := rfl
@[simp] theorem State.setZc_seg_unitCount (z : Fin 3) (s : State) : (s.setZc z).seg.unitCount = s.seg.unitCount := rfl
@[simp] theorem State.setZc_seg_sfCount (z : Fin 3) (s : State) : (s.setZc z).seg.sfCount = s.seg.sfCount := rfl
@[simp] theorem State.setZc_seg_sfIndexSize (z : Fin 3) (s : State) : (s.setZc z).seg.sfIndexSize = s.seg.sfIndexSize := rfl
@[simp] theorem State.setZc_seg_sfNext (z : Fin 3) (s : State) : (s.setZc z).seg.sfNext = s.seg.sfNext := rfl
@[simp] theorem State.setZc_seg_sfBase (z : Fin 3) (s : State) : (s.setZc z).seg.sfBase = s.seg.sfBase := rfl
@[simp] theorem State.setZc_seg_sfSize (z : Fin 3) (s : State) : (s.setZc z).seg.sfSize = s.seg.sfSize := rfl

/-! ## clearSf -/

@[simp] theorem Segmenter.clearSf_result (g : Segmenter) : g.clearSf.result = g.result := rfl
@[simp] theorem Segmenter.clearSf_active (g : Segmenter) : g.clearSf.active = g.active := rfl
@[simp] theorem Segmenter.clearSf_held (g : Segmenter) : g.clearSf.held = g.held := rfl
@[simp] theorem Segmenter.clearSf_inUnit (g : Segmenter) : g.clearSf.inUnit = g.inUnit := rfl
@[simp] theorem Segmenter.clearSf_zc (g : Segmenter) : g.clearSf.zc = g.zc := rfl
@[simp] theorem Segmenter.clearSf_cause (g : Segmenter) : g.clearSf.cause = g.cause := rfl
@[simp] theorem Segmenter.clearSf_flags (g : Segmenter) : g.clearSf.flags = g.flags := rfl
@[simp] theorem Segmenter.clearSf_pktPos (g : Segmenter) : g.clearSf.pktPos = g.pktPos := rfl
@[simp] theorem Segmenter.clearSf_unitLen (g : Segmenter) : g.clearSf.unitLen = g.unitLen := rfl
@[simp] theorem Segmenter.clearSf_unitInfo (g : Segmenter) : g.clearSf.unitInfo = g.unitInfo := rfl
@[simp] theorem Segmenter.clearSf_unitCount (g : Segmenter) : g.clearSf.unitCount = g.unitCount := rfl
@[simp] theorem Segmenter.clearSf_sfCount (g : Segmenter) : g.clearSf.sfCount = 0 := rfl
@[simp] theorem Segmenter.clearSf_sfIndexSize (g : Segmenter) : g.clearSf.sfIndexSize = 0 := rfl
@[simp] theorem Segmenter.clearSf_sfNext (g : Segmenter) : g.clearSf.sfNext = 0 := rfl
@[simp] theorem Segmenter.clearSf_sfBase (g : Segmenter) : g.clearSf.sfBase = 0 := rfl
@[simp] theorem Segmenter.clearSf_sfSize (g : Segmenter) : g.clearSf.sfSize = Vector.replicate 8 0 := rfl

/-! ## softReset -/

@[simp] theorem State.softReset_params (s : State) : s.softReset.params = s.params := rfl
@[simp] theorem State.softReset_pending (s : State) : s.softReset.pending = s.pending := rfl
@[simp] theorem State.softReset_busData (s : State) : s.softReset.busData = s.busData := rfl
@[simp] theorem State.softReset_cmd (s : State) : s.softReset.cmd = 0x04000000 := rfl
@[simp] theorem State.softReset_result (s : State) : s.softReset.result = 0 := rfl
@[simp] theorem State.softReset_lastOk (s : State) : s.softReset.lastOk = true := rfl
@[simp] theorem State.softReset_lastCause (s : State) : s.softReset.lastCause = .ok := rfl
@[simp] theorem State.softReset_arg0 (s : State) : s.softReset.arg0 = 0 := rfl
@[simp] theorem State.softReset_arg1 (s : State) : s.softReset.arg1 = 0 := rfl
@[simp] theorem State.softReset_arg2 (s : State) : s.softReset.arg2 = 0 := rfl
@[simp] theorem State.softReset_cfg (s : State) : s.softReset.cfg = { codec := .h264, inmode := false, valid := false } := rfl
@[simp] theorem State.softReset_pktLen (s : State) : s.softReset.pktLen = 0 := rfl
@[simp] theorem State.softReset_rd (s : State) : s.softReset.rd = Reader.reset := rfl
@[simp] theorem State.softReset_seg (s : State) : s.softReset.seg = Segmenter.reset := rfl
@[simp] theorem State.softReset_pktMem (s : State) : s.softReset.pktMem = s.pktMem := rfl
@[simp] theorem State.softReset_unitMem (s : State) : s.softReset.unitMem = s.unitMem := rfl

/-! ## unbindUnit and release: what they leave alone -/

@[simp] theorem State.unbindUnit_params (s : State) : s.unbindUnit.params = s.params := by unfold State.unbindUnit; split <;> rfl
@[simp] theorem State.unbindUnit_pending (s : State) : s.unbindUnit.pending = s.pending := by unfold State.unbindUnit; split <;> rfl
@[simp] theorem State.unbindUnit_busData (s : State) : s.unbindUnit.busData = s.busData := by unfold State.unbindUnit; split <;> rfl
@[simp] theorem State.unbindUnit_cmd (s : State) : s.unbindUnit.cmd = s.cmd := by unfold State.unbindUnit; split <;> rfl
@[simp] theorem State.unbindUnit_result (s : State) : s.unbindUnit.result = s.result := by unfold State.unbindUnit; split <;> rfl
@[simp] theorem State.unbindUnit_lastOk (s : State) : s.unbindUnit.lastOk = s.lastOk := by unfold State.unbindUnit; split <;> rfl
@[simp] theorem State.unbindUnit_lastCause (s : State) : s.unbindUnit.lastCause = s.lastCause := by unfold State.unbindUnit; split <;> rfl
@[simp] theorem State.unbindUnit_arg0 (s : State) : s.unbindUnit.arg0 = s.arg0 := by unfold State.unbindUnit; split <;> rfl
@[simp] theorem State.unbindUnit_arg1 (s : State) : s.unbindUnit.arg1 = s.arg1 := by unfold State.unbindUnit; split <;> rfl
@[simp] theorem State.unbindUnit_arg2 (s : State) : s.unbindUnit.arg2 = s.arg2 := by unfold State.unbindUnit; split <;> rfl
@[simp] theorem State.unbindUnit_cfg (s : State) : s.unbindUnit.cfg = s.cfg := by unfold State.unbindUnit; split <;> rfl
@[simp] theorem State.unbindUnit_pktLen (s : State) : s.unbindUnit.pktLen = s.pktLen := by unfold State.unbindUnit; split <;> rfl
@[simp] theorem State.unbindUnit_seg (s : State) : s.unbindUnit.seg = s.seg := by unfold State.unbindUnit; split <;> rfl
@[simp] theorem State.unbindUnit_pktMem (s : State) : s.unbindUnit.pktMem = s.pktMem := by unfold State.unbindUnit; split <;> rfl
@[simp] theorem State.unbindUnit_unitMem (s : State) : s.unbindUnit.unitMem = s.unitMem := by unfold State.unbindUnit; split <;> rfl
@[simp] theorem State.release_params (s : State) : s.release.params = s.params := by unfold State.release; split <;> simp
@[simp] theorem State.release_pending (s : State) : s.release.pending = s.pending := by unfold State.release; split <;> simp
@[simp] theorem State.release_busData (s : State) : s.release.busData = s.busData := by unfold State.release; split <;> simp
@[simp] theorem State.release_cmd (s : State) : s.release.cmd = s.cmd := by unfold State.release; split <;> simp
@[simp] theorem State.release_result (s : State) : s.release.result = s.result := by unfold State.release; split <;> simp
@[simp] theorem State.release_lastOk (s : State) : s.release.lastOk = s.lastOk := by unfold State.release; split <;> simp
@[simp] theorem State.release_lastCause (s : State) : s.release.lastCause = s.lastCause := by unfold State.release; split <;> simp
@[simp] theorem State.release_arg0 (s : State) : s.release.arg0 = s.arg0 := by unfold State.release; split <;> simp
@[simp] theorem State.release_arg1 (s : State) : s.release.arg1 = s.arg1 := by unfold State.release; split <;> simp
@[simp] theorem State.release_arg2 (s : State) : s.release.arg2 = s.arg2 := by unfold State.release; split <;> simp
@[simp] theorem State.release_cfg (s : State) : s.release.cfg = s.cfg := by unfold State.release; split <;> simp
@[simp] theorem State.release_pktLen (s : State) : s.release.pktLen = s.pktLen := by unfold State.release; split <;> simp
@[simp] theorem State.release_pktMem (s : State) : s.release.pktMem = s.pktMem := by unfold State.release; split <;> simp
@[simp] theorem State.release_unitMem (s : State) : s.release.unitMem = s.unitMem := by unfold State.release; split <;> simp
@[simp] theorem State.release_seg_result (s : State) : s.release.seg.result = s.seg.result := by unfold State.release; split <;> simp
@[simp] theorem State.release_seg_active (s : State) : s.release.seg.active = s.seg.active := by unfold State.release; split <;> simp
@[simp] theorem State.release_seg_inUnit (s : State) : s.release.seg.inUnit = s.seg.inUnit := by unfold State.release; split <;> simp
@[simp] theorem State.release_seg_zc (s : State) : s.release.seg.zc = s.seg.zc := by unfold State.release; split <;> simp
@[simp] theorem State.release_seg_cause (s : State) : s.release.seg.cause = s.seg.cause := by unfold State.release; split <;> simp
@[simp] theorem State.release_seg_flags (s : State) : s.release.seg.flags = s.seg.flags := by unfold State.release; split <;> simp
@[simp] theorem State.release_seg_pktPos (s : State) : s.release.seg.pktPos = s.seg.pktPos := by unfold State.release; split <;> simp
@[simp] theorem State.release_seg_unitCount (s : State) : s.release.seg.unitCount = s.seg.unitCount := by unfold State.release; split <;> simp
@[simp] theorem State.release_seg_sfCount (s : State) : s.release.seg.sfCount = s.seg.sfCount := by unfold State.release; split <;> simp
@[simp] theorem State.release_seg_sfIndexSize (s : State) : s.release.seg.sfIndexSize = s.seg.sfIndexSize := by unfold State.release; split <;> simp
@[simp] theorem State.release_seg_sfNext (s : State) : s.release.seg.sfNext = s.seg.sfNext := by unfold State.release; split <;> simp
@[simp] theorem State.release_seg_sfBase (s : State) : s.release.seg.sfBase = s.seg.sfBase := by unfold State.release; split <;> simp
@[simp] theorem State.release_seg_sfSize (s : State) : s.release.seg.sfSize = s.seg.sfSize := by unfold State.release; split <;> simp
@[simp] theorem State.unbindUnit_rd_epbEn (s : State) : s.unbindUnit.rd.epbEn = s.rd.epbEn := by unfold State.unbindUnit; split <;> rfl
@[simp] theorem State.release_rd_epbEn (s : State) : s.release.rd.epbEn = s.rd.epbEn := by unfold State.release; split <;> simp
@[simp] theorem State.unbindUnit_rd_src (s : State) : s.unbindUnit.rd.src = s.rd.src := by unfold State.unbindUnit; split <;> rfl
@[simp] theorem State.release_rd_src (s : State) : s.release.rd.src = s.rd.src := by unfold State.release; split <;> simp
@[simp] theorem State.unbindUnit_rd_err (s : State) : s.unbindUnit.rd.err = s.rd.err := by unfold State.unbindUnit; split <;> rfl
@[simp] theorem State.release_rd_err (s : State) : s.release.rd.err = s.rd.err := by unfold State.release; split <;> simp
@[simp] theorem State.unbindUnit_rd_errCause (s : State) : s.unbindUnit.rd.errCause = s.rd.errCause := by unfold State.unbindUnit; split <;> rfl
@[simp] theorem State.release_rd_errCause (s : State) : s.release.rd.errCause = s.rd.errCause := by unfold State.release; split <;> simp
@[simp] theorem State.unbindUnit_rd_errPos (s : State) : s.unbindUnit.rd.errPos = s.rd.errPos := by unfold State.unbindUnit; split <;> rfl
@[simp] theorem State.release_rd_errPos (s : State) : s.release.rd.errPos = s.rd.errPos := by unfold State.release; split <;> simp
@[simp] theorem State.unbindUnit_rd_base (s : State) : s.unbindUnit.rd.base = s.rd.base := by unfold State.unbindUnit; split <;> rfl
@[simp] theorem State.release_rd_base (s : State) : s.release.rd.base = s.rd.base := by unfold State.release; split <;> simp

/-! ## streamFlush -/

@[simp] theorem State.streamFlush_params (s : State) : s.streamFlush.params = s.params := by simp [State.streamFlush]
@[simp] theorem State.streamFlush_pending (s : State) : s.streamFlush.pending = s.pending := by simp [State.streamFlush]
@[simp] theorem State.streamFlush_busData (s : State) : s.streamFlush.busData = s.busData := by simp [State.streamFlush]
@[simp] theorem State.streamFlush_cmd (s : State) : s.streamFlush.cmd = s.cmd := by simp [State.streamFlush]
@[simp] theorem State.streamFlush_result (s : State) : s.streamFlush.result = s.result := by simp [State.streamFlush]
@[simp] theorem State.streamFlush_lastOk (s : State) : s.streamFlush.lastOk = s.lastOk := by simp [State.streamFlush]
@[simp] theorem State.streamFlush_lastCause (s : State) : s.streamFlush.lastCause = s.lastCause := by simp [State.streamFlush]
@[simp] theorem State.streamFlush_arg0 (s : State) : s.streamFlush.arg0 = s.arg0 := by simp [State.streamFlush]
@[simp] theorem State.streamFlush_arg1 (s : State) : s.streamFlush.arg1 = s.arg1 := by simp [State.streamFlush]
@[simp] theorem State.streamFlush_arg2 (s : State) : s.streamFlush.arg2 = s.arg2 := by simp [State.streamFlush]
@[simp] theorem State.streamFlush_cfg (s : State) : s.streamFlush.cfg = s.cfg := by simp [State.streamFlush]
@[simp] theorem State.streamFlush_pktLen (s : State) : s.streamFlush.pktLen = s.pktLen := by simp [State.streamFlush]
@[simp] theorem State.streamFlush_pktMem (s : State) : s.streamFlush.pktMem = s.pktMem := by simp [State.streamFlush]
@[simp] theorem State.streamFlush_unitMem (s : State) : s.streamFlush.unitMem = s.unitMem := by simp [State.streamFlush]
theorem State.streamFlush_rd (s : State) : s.streamFlush.rd = s.unbindUnit.rd := rfl
@[simp] theorem State.streamFlush_seg_result (s : State) : s.streamFlush.seg.result = s.seg.result := by simp [State.streamFlush]
@[simp] theorem State.streamFlush_seg_active (s : State) : s.streamFlush.seg.active = false := by simp [State.streamFlush]
@[simp] theorem State.streamFlush_seg_held (s : State) : s.streamFlush.seg.held = false := by simp [State.streamFlush]
@[simp] theorem State.streamFlush_seg_inUnit (s : State) : s.streamFlush.seg.inUnit = false := by simp [State.streamFlush]
@[simp] theorem State.streamFlush_seg_zc (s : State) : s.streamFlush.seg.zc = 0 := by simp [State.streamFlush]
@[simp] theorem State.streamFlush_seg_cause (s : State) : s.streamFlush.seg.cause = s.seg.cause := by simp [State.streamFlush]
@[simp] theorem State.streamFlush_seg_flags (s : State) : s.streamFlush.seg.flags = s.seg.flags := by simp [State.streamFlush]
@[simp] theorem State.streamFlush_seg_pktPos (s : State) : s.streamFlush.seg.pktPos = 0 := by simp [State.streamFlush]
@[simp] theorem State.streamFlush_seg_unitLen (s : State) : s.streamFlush.seg.unitLen = 0 := by simp [State.streamFlush]
@[simp] theorem State.streamFlush_seg_unitInfo (s : State) : s.streamFlush.seg.unitInfo = 0 := by simp [State.streamFlush]
@[simp] theorem State.streamFlush_seg_unitCount (s : State) : s.streamFlush.seg.unitCount = s.seg.unitCount := by simp [State.streamFlush]
@[simp] theorem State.streamFlush_seg_sfCount (s : State) : s.streamFlush.seg.sfCount = 0 := by simp [State.streamFlush]
@[simp] theorem State.streamFlush_seg_sfIndexSize (s : State) : s.streamFlush.seg.sfIndexSize = 0 := by simp [State.streamFlush]
@[simp] theorem State.streamFlush_seg_sfNext (s : State) : s.streamFlush.seg.sfNext = 0 := by simp [State.streamFlush]
@[simp] theorem State.streamFlush_seg_sfBase (s : State) : s.streamFlush.seg.sfBase = 0 := by simp [State.streamFlush]
@[simp] theorem State.streamFlush_seg_sfSize (s : State) : s.streamFlush.seg.sfSize = Vector.replicate 8 0 := by simp [State.streamFlush]

end Sys2Proof.Machine
end

