-- ==== Sys2Proof/Laws/SegEnds.lean ====
section
/-! SUPPORT. What the endings of SEG_NEXT do, said once: which fields they may write and which of the three outcomes they
report (spec/44_segmenter_nal.md R204, R205; spec/60_exceptions.md R267), and what storing a unit's bytes does. -/

namespace Sys2Proof.Machine

/-! ## Frames -/

/-- `s` with the fields that collecting a unit may change taken from `t`. -/
def State.withCollected (s t : State) : State :=
  { s with
    unitMem := t.unitMem
    seg := { s.seg with
      inUnit := t.seg.inUnit, zc := t.seg.zc, unitLen := t.seg.unitLen, pktPos := t.seg.pktPos } }

/-- `s` with the fields that a mode of SEG_NEXT may change taken from `t`. -/
def State.withUnit (s t : State) : State :=
  { s with
    unitMem := t.unitMem, result := t.result, lastOk := t.lastOk, lastCause := t.lastCause
    seg := { s.seg with
      result := t.seg.result, active := t.seg.active, held := t.seg.held, inUnit := t.seg.inUnit, zc := t.seg.zc,
      cause := t.seg.cause, pktPos := t.seg.pktPos, unitLen := t.seg.unitLen, unitInfo := t.seg.unitInfo,
      unitCount := t.seg.unitCount, sfNext := t.seg.sfNext, sfBase := t.seg.sfBase } }

theorem State.withCollected_trans {s t u : State} (h1 : t = s.withCollected t) (h2 : u = t.withCollected u) :
    u = s.withCollected u :=
  have h : t.withCollected u = (s.withCollected t).withCollected u := congrArg (fun x => State.withCollected x u) h1
  h2.trans h

theorem State.withUnit_trans {s t u : State} (h1 : t = s.withUnit t) (h2 : u = t.withUnit u) : u = s.withUnit u :=
  have h : t.withUnit u = (s.withUnit t).withUnit u := congrArg (fun x => State.withUnit x u) h1
  h2.trans h

theorem State.withUnit_of_withCollected {s t : State} (h : t = s.withCollected t) : t = s.withUnit t := by
  have h1 : s.withUnit t = s.withUnit (s.withCollected t) := congrArg s.withUnit h
  exact h.trans (by rw [h1]; rfl)

/-! ## Outcomes -/

/-- The three ways a mode of SEG_NEXT that ran from `s` ends in `t`. -/
structure SegEnds (s t : State) : Prop where
  frame : t = s.withUnit t
  ends :
    (t.seg.result = .unit ∧ t.seg.held = true ∧ t.result = t.seg.unitLen ∧
      t.seg.unitCount = s.seg.unitCount + 1 ∧ t.lastOk = true ∧ t.lastCause = .ok ∧ t.seg.cause = .ok) ∨
    (t.seg.result = .needData ∧ t.seg.held = s.seg.held ∧ t.seg.unitInfo = s.seg.unitInfo ∧ t.result = s.result ∧
      t.seg.unitCount = s.seg.unitCount ∧ t.seg.active = false ∧ t.lastOk = true ∧ t.lastCause = .ok ∧
      t.seg.cause = .ok) ∨
    (t.seg.result = .error ∧ t.seg.held = s.seg.held ∧ t.seg.unitInfo = s.seg.unitInfo ∧ t.result = s.result ∧
      t.seg.unitCount = s.seg.unitCount ∧ t.lastOk = false ∧ t.lastCause = t.seg.cause ∧ t.seg.cause ≠ .ok)

theorem State.emitUnit_ends (info : Word) (s : State) : SegEnds s (s.emitUnit info) :=
  ⟨rfl, .inl ⟨rfl, rfl, rfl, rfl, rfl, rfl, rfl⟩⟩

theorem State.needData_ends (s : State) (h : s.seg.active = false) : SegEnds s s.needData :=
  ⟨rfl, .inr (.inl ⟨rfl, rfl, rfl, rfl, rfl, h, rfl, rfl, rfl⟩)⟩

theorem State.segFail_ends (c : Cause) (hc : c ≠ .ok) (s : State) : SegEnds s (s.segFail c) :=
  ⟨rfl, .inr (.inr ⟨rfl, rfl, rfl, rfl, rfl, rfl, rfl, hc⟩)⟩

theorem State.dropLongUnit_ends (s : State) : SegEnds s s.dropLongUnit :=
  ⟨rfl, .inr (.inr ⟨rfl, rfl, rfl, rfl, rfl, rfl, rfl, Cause.noConfusion⟩)⟩

theorem State.abandon_ends (c : Cause) (hc : c ≠ .ok) (s : State) : SegEnds s (s.abandon c) :=
  ⟨rfl, .inr (.inr ⟨rfl, rfl, rfl, rfl, rfl, rfl, rfl, hc⟩)⟩

/-- Steps before the ending that keep what the ending reports do not change which ending it is. -/
theorem SegEnds.after {s m t : State} (h : SegEnds m t) (hf : m = s.withUnit m) (h1 : m.seg.held = s.seg.held)
    (h2 : m.seg.unitInfo = s.seg.unitInfo) (h3 : m.result = s.result) (h4 : m.seg.unitCount = s.seg.unitCount) :
    SegEnds s t := by
  refine ⟨State.withUnit_trans hf h.frame, ?_⟩
  rw [← h1, ← h2, ← h3, ← h4]
  exact h.ends

/-! ## Stored bytes -/

/-- UNIT_LEN counts the collected bytes, and is 0 outside a unit. -/
structure State.Collecting (s : State) : Prop where
  max : s.params.unitMax < 2 ^ 32
  len : s.seg.unitLen.toNat ≤ s.params.unitMax
  idle : s.seg.inUnit = false → s.seg.unitLen = 0

/-- From `s` to `t` only the bytes UNIT[UNIT_LEN of s .. UNIT_LEN of t) are stored. -/
structure Stores (s t : State) : Prop where
  params : t.params = s.params
  grows : s.seg.unitLen.toNat ≤ t.seg.unitLen.toNat
  below : ∀ i, i < s.seg.unitLen.toNat → t.unitByte i = s.unitByte i
  above : ∀ i, t.seg.unitLen.toNat ≤ i → t.unitByte i = s.unitByte i
  wf : Memory.wf s.unitMem = true → Memory.wf t.unitMem = true
  inside : Memory.below s.params.unitMax s.unitMem → Memory.below s.params.unitMax t.unitMem

theorem Stores.of_same {s t : State} (hp : t.params = s.params) (hm : t.unitMem = s.unitMem)
    (hl : s.seg.unitLen.toNat ≤ t.seg.unitLen.toNat) : Stores s t where
  params := hp
  grows := hl
  below := fun i _ => State.unitByte_congr s t hm hp i
  above := fun i _ => State.unitByte_congr s t hm hp i
  wf := fun h => hm ▸ h
  inside := fun h => hm ▸ h

theorem Stores.refl (s : State) : Stores s s := Stores.of_same rfl rfl le_rfl

theorem Stores.trans {s t u : State} (h1 : Stores s t) (h2 : Stores t u) : Stores s u where
  params := h2.params.trans h1.params
  grows := le_trans h1.grows h2.grows
  below := fun i hi => (h2.below i (lt_of_lt_of_le hi h1.grows)).trans (h1.below i hi)
  above := fun i hi => (h2.above i hi).trans (h1.above i (le_trans h2.grows hi))
  wf := fun h => h2.wf (h1.wf h)
  inside := fun h => by
    have := h2.inside
    rw [h1.params] at this
    exact this (h1.inside h)

/-- What a mode of SEG_NEXT keeps, from `s` where it started to `t` where it ended: the memory's form and bounds, the bound on
UNIT_LEN, and every byte outside the unit it collected. -/
structure SegKeeps (s t : State) : Prop where
  wf : Memory.wf s.unitMem = true → Memory.wf t.unitMem = true
  inside : Memory.below s.params.unitMax s.unitMem → Memory.below s.params.unitMax t.unitMem
  len : t.seg.unitLen.toNat ≤ s.params.unitMax
  idle : t.seg.inUnit = false → t.seg.held = false → t.seg.unitLen = 0
  below : ∀ i, i < s.seg.unitLen.toNat → t.unitByte i = s.unitByte i
  grows : t.seg.result ≠ .error → s.seg.unitLen.toNat ≤ t.seg.unitLen.toNat
  above : t.seg.result ≠ .error → ∀ i, t.seg.unitLen.toNat ≤ i → t.unitByte i = s.unitByte i

theorem Stores.emitUnit_keeps {s m : State} (h : Stores s m) (info : Word) (hl : m.seg.unitLen.toNat ≤ s.params.unitMax) :
    SegKeeps s (m.emitUnit info) where
  wf := h.wf
  inside := h.inside
  len := hl
  idle := fun _ h => Bool.noConfusion h
  below := h.below
  grows := fun _ => h.grows
  above := fun _ => h.above

theorem Stores.needData_keeps {s m : State} (h : Stores s m) (hl : m.seg.unitLen.toNat ≤ s.params.unitMax)
    (hi : m.seg.inUnit = false → m.seg.unitLen = 0) : SegKeeps s m.needData where
  wf := h.wf
  inside := h.inside
  len := hl
  idle := fun h _ => hi h
  below := h.below
  grows := fun _ => h.grows
  above := fun _ => h.above

theorem Stores.error_keeps {s m t : State} (h : Stores s m) (hm : t.unitMem = m.unitMem) (hp : t.params = m.params)
    (h0 : t.seg.unitLen = 0) (he : t.seg.result = .error) : SegKeeps s t where
  wf := fun hw => hm ▸ h.wf hw
  inside := fun hb => hm ▸ h.inside hb
  len := by simp [h0]
  idle := fun _ _ => h0
  below := fun i hi => (State.unitByte_congr m t hm hp i).trans (h.below i hi)
  grows := fun hn => absurd he hn
  above := fun hn => absurd he hn

theorem SegKeeps.after {s m t : State} (h1 : Stores s m) (h2 : SegKeeps m t) : SegKeeps s t where
  wf := fun h => h2.wf (h1.wf h)
  inside := fun h => by
    have := h2.inside
    rw [h1.params] at this
    exact this (h1.inside h)
  len := h1.params ▸ h2.len
  idle := h2.idle
  below := fun i hi => (h2.below i (lt_of_lt_of_le hi h1.grows)).trans (h1.below i hi)
  grows := fun he => le_trans h1.grows (h2.grows he)
  above := fun he i hi => (h2.above he i hi).trans (h1.above i (le_trans (h2.grows he) hi))

/-- One byte appended below UNIT_MAX. -/
theorem State.appendByte_unitByte (b : Byte) (s : State) (i : Nat) :
    (s.appendByte b).unitByte i =
      if i = s.seg.unitLen.toNat ∧ i < s.params.unitMax then b else s.unitByte i := by
  simp only [State.unitByte, State.appendByte_params, State.appendByte_unitMem, Memory.byte_write]
  by_cases h : i < s.params.unitMax <;> simp [h]

theorem State.appendByte_len (b : Byte) (s : State) (hm : s.params.unitMax < 2 ^ 32)
    (h : s.seg.unitLen.toNat + 1 ≤ s.params.unitMax) :
    (s.appendByte b).seg.unitLen.toNat = s.seg.unitLen.toNat + 1 := by
  rw [State.appendByte_seg_unitLen, Word.ofNat, BitVec.toNat_ofNat, Nat.mod_eq_of_lt (by omega)]

theorem State.appendByte_stores (b : Byte) (s : State) (hm : s.params.unitMax < 2 ^ 32)
    (h : s.seg.unitLen.toNat + 1 ≤ s.params.unitMax) : Stores s (s.appendByte b) where
  params := rfl
  grows := by rw [State.appendByte_len b s hm h]; omega
  below := fun i hi => by rw [State.appendByte_unitByte, if_neg (by omega)]
  above := fun i hi => by
    rw [State.appendByte_len b s hm h] at hi
    rw [State.appendByte_unitByte, if_neg (by omega)]
  wf := fun hw => Memory.wf_write _ _ _ hw
  inside := fun hb => Memory.below_write _ _ _ _ (by omega) hb

theorem State.appendZeros_frame (n : Nat) (s : State) :
    State.appendZeros n s =
      { s with
        unitMem := (State.appendZeros n s).unitMem
        seg := { s.seg with unitLen := (State.appendZeros n s).seg.unitLen } } := by
  induction n generalizing s with
  | zero => rfl
  | succ n ih =>
    have h := ih (s.appendByte 0)
    simp only [State.appendZeros]
    rw [h]
    rfl

theorem State.appendZeros_len (n : Nat) (s : State) (hm : s.params.unitMax < 2 ^ 32)
    (h : s.seg.unitLen.toNat + n ≤ s.params.unitMax) :
    (State.appendZeros n s).seg.unitLen.toNat = s.seg.unitLen.toNat + n := by
  induction n generalizing s with
  | zero => rfl
  | succ n ih =>
    have hl := State.appendByte_len 0 s hm (by omega)
    rw [State.appendZeros, ih (s.appendByte 0) hm (by rw [hl, State.appendByte_params]; omega), hl]
    omega

theorem State.appendZeros_stores (n : Nat) (s : State) (hm : s.params.unitMax < 2 ^ 32)
    (h : s.seg.unitLen.toNat + n ≤ s.params.unitMax) : Stores s (State.appendZeros n s) := by
  induction n generalizing s with
  | zero => exact Stores.refl s
  | succ n ih =>
    have hl := State.appendByte_len 0 s hm (by omega)
    exact (State.appendByte_stores 0 s hm (by omega)).trans
      (ih (s.appendByte 0) hm (by rw [hl, State.appendByte_params]; omega))

theorem State.appendZeros_unitByte (n : Nat) (s : State) (hm : s.params.unitMax < 2 ^ 32)
    (h : s.seg.unitLen.toNat + n ≤ s.params.unitMax) (i : Nat) :
    (State.appendZeros n s).unitByte i =
      if s.seg.unitLen.toNat ≤ i ∧ i < s.seg.unitLen.toNat + n then 0 else s.unitByte i := by
  induction n generalizing s with
  | zero => rw [State.appendZeros, if_neg (by omega)]
  | succ n ih =>
    have hl := State.appendByte_len 0 s hm (by omega)
    rw [State.appendZeros, ih (s.appendByte 0) hm (by rw [hl, State.appendByte_params]; omega), hl,
      State.appendByte_unitByte]
    by_cases h1 : i = s.seg.unitLen.toNat
    · rw [if_neg (by omega), if_pos (by omega), if_pos (by omega)]
    · rw [if_neg (by omega : ¬ (i = s.seg.unitLen.toNat ∧ i < s.params.unitMax))]
      by_cases h2 : s.seg.unitLen.toNat + 1 ≤ i ∧ i < s.seg.unitLen.toNat + 1 + n
      · rw [if_pos h2, if_pos (by omega)]
      · rw [if_neg h2, if_neg (by omega)]

/-- A copied unit, byte by byte (spec/44_segmenter_nal.md R210, R212). -/
theorem State.copyUnit_unitByte (start n : Nat) (s : State) (h : n ≤ s.params.unitMax) (i : Nat) :
    (s.copyUnit start n).unitByte i = if i < n then s.pktByte (start + i) else s.unitByte i := by
  simp only [State.unitByte, State.copyUnit_params, State.copyUnit_unitMem, Memory.byte_writeBytes, Nat.zero_le, if_true,
    Nat.sub_zero, List.getD_eq_getElem?_getD, State.pktBytes_getElem?]
  by_cases h1 : i < n
  · rw [if_pos (by omega), if_pos h1, if_pos h1]; rfl
  · rw [if_neg h1, if_neg h1]; rfl

theorem State.copyUnit_len (start n : Nat) (s : State) (hm : s.params.unitMax < 2 ^ 32) (h : n ≤ s.params.unitMax) :
    (s.copyUnit start n).seg.unitLen.toNat = n := by
  rw [State.copyUnit_seg_unitLen, Word.ofNat, BitVec.toNat_ofNat, Nat.mod_eq_of_lt (by omega)]

/-- Copying a unit where none is collected. -/
theorem State.copyUnit_stores (start n : Nat) (s : State) (hm : s.params.unitMax < 2 ^ 32) (h : n ≤ s.params.unitMax)
    (h0 : s.seg.unitLen = 0) : Stores s (s.copyUnit start n) where
  params := rfl
  grows := by simp [h0]
  below := fun i hi => by simp [h0] at hi
  above := fun i hi => by
    rw [State.copyUnit_len start n s hm h] at hi
    rw [State.copyUnit_unitByte start n s h, if_neg (by omega)]
  wf := fun hw => Memory.wf_writeBytes _ _ _ hw
  inside := fun hb => Memory.below_writeBytes _ _ _ _ (by rw [State.pktBytes_length]; omega) hb

/-! ## Release -/

theorem State.unbindUnit_eq (s : State) : s.unbindUnit = { s with rd := s.unbindUnit.rd } := by
  unfold State.unbindUnit; split <;> rfl

/-- A binding to PKT_MEM is left alone; one to UNIT_MEM is cleared (spec/10_state.md R46). -/
theorem State.unbindUnit_rd_eq (s : State) :
    s.unbindUnit.rd =
      if s.rd.src = .unit then { s.rd with unitValid := false, payload := [], pos := 0, rawLen := 0 } else s.rd := by
  unfold State.unbindUnit; split <;> rfl

/-- Everything Release can change (spec/44_segmenter_nal.md R204). -/
theorem State.release_eq (s : State) :
    s.release =
      { s with
        rd := if s.seg.held then s.unbindUnit.rd else s.rd
        seg := { s.seg with
          held := false
          unitLen := if s.seg.held then 0 else s.seg.unitLen
          unitInfo := if s.seg.held then 0 else s.seg.unitInfo } } := by
  unfold State.release
  cases h : s.seg.held
  · simp only [Bool.false_eq_true, if_false]
    rw [← h]
  · simp only [if_true]
    unfold State.unbindUnit
    split <;> rfl

end Sys2Proof.Machine
end

