-- ==== Sys2Proof/Laws/Scan.lean ====
section
/-! SUPPORT. What the start-code scanner can do (spec/44_segmenter_nal.md R206 to R208): one byte, the whole scan, and the
end of a packet. -/

namespace Sys2Proof.Machine

/-! ## One byte -/

/-- A scanned byte changes the collected unit and the scanner state only. -/
theorem scanByte_frame (b : Byte) (s : State) :
    (scanByte b s).2 = s.withCollected (scanByte b s).2 ∧ (scanByte b s).2.seg.pktPos = s.seg.pktPos := by
  have hz : ∀ n (u : State), State.appendZeros n u = u.withCollected (State.appendZeros n u) ∧
      (State.appendZeros n u).seg.pktPos = u.seg.pktPos := fun n u => by
    rw [State.appendZeros_frame]; exact ⟨rfl, rfl⟩
  unfold scanByte
  split
  · split
    · exact ⟨rfl, rfl⟩
    · split
      · exact ⟨rfl, rfl⟩
      · split
        · split <;> exact ⟨rfl, rfl⟩
        · exact ⟨rfl, rfl⟩
  · split
    · simp only; split <;> exact ⟨rfl, rfl⟩
    · simp only
      split
      · split
        · exact ⟨rfl, rfl⟩
        · have h1 : s.setZc 0 = s.withCollected (s.setZc 0) := rfl
          have h2 := (hz s.seg.zc.val (s.setZc 0))
          have h3 : ((s.setZc 0).appendZeros s.seg.zc.val).appendByte b =
              ((s.setZc 0).appendZeros s.seg.zc.val).withCollected
                (((s.setZc 0).appendZeros s.seg.zc.val).appendByte b) := rfl
          exact ⟨State.withCollected_trans h1 (State.withCollected_trans h2.1 h3), h2.2⟩
      · exact ⟨rfl, rfl⟩

/-- A first or second 0x00 is counted. -/
theorem scanByte_count (s : State) (hz : s.seg.zc ≠ 2) :
    scanByte 0x00 s = (.none, s.setZc (if s.seg.zc = 0 then 1 else 2)) := by
  have h : s.seg.zc = 0 ∨ s.seg.zc = 1 := by
    generalize s.seg.zc = z at hz ⊢
    revert z; decide
  rcases h with h | h <;> simp [scanByte, h]

/-- A third 0x00 is a byte of the unit being collected. -/
theorem scanByte_zero (s : State) (hz : s.seg.zc = 2) :
    scanByte 0x00 s =
      if s.seg.inUnit then
        if s.seg.unitLen.toNat + 1 > s.params.unitMax then (.overflow, s.scanOverflow) else (.none, s.appendByte 0x00)
      else (.none, s) := by
  simp [scanByte, hz]

/-- A start code ends the unit being collected, or opens one. -/
theorem scanByte_startCode (s : State) (hz : s.seg.zc = 2) :
    scanByte 0x01 s =
      if s.seg.inUnit = true ∧ s.seg.unitLen.toNat > 0 then (.unit, s.setZc 0)
      else (.none, { s.setZc 0 with seg := { (s.setZc 0).seg with inUnit := true, unitLen := 0 } }) := by
  simp [scanByte, hz]

/-- Any other byte is a byte of the unit being collected, after the zeros counted before it. -/
theorem scanByte_data (b : Byte) (s : State) (hb : b ≠ 0x00) (h1 : ¬ (b = 0x01 ∧ s.seg.zc = 2)) :
    scanByte b s =
      if s.seg.inUnit then
        if s.seg.unitLen.toNat + s.seg.zc.val + 1 > s.params.unitMax then (.overflow, (s.setZc 0).scanOverflow)
        else (.none, ((s.setZc 0).appendZeros s.seg.zc.val).appendByte b)
      else (.none, s.setZc 0) := by
  rw [scanByte, if_neg hb, if_neg h1]
  rfl

/-- The bytes the scanner keeps back and stores with a data byte. -/
theorem State.appendRun_spec (b : Byte) (n : Nat) (s : State) (hm : s.params.unitMax < 2 ^ 32)
    (h : s.seg.unitLen.toNat + n + 1 ≤ s.params.unitMax) :
    ((s.appendZeros n).appendByte b).seg.unitLen.toNat = s.seg.unitLen.toNat + n + 1 ∧
    ((s.appendZeros n).appendByte b).params = s.params ∧
    ((s.appendZeros n).appendByte b).seg.inUnit = s.seg.inUnit ∧
    ((s.appendZeros n).appendByte b).seg.zc = s.seg.zc ∧
    Stores s ((s.appendZeros n).appendByte b) ∧
    ∀ i, ((s.appendZeros n).appendByte b).unitByte i =
      if s.seg.unitLen.toNat ≤ i ∧ i < s.seg.unitLen.toNat + n then 0
      else if i = s.seg.unitLen.toNat + n then b else s.unitByte i := by
  have hz := State.appendZeros_len n s hm (by omega)
  have hp : (s.appendZeros n).params = s.params := by rw [State.appendZeros_frame]
  have hu : (s.appendZeros n).seg.inUnit = s.seg.inUnit := by rw [State.appendZeros_frame]
  have hc : (s.appendZeros n).seg.zc = s.seg.zc := by rw [State.appendZeros_frame]
  have hl := State.appendByte_len b (s.appendZeros n) (by rw [hp]; exact hm) (by rw [hz, hp]; omega)
  refine ⟨by rw [hl, hz], hp, hu, hc, ?_, fun i => ?_⟩
  · exact (State.appendZeros_stores n s hm (by omega)).trans
      (State.appendByte_stores b _ (by rw [hp]; exact hm) (by rw [hz, hp]; omega))
  · rw [State.appendByte_unitByte, State.appendZeros_unitByte n s hm (by omega), hz, hp]
    by_cases h1 : i = s.seg.unitLen.toNat + n
    · rw [if_pos (by omega), if_neg (by omega), if_pos h1]
    · rw [if_neg (by omega), if_neg h1]

/-- The three results of a scanned byte. -/
theorem scanByte_cases (b : Byte) (s : State) (hs : s.Collecting) :
    ((scanByte b s).1 = .none ∧ (scanByte b s).2.Collecting ∧ Stores s (scanByte b s).2) ∨
    ((scanByte b s).1 = .unit ∧ (scanByte b s).2 = s.setZc 0 ∧ s.seg.inUnit = true ∧ 0 < s.seg.unitLen.toNat) ∨
    ((scanByte b s).1 = .overflow ∧ (scanByte b s).2.unitMem = s.unitMem ∧ (scanByte b s).2.params = s.params ∧
      (scanByte b s).2.seg.unitLen = 0 ∧ (scanByte b s).2.seg.inUnit = false) := by
  obtain ⟨hm, hl, hi⟩ := hs
  have same : ∀ z, (s.setZc z).Collecting ∧ Stores s (s.setZc z) := fun z =>
    ⟨⟨hm, hl, hi⟩, Stores.of_same rfl rfl le_rfl⟩
  by_cases hb : b = 0x00
  · subst hb
    by_cases hz : s.seg.zc = 2
    · rw [scanByte_zero s hz]
      cases hu : s.seg.inUnit
      · exact .inl ⟨rfl, ⟨hm, hl, hi⟩, Stores.refl s⟩
      · rw [if_pos rfl]
        by_cases hle : s.seg.unitLen.toNat + 1 > s.params.unitMax
        · rw [if_pos hle]
          exact .inr (.inr ⟨rfl, rfl, rfl, rfl, rfl⟩)
        · rw [if_neg hle]
          have hlen := State.appendByte_len 0 s hm (by omega)
          refine .inl ⟨rfl, ⟨hm, ?_, fun h => ?_⟩, State.appendByte_stores 0 s hm (by omega)⟩
          · rw [hlen]; exact Nat.le_of_not_lt hle
          · rw [State.appendByte_seg_inUnit, hu] at h
            cases h
    · rw [scanByte_count s hz]
      exact .inl ⟨rfl, same _⟩
  · by_cases h1 : b = 0x01 ∧ s.seg.zc = 2
    · obtain ⟨rfl, hz⟩ := h1
      rw [scanByte_startCode s hz]
      by_cases h : s.seg.inUnit = true ∧ s.seg.unitLen.toNat > 0
      · rw [if_pos h]
        exact .inr (.inl ⟨rfl, rfl, h.1, h.2⟩)
      · rw [if_neg h]
        have h0 : s.seg.unitLen = 0 := by
          cases hu : s.seg.inUnit
          · exact hi hu
          · rw [hu] at h
            exact BitVec.eq_of_toNat_eq (by simp at h; simp [h])
        exact .inl ⟨rfl, ⟨hm, Nat.zero_le _, fun _ => rfl⟩, Stores.of_same rfl rfl (by simp [h0])⟩
    · rw [scanByte_data b s hb h1]
      cases hu : s.seg.inUnit
      · exact .inl ⟨rfl, same 0⟩
      · rw [if_pos rfl]
        by_cases hle : s.seg.unitLen.toNat + s.seg.zc.val + 1 > s.params.unitMax
        · rw [if_pos hle]
          exact .inr (.inr ⟨rfl, rfl, rfl, rfl, rfl⟩)
        · rw [if_neg hle]
          obtain ⟨r1, r2, r3, _, r5, _⟩ := State.appendRun_spec b s.seg.zc.val (s.setZc 0) hm (Nat.le_of_not_lt hle)
          refine .inl ⟨rfl, ⟨?_, ?_, fun h => ?_⟩, (same 0).2.trans r5⟩
          · simp only [r2]; exact hm
          · simp only [r1, r2]; exact Nat.le_of_not_lt hle
          · rw [r3] at h
            exact absurd h (by simp [hu])

/-! ## The end of a packet -/

/-- `PKT_ACTIVE <- 0` (spec/44_segmenter_nal.md R208). -/
def State.closePacket (s : State) : State := { s with seg := { s.seg with active := false } }

/-- `ZC <- 0; IN_UNIT <- 0` after the packet is used up (spec/44_segmenter_nal.md R208). -/
def State.closeUnit (s : State) : State :=
  { s with seg := { s.seg with active := false, zc := 0, inUnit := false } }

/-- Without EOP and EOS the scanner state carries over. -/
theorem State.endOfPacket_carry (s : State) (h : s.seg.flags.eop = false) (h' : s.seg.flags.eos = false) :
    s.endOfPacket = s.closePacket.needData := by
  simp [State.endOfPacket, h, h', State.closePacket]

/-- With EOP or EOS and no unit open nothing is left. -/
theorem State.endOfPacket_idle (s : State) (h : s.seg.flags.eop = true ∨ s.seg.flags.eos = true)
    (hu : s.seg.inUnit = false) : s.endOfPacket = (s.closePacket.setZc 0).needData := by
  simp [State.endOfPacket, h, hu, State.closePacket]

/-- With EOP or EOS the open unit ends, the zeros counted last included. -/
theorem State.endOfPacket_close (s : State) (h : s.seg.flags.eop = true ∨ s.seg.flags.eos = true)
    (hu : s.seg.inUnit = true) :
    s.endOfPacket =
      if s.seg.unitLen.toNat + s.seg.zc.val > s.params.unitMax then s.closeUnit.dropLongUnit
      else if (s.closeUnit.appendZeros s.seg.zc.val).seg.unitLen.toNat > 0 then
        (s.closeUnit.appendZeros s.seg.zc.val).emitUnit 0
      else (s.closeUnit.appendZeros s.seg.zc.val).needData := by
  simp [State.endOfPacket, h, hu, State.closeUnit, State.setZc]

/-- EndOfPacket ends SEG_NEXT, and the packet with it. -/
theorem State.endOfPacket_ends (s : State) :
    SegEnds s s.endOfPacket ∧ s.endOfPacket.seg.active = false ∧ s.endOfPacket.seg.pktPos = s.seg.pktPos ∧
    (s.endOfPacket.seg.result = .error → s.endOfPacket.seg.cause = .unitTooLong) ∧
    s.endOfPacket.seg.sfNext = s.seg.sfNext := by
  have hc : SegEnds s s.closePacket.needData :=
    (State.needData_ends _ rfl).after rfl rfl rfl rfl rfl
  have hz : SegEnds s (s.closePacket.setZc 0).needData :=
    (State.needData_ends _ rfl).after rfl rfl rfl rfl rfl
  by_cases he : s.seg.flags.eop = true ∨ s.seg.flags.eos = true
  · cases hu : s.seg.inUnit
    · rw [State.endOfPacket_idle s he hu]
      exact ⟨hz, rfl, rfl, fun h => (by cases h), rfl⟩
    · rw [State.endOfPacket_close s he hu]
      split
      · exact ⟨(State.dropLongUnit_ends s.closeUnit).after rfl rfl rfl rfl rfl, rfl, rfl, fun _ => rfl, rfl⟩
      · generalize hm : s.closeUnit.appendZeros s.seg.zc.val = m
        have hf := State.appendZeros_frame s.seg.zc.val s.closeUnit
        rw [hm] at hf
        have ha : m.seg.active = false := by rw [hf]; rfl
        have hp : m.seg.pktPos = s.seg.pktPos := by rw [hf]; rfl
        have h0 : s.closeUnit = s.withUnit s.closeUnit := rfl
        have h1 : m = s.closeUnit.withUnit m := by
          have : s.closeUnit.withUnit m = s.closeUnit.withUnit { s.closeUnit with
            unitMem := m.unitMem, seg := { s.closeUnit.seg with unitLen := m.seg.unitLen } } :=
            congrArg s.closeUnit.withUnit hf
          exact hf.trans (this.trans rfl).symm
        have h2 := State.withUnit_trans h0 h1
        have h3 : m.seg.held = s.seg.held := by rw [hf]; rfl
        have h4 : m.seg.unitInfo = s.seg.unitInfo := by rw [hf]; rfl
        have h5 : m.result = s.result := by rw [hf]; rfl
        have h6 : m.seg.unitCount = s.seg.unitCount := by rw [hf]; rfl
        have h7 : m.seg.sfNext = s.seg.sfNext := by rw [hf]; rfl
        split
        · exact ⟨(State.emitUnit_ends 0 m).after h2 h3 h4 h5 h6, ha, hp, fun h => (by cases h), h7⟩
        · exact ⟨(State.needData_ends m ha).after h2 h3 h4 h5 h6, ha, hp, fun h => (by cases h), h7⟩
  · have h1 : s.seg.flags.eop = false := by cases h : s.seg.flags.eop <;> simp_all
    have h2 : s.seg.flags.eos = false := by cases h : s.seg.flags.eos <;> simp_all
    rw [State.endOfPacket_carry s h1 h2]
    exact ⟨hc, rfl, rfl, fun h => (by cases h), rfl⟩

/-- EndOfPacket stores nothing but the counted zeros at the unit's end. -/
theorem State.endOfPacket_keeps (s : State) (hs : s.Collecting) : SegKeeps s s.endOfPacket := by
  have same : ∀ t : State, t.params = s.params → t.unitMem = s.unitMem → t.seg.unitLen = s.seg.unitLen → Stores s t :=
    fun t h1 h2 h3 => Stores.of_same h1 h2 (by rw [h3])
  by_cases he : s.seg.flags.eop = true ∨ s.seg.flags.eos = true
  · cases hu : s.seg.inUnit
    · rw [State.endOfPacket_idle s he hu]
      exact (same (s.closePacket.setZc 0) rfl rfl rfl).needData_keeps hs.len fun h => hs.idle h
    · rw [State.endOfPacket_close s he hu]
      split
      · exact (same s.closeUnit rfl rfl rfl).error_keeps rfl rfl rfl rfl
      · rename_i hle
        have hfit : s.closeUnit.seg.unitLen.toNat + s.seg.zc.val ≤ s.closeUnit.params.unitMax := Nat.le_of_not_lt hle
        have hst := (same s.closeUnit rfl rfl rfl).trans (State.appendZeros_stores s.seg.zc.val s.closeUnit hs.max hfit)
        have hl : (s.closeUnit.appendZeros s.seg.zc.val).seg.unitLen.toNat ≤ s.params.unitMax := by
          rw [State.appendZeros_len s.seg.zc.val s.closeUnit hs.max hfit]; exact hfit
        split
        · exact hst.emitUnit_keeps 0 hl
        · rename_i h0
          exact hst.needData_keeps hl fun _ => BitVec.eq_of_toNat_eq (by simpa using h0)
  · have h1 : s.seg.flags.eop = false := by cases h : s.seg.flags.eop <;> simp_all
    have h2 : s.seg.flags.eos = false := by cases h : s.seg.flags.eos <;> simp_all
    rw [State.endOfPacket_carry s h1 h2]
    exact (same s.closePacket rfl rfl rfl).needData_keeps hs.len fun h => hs.idle h

/-! ## The scan -/

/-- All that the byte-stream mode can do: how it ends, and that it never reads past the packet. -/
theorem nalScan_ends (left : Nat) (s : State) :
    SegEnds s (nalScan left s) ∧
    (s.seg.pktPos.toNat ≤ s.pktLen.toNat → (nalScan left s).seg.pktPos.toNat ≤ s.pktLen.toNat) ∧
    ((nalScan left s).seg.result = .error → (nalScan left s).seg.cause = .unitTooLong) ∧
    (nalScan left s).seg.sfNext = s.seg.sfNext := by
  induction left generalizing s with
  | zero =>
    obtain ⟨h1, _, h3, h4, h5⟩ := State.endOfPacket_ends s
    exact ⟨h1, fun h => by rw [nalScan, h3]; exact h, h4, h5⟩
  | succ left ih =>
    rw [nalScan]
    split
    · obtain ⟨h1, _, h3, h4, h5⟩ := State.endOfPacket_ends s
      exact ⟨h1, fun h => by rw [h3]; exact h, h4, h5⟩
    · rename_i hlt
      obtain ⟨hf, hp⟩ := scanByte_frame s.consumeByte.1 s.consumeByte.2
      have hpos : s.consumeByte.2.seg.pktPos.toNat = s.seg.pktPos.toNat + 1 := by
        show (s.seg.pktPos + 1).toNat = _
        have := s.pktLen.isLt
        rw [BitVec.toNat_add]
        simp; omega
      generalize hr : scanByte s.consumeByte.1 s.consumeByte.2 = r at hf hp
      obtain ⟨res, t⟩ := r
      simp only at hf hp
      have h0 : s.consumeByte.2 = s.withCollected s.consumeByte.2 := rfl
      have hft := State.withCollected_trans h0 hf
      have h2 := State.withUnit_of_withCollected hft
      have h3 : t.seg.held = s.seg.held := by rw [hft]; rfl
      have h4 : t.seg.unitInfo = s.seg.unitInfo := by rw [hft]; rfl
      have h5 : t.result = s.result := by rw [hft]; rfl
      have h6 : t.seg.unitCount = s.seg.unitCount := by rw [hft]; rfl
      have h8 : t.seg.sfNext = s.seg.sfNext := by rw [hft]; rfl
      have h7 : t.pktLen = s.pktLen := by rw [hft]; rfl
      have hpt : t.seg.pktPos.toNat ≤ s.pktLen.toNat := by rw [hp, hpos]; omega
      cases res with
      | none =>
        obtain ⟨i1, i2, i3, i4⟩ := ih t
        exact ⟨i1.after h2 h3 h4 h5 h6, fun _ => (by rw [h7] at i2; exact i2 hpt), i3, i4.trans h8⟩
      | unit =>
        exact ⟨(State.emitUnit_ends 0 t).after h2 h3 h4 h5 h6, fun _ => hpt, fun h => (by cases h), h8⟩
      | overflow =>
        exact ⟨(State.segFail_ends .unitTooLong Cause.noConfusion t).after h2 h3 h4 h5 h6, fun _ => hpt, fun _ => rfl, h8⟩

/-- The bytes the byte-stream mode stores. -/
theorem nalScan_keeps (left : Nat) (s : State) (hs : s.Collecting) : SegKeeps s (nalScan left s) := by
  induction left generalizing s with
  | zero => exact State.endOfPacket_keeps s hs
  | succ left ih =>
    rw [nalScan]
    split
    · exact State.endOfPacket_keeps s hs
    · have hc : s.consumeByte.2.Collecting := ⟨hs.max, hs.len, hs.idle⟩
      have hst : Stores s s.consumeByte.2 := Stores.of_same rfl rfl le_rfl
      have hr := scanByte_cases s.consumeByte.1 s.consumeByte.2 hc
      generalize scanByte s.consumeByte.1 s.consumeByte.2 = r at hr
      obtain ⟨res, t⟩ := r
      simp only at hr
      rcases hr with ⟨rfl, h1, h2⟩ | ⟨rfl, rfl, _, _⟩ | ⟨rfl, h1, h2, h3, _⟩
      · exact SegKeeps.after (hst.trans h2) (ih t h1)
      · exact (hst.trans (Stores.of_same (t := s.consumeByte.2.setZc 0) rfl rfl le_rfl)).emitUnit_keeps 0 hs.len
      · exact hst.error_keeps h1 h2 h3 rfl

end Sys2Proof.Machine
end

