-- ==== Sys2Proof/Laws/Segment.lean ====
section
/-! SUPPORT. What SEG_NEXT can do in each mode, said once (spec/44_segmenter_nal.md R204 to R211, spec/45_segmenter_obu.md,
spec/46_segmenter_vp9.md). -/

namespace Sys2Proof.Machine

/-- What one mode of SEG_NEXT does from `s`, ending in `t`, when no unit is being collected. -/
structure ModeEnds (s t : State) : Prop where
  ends : SegEnds s t
  scanner : t.seg.inUnit = s.seg.inUnit ∧ t.seg.zc = s.seg.zc
  stored : t.seg.result = .error → t.unitMem = s.unitMem
  keeps : s.Collecting → s.seg.unitLen = 0 → SegKeeps s t
  position : s.seg.pktPos.toNat ≤ s.pktLen.toNat → t.seg.pktPos.toNat ≤ s.pktLen.toNat
  frames : s.seg.sfNext.toNat ≤ s.seg.sfCount.toNat → t.seg.sfNext.toNat ≤ s.seg.sfCount.toNat

theorem State.abandon_mode (c : Cause) (hc : c ≠ .ok) (s : State) : ModeEnds s (s.abandon c) where
  ends := State.abandon_ends c hc s
  scanner := ⟨rfl, rfl⟩
  stored := fun _ => rfl
  keeps := fun _ _ => (Stores.refl s).error_keeps rfl rfl rfl rfl
  position := fun _ => le_rfl
  frames := id

/-- A unit longer than UNIT_MAX is dropped after PKT_POS moved on. -/
theorem State.dropLongUnit_mode {s m : State} (h : m = s.withUnit m) (h1 : m.seg.held = s.seg.held)
    (h2 : m.seg.unitInfo = s.seg.unitInfo) (h3 : m.result = s.result) (h4 : m.seg.unitCount = s.seg.unitCount)
    (hu : m.unitMem = s.unitMem) (hs : m.seg.inUnit = s.seg.inUnit ∧ m.seg.zc = s.seg.zc)
    (hl : m.seg.unitLen = s.seg.unitLen)
    (hp : s.seg.pktPos.toNat ≤ s.pktLen.toNat → m.seg.pktPos.toNat ≤ s.pktLen.toNat)
    (hf : s.seg.sfNext.toNat ≤ s.seg.sfCount.toNat → m.seg.sfNext.toNat ≤ s.seg.sfCount.toNat) : ModeEnds s m.dropLongUnit where
  ends := (State.dropLongUnit_ends m).after h h1 h2 h3 h4
  scanner := hs
  stored := fun _ => hu
  keeps := fun _ _ => (Stores.of_same (by rw [h]; rfl) hu (by rw [hl])).error_keeps rfl rfl rfl rfl
  position := hp
  frames := hf

/-- A unit that fits is copied and emitted after PKT_POS moved on. -/
theorem State.copyUnit_mode {s m : State} (start n : Nat) (info : Word) (h : m = s.withUnit m)
    (h1 : m.seg.held = s.seg.held) (h2 : m.seg.unitInfo = s.seg.unitInfo) (h3 : m.result = s.result)
    (h4 : m.seg.unitCount = s.seg.unitCount) (hu : m.unitMem = s.unitMem)
    (hs : m.seg.inUnit = s.seg.inUnit ∧ m.seg.zc = s.seg.zc) (hl : m.seg.unitLen = s.seg.unitLen)
    (hn : n ≤ s.params.unitMax)
    (hp : s.seg.pktPos.toNat ≤ s.pktLen.toNat → m.seg.pktPos.toNat ≤ s.pktLen.toNat)
    (hf : s.seg.sfNext.toNat ≤ s.seg.sfCount.toNat → m.seg.sfNext.toNat ≤ s.seg.sfCount.toNat) :
    ModeEnds s ((m.copyUnit start n).emitUnit info) where
  ends := (State.emitUnit_ends info (m.copyUnit start n)).after
    (State.withUnit_trans h (rfl : m.copyUnit start n = m.withUnit (m.copyUnit start n))) h1 h2 h3 h4
  scanner := hs
  stored := fun he => by cases he
  keeps := fun hc h0 => by
    have hpar : m.params = s.params := by rw [h]; rfl
    have hn' : n ≤ m.params.unitMax := hpar ▸ hn
    have hm' : m.params.unitMax < 2 ^ 32 := hpar ▸ hc.max
    have st := (Stores.of_same (s := s) hpar hu (by rw [hl])).trans
      (State.copyUnit_stores start n m hm' hn' (by rw [hl, h0]))
    exact st.emitUnit_keeps info (by rw [State.copyUnit_len start n m hm' hn']; exact hn)
  position := hp
  frames := hf

/-- NEED_DATA once the packet is used up. -/
theorem State.needData_mode {s m : State} (h : m = s.withUnit m) (h1 : m.seg.held = s.seg.held)
    (h2 : m.seg.unitInfo = s.seg.unitInfo) (h3 : m.result = s.result) (h4 : m.seg.unitCount = s.seg.unitCount)
    (ha : m.seg.active = false) (hu : m.unitMem = s.unitMem)
    (hs : m.seg.inUnit = s.seg.inUnit ∧ m.seg.zc = s.seg.zc) (hl : m.seg.unitLen = s.seg.unitLen)
    (hp : s.seg.pktPos.toNat ≤ s.pktLen.toNat → m.seg.pktPos.toNat ≤ s.pktLen.toNat)
    (hf : m.seg.sfNext = s.seg.sfNext) : ModeEnds s m.needData where
  ends := (State.needData_ends m ha).after h h1 h2 h3 h4
  scanner := hs
  stored := fun _ => hu
  keeps := fun hc h0 =>
    (Stores.of_same (s := s) (by rw [h]; rfl) hu (by rw [hl])).needData_keeps (by rw [hl]; exact hc.len)
      fun _ => hl.trans h0
  position := hp
  frames := fun h => by
    show m.seg.sfNext.toNat ≤ _
    rw [hf]; exact h

/-! ## The whole packet as one unit -/

theorem State.wholePacketNext_mode (s : State) :
    ModeEnds s s.wholePacketNext ∧ s.wholePacketNext.seg.active = false := by
  unfold State.wholePacketNext
  simp only
  split
  · exact ⟨State.needData_mode rfl rfl rfl rfl rfl rfl rfl ⟨rfl, rfl⟩ rfl (fun _ => le_rfl) rfl, rfl⟩
  · split
    · exact ⟨State.dropLongUnit_mode rfl rfl rfl rfl rfl rfl ⟨rfl, rfl⟩ rfl (fun _ => le_rfl) id, rfl⟩
    · exact ⟨State.copyUnit_mode _ _ _ rfl rfl rfl rfl rfl rfl ⟨rfl, rfl⟩ rfl (by omega) (fun _ => le_rfl) id, rfl⟩

/-! ## AV1 -/

/-- A parsed header lies inside its bounds. -/
theorem State.parseObuHeader_bound (s : State) (start stop : Nat) (h : ObuHeader) (hb : Nat)
    (hp : s.parseObuHeader start stop = .ok (h, hb)) : 1 ≤ hb ∧ hb ≤ 2 ∧ start + hb ≤ stop := by
  unfold State.parseObuHeader at hp
  split at hp
  · cases hp
  · simp only at hp
    split at hp
    · cases hp
    · split at hp
      · cases hp
      · split at hp
        · split at hp
          · cases hp
          · cases hp; omega
        · cases hp; omega

theorem State.parseObuHeader_cause (s : State) (start stop : Nat) (c : Cause)
    (hp : s.parseObuHeader start stop = .error c) : c = .obuTrunc ∨ c = .obuForbidden ∨ c = .obuType := by
  unfold State.parseObuHeader at hp
  split at hp
  · cases hp; simp
  · simp only at hp
    split at hp
    · cases hp; simp
    · split at hp
      · cases hp; simp
      · split at hp
        · split at hp
          · cases hp; simp
          · cases hp
        · cases hp

/-- A size the segmenter reads fits 32 bits; a failure is OBU_LEB128 (spec/45_segmenter_obu.md R224). -/
theorem State.readPktLeb_cases (s : State) (start stop : Nat) :
    s.readPktLeb start stop = .error .obuLeb128 ∨
      ∃ v n, s.readPktLeb start stop = .ok (v, n) ∧ v ≤ 2 ^ 32 - 1 := by
  unfold State.readPktLeb
  split
  · exact .inl rfl
  · split
    · exact .inl rfl
    · rename_i v n _ h
      exact .inr ⟨v, n, rfl, by omega⟩

/-- A parsed OBU lies inside its bounds. -/
theorem State.parseObu_bound (s : State) (start stop : Nat) (h : ObuHeader) (hl sz : Nat)
    (hp : s.parseObu start stop = .ok (h, hl, sz)) : 1 ≤ hl ∧ start + hl + sz ≤ stop := by
  unfold State.parseObu at hp
  cases hh : s.parseObuHeader start stop with
  | error c => simp [hh] at hp
  | ok r =>
    obtain ⟨h', hb⟩ := r
    have := State.parseObuHeader_bound s start stop h' hb hh
    simp only [hh] at hp
    split at hp
    · cases hr : s.readPktLeb (start + hb) stop with
      | error c => simp [hr] at hp
      | ok r =>
        obtain ⟨v, n⟩ := r
        simp only [hr] at hp
        split at hp
        · cases hp
        · cases hp; omega
    · cases hp; omega

/-- Why an OBU's packet is abandoned (spec/45_segmenter_obu.md R229). -/
theorem State.parseObu_cause (s : State) (start stop : Nat) (c : Cause) (hp : s.parseObu start stop = .error c) :
    c = .obuTrunc ∨ c = .obuForbidden ∨ c = .obuType ∨ c = .obuLeb128 ∨ c = .obuSize := by
  unfold State.parseObu at hp
  cases hh : s.parseObuHeader start stop with
  | error c' =>
    simp only [hh] at hp
    cases hp
    have := State.parseObuHeader_cause s start stop c hh
    tauto
  | ok r =>
    obtain ⟨h', hb⟩ := r
    simp only [hh] at hp
    split at hp
    · rcases State.readPktLeb_cases s (start + hb) stop with hr | ⟨v, n, hr, _⟩
      · simp only [hr] at hp
        cases hp
        tauto
      · simp only [hr] at hp
        split at hp
        · cases hp; tauto
        · cases hp
    · cases hp

theorem State.copyOrSkip_mode (s : State) (payloadStart size next : Nat) (h : ObuHeader) (hl : Nat)
    (hn : next ≤ s.pktLen.toNat) : ModeEnds s (s.copyOrSkip payloadStart size next h hl) := by
  have hp : (Word.ofNat next).toNat ≤ s.pktLen.toNat := by
    rw [Word.ofNat, BitVec.toNat_ofNat]
    exact le_trans (Nat.mod_le _ _) hn
  unfold State.copyOrSkip
  simp only
  split
  · exact State.dropLongUnit_mode rfl rfl rfl rfl rfl rfl ⟨rfl, rfl⟩ rfl (fun _ => hp) id
  · rename_i hle
    exact State.copyUnit_mode _ _ _ rfl rfl rfl rfl rfl rfl ⟨rfl, rfl⟩ rfl (Nat.le_of_not_lt hle) (fun _ => hp) id

theorem State.obuPacketEnd_mode (s : State) : ModeEnds s s.obuPacketEnd :=
  State.needData_mode rfl rfl rfl rfl rfl rfl rfl ⟨rfl, rfl⟩ rfl id rfl

theorem Cause.obu_ne_ok {c : Cause}
    (h : c = .obuTrunc ∨ c = .obuForbidden ∨ c = .obuType ∨ c = .obuLeb128 ∨ c = .obuSize) : c ≠ .ok := by
  rcases h with rfl | rfl | rfl | rfl | rfl <;> exact Cause.noConfusion

theorem State.obuNext_mode (s : State) : ModeEnds s s.obuNext := by
  unfold State.obuNext
  simp only
  split
  · exact s.obuPacketEnd_mode
  · cases hp : s.parseObu s.seg.pktPos.toNat s.pktLen.toNat with
    | error c => exact State.abandon_mode c (Cause.obu_ne_ok (State.parseObu_cause s _ _ c hp)) s
    | ok r =>
      obtain ⟨h, hl, sz⟩ := r
      exact State.copyOrSkip_mode s _ sz _ h hl (State.parseObu_bound s _ _ h hl sz hp).2

theorem State.annexBNext_mode (s : State) : ModeEnds s s.annexBNext := by
  unfold State.annexBNext
  simp only
  split
  · exact s.obuPacketEnd_mode
  · rcases State.readPktLeb_cases s s.seg.pktPos.toNat s.pktLen.toNat with hr | ⟨len, nl, hr, _⟩
    · rw [hr]
      exact State.abandon_mode _ Cause.noConfusion s
    · simp only [hr]
      split
      · exact State.abandon_mode _ Cause.noConfusion s
      · rename_i hle
        cases hp : s.parseObu (s.seg.pktPos.toNat + nl) (s.seg.pktPos.toNat + nl + len) with
        | error c => exact State.abandon_mode c (Cause.obu_ne_ok (State.parseObu_cause s _ _ c hp)) s
        | ok r =>
          obtain ⟨h, hl, sz⟩ := r
          exact State.copyOrSkip_mode s _ sz _ h hl (Nat.le_of_not_lt hle)

/-! ## VP9 -/

theorem State.vp9Next_mode (s : State) : ModeEnds s s.vp9Next := by
  unfold State.vp9Next
  split
  · exact s.wholePacketNext_mode.1
  · split
    · exact State.needData_mode rfl rfl rfl rfl rfl rfl rfl ⟨rfl, rfl⟩ rfl (fun _ => le_rfl) rfl
    · rename_i hne
      simp only
      split
      · exact State.abandon_mode _ Cause.noConfusion s
      · rename_i hle
        have hp : (Word.ofNat (s.seg.sfBase.toNat + s.seg.frameBytes s.seg.sfNext.toNat)).toNat ≤ s.pktLen.toNat := by
          rw [Word.ofNat, BitVec.toNat_ofNat]
          exact le_trans (Nat.mod_le _ _) (by omega)
        have hf : s.seg.sfNext.toNat ≤ s.seg.sfCount.toNat → (s.seg.sfNext + 1).toNat ≤ s.seg.sfCount.toNat := by
          intro hs
          have h1 : s.seg.sfNext.toNat ≠ s.seg.sfCount.toNat := fun h => hne (BitVec.eq_of_toNat_eq h)
          rw [BitVec.toNat_add]
          exact le_trans (Nat.mod_le _ _) (by simp; omega)
        split
        · exact State.dropLongUnit_mode rfl rfl rfl rfl rfl rfl ⟨rfl, rfl⟩ rfl (fun _ => hp) hf
        · rename_i hfit
          exact State.copyUnit_mode _ _ _ rfl rfl rfl rfl rfl rfl ⟨rfl, rfl⟩ rfl (Nat.le_of_not_lt hfit) (fun _ => hp)
            hf

end Sys2Proof.Machine
end

