-- ==== Sys2Proof/Laws/SegCommands.lean ====
section
/-! SUPPORT. SEG_NEXT and SEG_PACKET as whole commands: the modes of Laws/Segment.lean after the release, and the registers
each command may write. -/

namespace Sys2Proof.Machine

/-- The mode that runs (spec/44_segmenter_nal.md R200): the byte-stream scanner, or one that collects nothing. -/
theorem State.modeNext_cases (s : State) :
    (s.byteStream = true ∧ s.modeNext = s.nalByteStreamNext) ∨ (s.byteStream = false ∧ ModeEnds s s.modeNext) := by
  unfold State.modeNext State.byteStream
  cases hc : s.cfg.codec <;> cases hi : s.cfg.inmode
  · exact .inl ⟨rfl, rfl⟩
  · exact .inr ⟨rfl, s.wholePacketNext_mode.1⟩
  · exact .inl ⟨rfl, rfl⟩
  · exact .inr ⟨rfl, s.wholePacketNext_mode.1⟩
  · exact .inr ⟨rfl, s.vp9Next_mode⟩
  · exact .inr ⟨rfl, s.vp9Next_mode⟩
  · exact .inr ⟨rfl, s.obuNext_mode⟩
  · exact .inr ⟨rfl, s.annexBNext_mode⟩

/-- Every mode ends in one of the three outcomes. -/
theorem State.modeNext_ends (s : State) : SegEnds s s.modeNext := by
  rcases s.modeNext_cases with ⟨_, h⟩ | ⟨_, h⟩
  · rw [h]; exact (nalScan_ends _ s).1
  · exact h.ends

/-- SEG_NEXT by its three cases (spec/44_segmenter_nal.md R204). -/
theorem exec_segNext (s : State) :
    exec .segNext s =
      .next (if s.cfg.valid = false then s.refuse .notConfigured
        else if s.seg.active = false then s.release.needData else s.release.modeNext) := by
  show execSegNext s = _
  have ha : s.release.seg.active = s.seg.active := by rw [State.release_eq]
  unfold execSegNext
  simp only [ha]
  cases s.cfg.valid <;> cases s.seg.active <;> rfl

/-- A configured SEG_NEXT ends in one of the three outcomes, from the released state. -/
theorem segNext_ends (s t : State) (hv : s.cfg.valid = true) (h : exec .segNext s = .next t) : SegEnds s.release t := by
  rw [exec_segNext, if_neg (by simp [hv])] at h
  injection h with h
  subst h
  split
  · exact State.needData_ends _ (by rw [State.release_eq]; assumption)
  · exact State.modeNext_ends _

/-- A released segmenter that kept the invariants collects a unit as R215 says. -/
theorem State.release_collecting (s : State) (hm : s.params.unitMax < 2 ^ 32)
    (hl : s.seg.unitLen.toNat ≤ s.params.unitMax)
    (hi : s.seg.inUnit = false → s.seg.held = false → s.seg.unitLen = 0) : s.release.Collecting := by
  rw [State.release_eq]
  refine ⟨hm, ?_, ?_⟩
  · simp only
    split
    · simp
    · exact hl
  · simp only
    intro h
    split
    · rfl
    · rename_i hh; exact hi h (by simpa using hh)

/-- The registers SEG_PACKET may write, once accepted (spec/44_segmenter_nal.md R201, R202). -/
theorem State.acceptPacket_eq (s : State) (eos eop disc : Bool) :
    s.acceptPacket eos eop disc =
      { s with rd := (s.acceptPacket eos eop disc).rd, seg := (s.acceptPacket eos eop disc).seg } := by
  unfold State.acceptPacket
  cases disc
  · rfl
  · simp only [if_true, State.streamFlush]
    rw [State.unbindUnit_eq]

theorem State.parseSuperframeIndex_eq (s : State) :
    s.parseSuperframeIndex =
      { s with
        seg := { s.seg with
          sfCount := s.parseSuperframeIndex.seg.sfCount, sfIndexSize := s.parseSuperframeIndex.seg.sfIndexSize
          sfSize := s.parseSuperframeIndex.seg.sfSize } } := by
  unfold State.parseSuperframeIndex
  split <;> rfl

end Sys2Proof.Machine
end

