-- ==== Sys2Proof/Laws/Obu.lean ====
section
/-! SUPPORT. What the two AV1 modes of SEG_NEXT do with the OBU that stands at PKT_POS (spec/45_segmenter_obu.md R222, R224 to
R226), said once for both, and what the release leaves for them to read. -/

namespace Sys2Proof.Machine

/-! ## The release -/

/-- The reader SEG_NEXT goes on with. -/
theorem State.release_rd (s : State) : s.release.rd = s.readerAfterRelease := by
  unfold State.release State.readerAfterRelease State.unbindUnit
  cases s.seg.held <;> simp
  split <;> rfl

/-- The release leaves what a mode reads, and no unit held. -/
theorem State.release_keeps (s : State) :
    s.release.seg.pktPos = s.seg.pktPos ∧ s.release.pktLen = s.pktLen ∧ s.release.params = s.params ∧
    s.release.cfg = s.cfg ∧ s.release.unitMem = s.unitMem ∧ s.release.result = s.result ∧
    s.release.seg.active = s.seg.active ∧ s.release.seg.unitCount = s.seg.unitCount ∧
    s.release.seg.held = false ∧ ∀ i, s.release.pktByte i = s.pktByte i := by
  rw [State.release_eq]
  exact ⟨rfl, rfl, rfl, rfl, rfl, rfl, rfl, rfl, rfl, fun i => State.pktByte_congr s _ rfl rfl i⟩

/-! ## LEB128 in a packet -/

/-- Bytes with bit 7 set are collected and the value goes on. -/
theorem lebLoop_continues (byteAt : Nat → Option Byte) (g : Nat → Byte) (k left i v : Nat) (hk : k ≤ left)
    (h : ∀ j, j < k → byteAt (i + j) = some (g j) ∧ 0x80 ≤ (g j).toNat) :
    lebLoop byteAt left i v =
      lebLoop byteAt (left - k) (i + k)
        (v + ((List.range k).map fun j => (g j).toNat % 128 * 2 ^ (7 * (i + j))).sum) := by
  induction k generalizing left i v g with
  | zero => simp
  | succ k ih =>
    obtain ⟨left, rfl⟩ : ∃ l, left = l + 1 := ⟨left - 1, by omega⟩
    have h0 := h 0 (by omega)
    rw [Nat.add_zero] at h0
    rw [lebLoop, h0.1]
    simp only
    rw [if_neg (by omega), ih (fun j => g (j + 1)) left (i + 1) _ (by omega)
      (fun j hj => by rw [Nat.add_assoc, Nat.add_comm 1 j]; exact h (j + 1) (by omega)), List.range_succ_eq_map]
    simp only [List.map_cons, List.sum_cons, List.map_map]
    congr 1
    · omega
    · omega
    · rw [Nat.add_zero, ← Nat.add_assoc]
      congr 2
      refine List.map_congr_left fun j _ => ?_
      rw [Function.comp, show i + 1 + j = i + j.succ by omega]

/-- A LEB128 value up to 2^32 - 1 that stands inside its bounds is read. -/
theorem State.readPktLeb_lebBytes (s : State) (start stop n v : Nat) (h1 : 1 ≤ n) (h8 : n ≤ 8) (hv : v < 2 ^ (7 * n))
    (hle : v ≤ 2 ^ 32 - 1) (hfit : start + n ≤ stop)
    (hb : ∀ i, (h : i < (lebBytes n v).length) → s.pktByte (start + i) = (lebBytes n v)[i]) :
    s.readPktLeb start stop = .ok (v, n) := by
  unfold State.readPktLeb lebRead
  rw [show Config.leb128MaxBytes = 8 from rfl, lebLoop_lebBytes _ n v 8 0 0 h1 h8 hv]
  · simp; omega
  · intro k hk
    have hk' := hk
    rw [lebBytes_length] at hk'
    rw [Nat.zero_add, if_neg (by omega), hb k hk]

/-- Bytes that give no value give OBU_LEB128. -/
theorem State.readPktLeb_badLeb (s : State) (start stop : Nat) (h : s.badLeb start stop) :
    s.readPktLeb start stop = .error .obuLeb128 := by
  unfold State.readPktLeb lebRead
  rw [show Config.leb128MaxBytes = 8 from rfl]
  rcases h with ⟨k, h8, rfl, hb⟩ | ⟨n, v, h1, h8, hv, hbig, hfit, hh⟩ | ⟨hfit, hb, hbig⟩
  · rw [lebLoop_continues _ (fun i => s.pktByte (start + i)) k 8 0 0 (by omega)
      (fun j hj => by rw [Nat.zero_add, if_neg (by omega)]; exact ⟨rfl, hb j hj⟩)]
    obtain ⟨l, hl⟩ : ∃ l, 8 - k = l + 1 := ⟨8 - k - 1, by omega⟩
    rw [hl, lebLoop, Nat.zero_add, if_pos (by omega)]
  · rw [lebLoop_lebBytes _ n v 8 0 0 h1 h8 hv]
    · simp; omega
    · intro k hk
      have hk' := hk
      rw [lebBytes_length] at hk'
      rw [Nat.zero_add, if_neg (by omega), hh.2 k hk]
  · rw [lebLoop_continues _ (fun i => s.pktByte (start + i)) 8 8 0 0 le_rfl
      (fun j hj => by rw [Nat.zero_add, if_neg (by omega)]; exact ⟨rfl, hb j hj⟩)]
    simp only [Nat.zero_add, Nat.sub_self, lebLoop]
    rw [if_pos hbig]

/-! ## The OBU at PKT_POS -/

/-- What CopyOrSkip (R225) leaves. -/
theorem State.copyOrSkip_spec (s : State) (payloadStart size next : Nat) (h : ObuHeader) (hl : Nat) :
    let t := s.copyOrSkip payloadStart size next h hl
    t.seg.active = s.seg.active ∧ t.seg.pktPos = Word.ofNat next ∧
    (size ≤ s.params.unitMax →
      t.seg.result = .unit ∧ t.seg.unitLen = Word.ofNat size ∧ t.seg.unitInfo = h.unitInfo hl ∧
      ∀ i, i < size → t.unitByte i = s.pktByte (payloadStart + i)) ∧
    (s.params.unitMax < size →
      t.seg.result = .error ∧ t.seg.cause = .unitTooLong ∧ t.seg.unitLen = 0 ∧ t.unitMem = s.unitMem) := by
  unfold State.copyOrSkip
  simp only
  by_cases hs : size > s.params.unitMax
  · rw [if_pos hs]
    exact ⟨rfl, rfl, fun h => by omega, fun _ => ⟨rfl, rfl, rfl, rfl⟩⟩
  · rw [if_neg hs]
    refine ⟨rfl, rfl, fun h' => ⟨rfl, rfl, rfl, fun i hi => ?_⟩, fun h => by omega⟩
    have := State.copyUnit_unitByte payloadStart size { s with seg := { s.seg with pktPos := Word.ofNat next } } h' i
    rw [if_pos hi] at this
    exact this.trans (State.pktByte_congr s _ rfl rfl _)

/-- Both AV1 modes parse the OBU that stands at PKT_POS in the same bounds; they differ in where the next one starts. -/
theorem State.modeNext_obuAt (s : State) (start stop : Nat) (hc : s.cfg.codec = .av1)
    (hlt : s.seg.pktPos.toNat < s.pktLen.toNat) (hat : s.obuAt start stop) :
    s.modeNext =
      match s.parseObu start stop with
      | .error c => s.abandon c
      | .ok (h, hl, size) =>
        s.copyOrSkip (start + hl) size (if s.cfg.inmode then stop else start + hl + size) h hl := by
  unfold State.modeNext
  rw [hc]
  rcases hat with ⟨hi, rfl, rfl⟩ | ⟨hi, hle, hstop, n, h1, h8, rfl, hv, hh⟩ <;> rw [hi]
  · simp only [Bool.false_eq_true, if_false, State.obuNext]
    refine (if_neg (by omega)).trans ?_
    rcases s.parseObu s.seg.pktPos.toNat s.pktLen.toNat with c | ⟨h, hl, size⟩ <;> rfl
  · obtain ⟨len, rfl⟩ : ∃ len, stop = s.seg.pktPos.toNat + n + len := ⟨_, (Nat.add_sub_cancel' hle).symm⟩
    rw [Nat.add_sub_cancel_left] at hv hh
    have hpl := s.pktLen.isLt
    have hl := s.readPktLeb_lebBytes s.seg.pktPos.toNat s.pktLen.toNat n len h1 h8 hv (by omega) (by omega) hh.2
    simp only [if_true, State.annexBNext, hl]
    refine (if_neg (by omega)).trans ((if_neg (by omega)).trans ?_)
    rcases s.parseObu (s.seg.pktPos.toNat + n) (s.seg.pktPos.toNat + n + len) with c | ⟨h, hl', size⟩ <;> rfl

end Sys2Proof.Machine
end

