-- ==== Sys2Proof/Laws/PerInstr.lean ====
section
/-! SUPPORT. Laws per instruction: the encoding of every well-formed command agrees with the mask and match columns of its row
in spec/opcode_table.json. -/

namespace Sys2Proof.Laws.EncodingMatchesTable

/-- The mask and match columns of a command's row in spec/opcode_table.json. -/
def tableRow : Opcode → Word × Word
  | .nop => (0xFFFFFFFF, 0x00000000)
  | .sreset => (0xFFFFFFFF, 0x04000000)
  | .config => (0xFFFFFFF8, 0x08000000)
  | .loadUnit => (0xFFFFFFFC, 0x0C000000)
  | .u => (0xFFFFFFC0, 0x20000000)
  | .ue => (0xFFFFFFFF, 0x24000000)
  | .se => (0xFFFFFFFF, 0x28000000)
  | .uvlc => (0xFFFFFFFF, 0x2C000000)
  | .align => (0xFFFFFFFC, 0x30000000)
  | .aligned => (0xFFFFFFFF, 0x34000000)
  | .leb128 => (0xFFFFFFFF, 0x40000000)
  | .su => (0xFFFFFFC0, 0x44000000)
  | .le => (0xFFFFFFF8, 0x48000000)
  | .ns => (0xFFFFFFFF, 0x4C000000)
  | .subexp => (0xFFFFFFFF, 0x50000000)
  | .subexpRef => (0xFFFFFFFF, 0x54000000)
  | .segPacket => (0xFFFFFFF8, 0x80000000)
  | .segNext => (0xFFFFFFFF, 0x84000000)

/-- A well-formed command's word, masked, is its row's match word. -/
def Statement (i : Instr) : Prop :=
  i.wellFormed = true → encode i &&& (tableRow i.opcode).1 = (tableRow i.opcode).2

theorem nop : Statement .nop := by unfold Statement; decide

theorem sreset : Statement .sreset := by unfold Statement; decide

theorem config (codec : Codec) (inmode : Bool) : Statement (.config codec inmode) := by
  unfold Statement; cases codec <;> cases inmode <;> decide

theorem loadUnit (src : UnitSource) (epb : Bool) : Statement (.loadUnit src epb) := by
  unfold Statement; cases src <;> cases epb <;> decide

theorem u (n : Nat) : Statement (.u n) := fun h =>
  have hn : n < 33 := by simp [Instr.wellFormed, Config.nMax] at h; omega
  have all : ∀ k < 33, encode (.u k) &&& (tableRow .u).1 = (tableRow .u).2 := by decide
  all n hn

theorem ue : Statement .ue := by unfold Statement; decide

theorem se : Statement .se := by unfold Statement; decide

theorem uvlc : Statement .uvlc := by unfold Statement; decide

theorem align (mode : AlignMode) : Statement (.align mode) := by
  unfold Statement; cases mode <;> decide

theorem aligned : Statement .aligned := by unfold Statement; decide

theorem leb128 : Statement .leb128 := by unfold Statement; decide

theorem su (n : Nat) : Statement (.su n) := fun h =>
  have hn : n < 33 := by simp [Instr.wellFormed] at h; omega
  have all : ∀ k < 33, encode (.su k) &&& (tableRow .su).1 = (tableRow .su).2 := by decide
  all n hn

theorem le (n : Nat) : Statement (.le n) := fun h =>
  have hn : n < 5 := by simp [Instr.wellFormed] at h; omega
  have all : ∀ k < 5, encode (.le k) &&& (tableRow .le).1 = (tableRow .le).2 := by decide
  all n hn

theorem ns : Statement .ns := by unfold Statement; decide

theorem subexp : Statement .subexp := by unfold Statement; decide

theorem subexpRef : Statement .subexpRef := by unfold Statement; decide

theorem segPacket (eos eop disc : Bool) : Statement (.segPacket eos eop disc) := by
  unfold Statement; cases eos <;> cases eop <;> cases disc <;> decide

theorem segNext : Statement .segNext := by unfold Statement; decide

end Sys2Proof.Laws.EncodingMatchesTable
end

