-- ==== Sys2Proof/Laws/Reads.lean ====
section
/-! SUPPORT. What the read commands can do, said once: where each read leaves its private cursor, that a failure has a cause,
and the three ways the frame of a read command ends (spec/41_fixed_width.md R140, R141). -/

namespace Sys2Proof.Machine

/-- A read from bit q of an N-bit payload behaves: its cursor does not move back nor pass the payload's end, and a failure
has a cause. -/
def ReadOutcome.sound {α : Type} (N q : Nat) : ReadOutcome α → Prop
  | .got _ q' => q ≤ q' ∧ q' ≤ N
  | .failed c => c ≠ .ok

theorem ReadOutcome.sound_andThen {α β : Type} {N q : Nat} {r : ReadOutcome α} {f : α → Nat → ReadOutcome β}
    (hr : r.sound N q) (hf : ∀ v q', q ≤ q' → q' ≤ N → (f v q').sound N q') : (r.andThen f).sound N q := by
  cases r with
  | failed c => exact hr
  | got v q' =>
    have h1 := hf v q' hr.1 hr.2
    simp only [ReadOutcome.andThen_got]
    generalize f v q' = o at h1 ⊢
    cases o with
    | failed c => exact h1
    | got w q'' => exact ⟨le_trans hr.1 h1.1, h1.2⟩

theorem take_sound (P : List Byte) (n q : Nat) : (take P n q).sound (8 * P.length) q := by
  rcases take_cases P n q with ⟨h, e⟩ | ⟨_, e⟩ <;> rw [e]
  · exact ⟨by omega, h⟩
  · exact Cause.noConfusion

theorem zeroPrefix_sound (P : List Byte) (c : Cause) (hc : c ≠ .ok) (limit L q : Nat) :
    (zeroPrefix P c limit L q).sound (8 * P.length) q := by
  induction limit generalizing L q with
  | zero => exact hc
  | succ limit ih =>
    refine ReadOutcome.sound_andThen (take_sound P 1 q) fun v q' _ hq => ?_
    split
    · exact ⟨le_rfl, hq⟩
    · exact ih _ _

theorem readUe_sound (P : List Byte) (q : Nat) : (readUe P q).sound (8 * P.length) q :=
  ReadOutcome.sound_andThen (zeroPrefix_sound P _ Cause.noConfusion _ _ q) fun _ _ _ _ =>
    ReadOutcome.sound_andThen (take_sound P _ _) fun _ _ _ h => ⟨le_rfl, h⟩

theorem readUvlc_sound (P : List Byte) (q : Nat) : (readUvlc P q).sound (8 * P.length) q := by
  refine ReadOutcome.sound_andThen (zeroPrefix_sound P _ Cause.noConfusion _ _ q) fun _ q' _ hq => ?_
  split
  · exact ⟨le_rfl, hq⟩
  · exact ReadOutcome.sound_andThen (take_sound P _ _) fun _ _ _ h => ⟨le_rfl, h⟩

/-- What the LEB128 loop answers: it counts at least one byte for each it read, and read the last one it counts. -/
theorem lebLoop_some (byteAt : Nat → Option Byte) (left i v w n : Nat) (h : lebLoop byteAt left i v = some (w, n)) :
    i ≤ n ∧ n ≤ i + left ∧ ∀ k, i ≤ k → k < n → (byteAt k).isSome = true := by
  induction left generalizing i v with
  | zero =>
    simp only [lebLoop, Option.some.injEq, Prod.mk.injEq] at h
    exact ⟨by omega, by omega, fun k h1 h2 => by omega⟩
  | succ left ih =>
    simp only [lebLoop] at h
    cases hb : byteAt i with
    | none => simp [hb] at h
    | some b =>
      simp only [hb] at h
      split at h
      · simp only [Option.some.injEq, Prod.mk.injEq] at h
        refine ⟨by omega, by omega, fun k h1 h2 => ?_⟩
        have : k = i := by omega
        subst this
        simp [hb]
      · obtain ⟨h1, h2, h3⟩ := ih _ _ h
        refine ⟨by omega, by omega, fun k hk1 hk2 => ?_⟩
        by_cases he : k = i
        · subst he; simp [hb]
        · exact h3 k (by omega) hk2

theorem payloadGroup_isSome (P : List Byte) (q i : Nat) (h : (payloadGroup P q i).isSome = true) :
    q + 8 * i + 8 ≤ 8 * P.length := by
  unfold payloadGroup at h
  rcases take_cases P 8 (q + 8 * i) with ⟨h1, _⟩ | ⟨_, e⟩
  · exact h1
  · simp [e] at h

theorem readLeb128_sound (P : List Byte) (q : Nat) (hq : q ≤ 8 * P.length) :
    (readLeb128 P q).sound (8 * P.length) q := by
  unfold readLeb128
  cases h : lebRead (payloadGroup P q) with
  | none => exact Cause.noConfusion
  | some r =>
    obtain ⟨v, n⟩ := r
    obtain ⟨_, _, h3⟩ := lebLoop_some _ _ _ _ _ _ h
    simp only
    split
    · exact Cause.noConfusion
    · refine ⟨by omega, ?_⟩
      rcases Nat.eq_zero_or_pos n with h0 | h0
      · omega
      · have := payloadGroup_isSome P q (n - 1) (h3 (n - 1) (by omega) (by omega))
        omega

theorem readLe_sound (P : List Byte) (left i t q : Nat) (hq : q ≤ 8 * P.length) :
    (readLe P left i t q).sound (8 * P.length) q := by
  induction left generalizing i t q with
  | zero => exact ⟨le_rfl, hq⟩
  | succ left ih => exact ReadOutcome.sound_andThen (take_sound P 8 q) fun _ _ _ h => ih _ _ _ h

theorem readNs_sound (P : List Byte) (n q : Nat) : (readNs P n q).sound (8 * P.length) q := by
  refine ReadOutcome.sound_andThen (take_sound P _ q) fun _ _ _ h => ?_
  split
  · exact ⟨le_rfl, h⟩
  · exact ReadOutcome.sound_andThen (take_sound P 1 _) fun _ _ _ h => ⟨le_rfl, h⟩

theorem subexpLoop_sound (P : List Byte) (numSyms rounds i mk q : Nat) :
    (subexpLoop P numSyms rounds i mk q).sound (8 * P.length) q := by
  induction rounds generalizing i mk q with
  | zero => exact Cause.noConfusion
  | succ rounds ih =>
    simp only [subexpLoop]
    generalize (if i > 0 then 3 + i - 1 else 3) = b2
    split
    · exact ReadOutcome.sound_andThen (readNs_sound P _ q) fun _ _ _ h => ⟨le_rfl, h⟩
    · refine ReadOutcome.sound_andThen (take_sound P 1 q) fun _ _ _ _ => ?_
      split
      · exact ih _ _ _
      · exact ReadOutcome.sound_andThen (take_sound P _ _) fun _ _ _ h => ⟨le_rfl, h⟩

theorem readSubexp_sound (P : List Byte) (numSyms q : Nat) : (readSubexp P numSyms q).sound (8 * P.length) q :=
  subexpLoop_sound P numSyms _ _ _ q

theorem readAlign_sound (P : List Byte) (mode : AlignMode) (q : Nat) (hq : q ≤ 8 * P.length) :
    (readAlign P mode q).sound (8 * P.length) q := by
  have hstop : (if mode = .rbsp then take P 1 q else .got 1 q : ReadOutcome Nat).sound (8 * P.length) q := by
    split
    · exact take_sound P 1 q
    · exact ⟨le_rfl, hq⟩
  refine ReadOutcome.sound_andThen hstop fun s q' _ _ => ?_
  split
  · exact Cause.noConfusion
  · refine ReadOutcome.sound_andThen (take_sound P _ q') fun _ _ _ h => ?_
    split
    · exact Cause.noConfusion
    · exact ⟨le_rfl, h⟩

theorem ReadOutcome.toWord_sound {N q : Nat} {r : ReadOutcome Nat} (h : r.sound N q) : r.toWord.sound N q :=
  ReadOutcome.sound_andThen h fun _ _ _ h => ⟨le_rfl, h⟩

/-! ## The frame of a read command -/

theorem State.readCommand_noUnit (s : State) (body : List Byte → Nat → ReadOutcome Word) (h : s.rd.unitValid = false) :
    s.readCommand body = s.refuse .noUnit := by
  simp [State.readCommand, h]

theorem State.readCommand_aborted (s : State) (body : List Byte → Nat → ReadOutcome Word) (h : s.rd.unitValid = true)
    (he : s.rd.err = true) : s.readCommand body = s.refuse .aborted := by
  simp [State.readCommand, h, he]

theorem State.readCommand_got (s : State) (body : List Byte → Nat → ReadOutcome Word) (h : s.rd.unitValid = true)
    (he : s.rd.err = false) (v : Word) (q : Nat) (hb : body s.rd.bytes s.rd.pos.toNat = .got v q) :
    s.readCommand body =
      { s with result := v, rd := { s.rd with pos := Word.ofNat q }, lastOk := true, lastCause := .ok } := by
  simp [State.readCommand, h, he, hb, State.succeed]

theorem State.readCommand_failed (s : State) (body : List Byte → Nat → ReadOutcome Word) (h : s.rd.unitValid = true)
    (he : s.rd.err = false) (c : Cause) (hb : body s.rd.bytes s.rd.pos.toNat = .failed c) :
    s.readCommand body =
      { s with
        lastOk := false, lastCause := c
        rd := { s.rd with err := true, errCause := c, errPos := s.rd.pos } } := by
  simp [State.readCommand, h, he, hb, State.fail]

/-- All that a read command can do: a refusal, a commit of its body's value and cursor, or its body's failure. -/
theorem State.readCommand_cases (s : State) (body : List Byte → Nat → ReadOutcome Word) :
    (s.rd.unitValid = false ∧ s.readCommand body = s.refuse .noUnit) ∨
    (s.rd.unitValid = true ∧ s.rd.err = true ∧ s.readCommand body = s.refuse .aborted) ∨
    (s.rd.unitValid = true ∧ s.rd.err = false ∧ ∃ v q, body s.rd.bytes s.rd.pos.toNat = .got v q ∧
      s.readCommand body =
        { s with result := v, rd := { s.rd with pos := Word.ofNat q }, lastOk := true, lastCause := .ok }) ∨
    (s.rd.unitValid = true ∧ s.rd.err = false ∧ ∃ c, body s.rd.bytes s.rd.pos.toNat = .failed c ∧
      s.readCommand body =
        { s with
          lastOk := false, lastCause := c
          rd := { s.rd with err := true, errCause := c, errPos := s.rd.pos } }) := by
  cases h : s.rd.unitValid
  · exact .inl ⟨rfl, s.readCommand_noUnit body h⟩
  · cases he : s.rd.err
    · cases hb : body s.rd.bytes s.rd.pos.toNat with
      | got v q => exact .inr (.inr (.inl ⟨rfl, rfl, v, q, rfl, s.readCommand_got body h he v q hb⟩))
      | failed c => exact .inr (.inr (.inr ⟨rfl, rfl, c, rfl, s.readCommand_failed body h he c hb⟩))
    · exact .inr (.inl ⟨rfl, rfl, s.readCommand_aborted body h he⟩)

end Sys2Proof.Machine
end

