-- ==== Sys2Proof/Laws/ReadCommands.lean ====
section
/-! SUPPORT. The twelve read commands as instances of the one frame of Laws/Reads.lean. -/

namespace Sys2Proof.Machine

/-- The operand registers SUBEXP_REF reads are two's complement (spec/30_encoding.md R84). -/
theorem signed_eq_toInt (w : Word) : signed w = w.toInt := by
  unfold signed
  rw [BitVec.toInt_eq_toNat_cond]
  split <;> split <;> omega

theorem sound_got {N q : Nat} (hq : q ≤ N) (w : Word) : (ReadOutcome.got w q).sound N q := ⟨le_rfl, hq⟩

/-- Every read command is its body under the frame, or a refusal with BAD_ARG when its operands are not accepted. -/
theorem exec_read (s : State) (i : Instr) (h : isReadCommand i = true) :
    ∃ body : List Byte → Nat → ReadOutcome Word,
      (∀ P q, q ≤ 8 * P.length → (body P q).sound (8 * P.length) q) ∧
      (s.argsAccepted i = true → exec i s = .next (s.readCommand body)) ∧
      (s.argsAccepted i = false → exec i s = .next (s.refuse .badArg)) := by
  have arg0 : ∀ w : Word, unsigned w = 0 ↔ w = 0 := fun w => by
    unfold unsigned; exact ⟨fun h => BitVec.eq_of_toNat_eq (by simpa using h), fun h => by simp [h]⟩
  cases i with
  | u n =>
    exact ⟨_, fun P q _ => ReadOutcome.toWord_sound (take_sound P n q), fun _ => rfl, fun h => by cases h⟩
  | ue => exact ⟨_, fun P q _ => ReadOutcome.toWord_sound (readUe_sound P q), fun _ => rfl, fun h => by cases h⟩
  | se =>
    exact ⟨_, fun P q _ => ReadOutcome.sound_andThen (readUe_sound P q) fun _ _ _ h => sound_got h _, fun _ => rfl,
      fun h => by cases h⟩
  | uvlc => exact ⟨_, fun P q _ => ReadOutcome.toWord_sound (readUvlc_sound P q), fun _ => rfl, fun h => by cases h⟩
  | align m =>
    exact ⟨_, fun P q h => ReadOutcome.toWord_sound (readAlign_sound P m q h), fun _ => rfl, fun h => by cases h⟩
  | aligned => exact ⟨_, fun _ _ h => sound_got h _, fun _ => rfl, fun h => by cases h⟩
  | leb128 =>
    exact ⟨_, fun P q h => ReadOutcome.toWord_sound (readLeb128_sound P q h), fun _ => rfl, fun h => by cases h⟩
  | su n =>
    exact ⟨_, fun P q _ => ReadOutcome.sound_andThen (take_sound P n q) fun _ _ _ h => sound_got h _, fun _ => rfl,
      fun h => by cases h⟩
  | le n =>
    exact ⟨_, fun P q h => ReadOutcome.toWord_sound (readLe_sound P n 0 0 q h), fun _ => rfl, fun h => by cases h⟩
  | ns =>
    refine ⟨_, fun P q _ => ReadOutcome.toWord_sound (readNs_sound P (unsigned s.arg0) q), fun h => ?_, fun h => ?_⟩
    · simp only [State.argsAccepted, decide_eq_true_eq] at h
      show execNs s = _
      rw [execNs, if_neg ((arg0 _).not.mpr h)]
    · simp only [State.argsAccepted, decide_eq_false_iff_not, not_not] at h
      show execNs s = _
      rw [execNs, if_pos ((arg0 _).mpr h)]
  | subexp =>
    refine ⟨_, fun P q _ => ReadOutcome.toWord_sound (readSubexp_sound P (unsigned s.arg0) q), fun h => ?_, fun h => ?_⟩
    · simp only [State.argsAccepted, decide_eq_true_eq] at h
      show execSubexp s = _
      rw [execSubexp, if_neg ((arg0 _).not.mpr h)]
    · simp only [State.argsAccepted, decide_eq_false_iff_not, not_not] at h
      show execSubexp s = _
      rw [execSubexp, if_pos ((arg0 _).mpr h)]
  | subexpRef =>
    refine ⟨fun P q =>
      (readSubexp P (signed s.arg1 - signed s.arg0).toNat q).andThen fun v q' =>
        .got (Word.ofInt (recenter (signed s.arg0) (signed s.arg1 - signed s.arg0) (signed s.arg2) v)) q',
      fun P q _ => ReadOutcome.sound_andThen (readSubexp_sound P _ q) fun _ _ _ h => sound_got h _,
      fun h => ?_, fun h => ?_⟩
    · simp only [State.argsAccepted, decide_eq_true_eq] at h
      show execSubexpRef s = _
      rw [execSubexpRef, if_neg (by rw [signed_eq_toInt, signed_eq_toInt]; omega)]
    · simp only [State.argsAccepted, decide_eq_false_iff_not] at h
      show execSubexpRef s = _
      rw [execSubexpRef, if_pos (by rw [signed_eq_toInt, signed_eq_toInt]; omega)]
  | nop | sreset | config _ _ | loadUnit _ _ | segPacket _ _ _ | segNext => cases h

end Sys2Proof.Machine
end

