-- ==== Sys2Proof/Laws/ScanText.lean ====
section
/-! SUPPORT. What the byte-stream scanner does with a run of bytes (spec/44_segmenter_nal.md R206, R207): outside a unit, inside
one, at a start code, and from the scanner's state to the bytes of the next unit. -/

namespace Sys2Proof.Machine

/-! ## Runs of bytes -/

@[simp] theorem trailingZeros_nil : trailingZeros [] = 0 := rfl

@[simp] theorem trailingZeros_zero (bs : List Byte) : trailingZeros (bs ++ [0x00]) = trailingZeros bs + 1 := by
  simp [trailingZeros]

theorem trailingZeros_data (bs : List Byte) (b : Byte) (h : b ≠ 0x00) : trailingZeros (bs ++ [b]) = 0 := by
  have : (b == 0#8) = false := by simpa using h
  simp [trailingZeros, this]

theorem trailingZeros_replicate (n : Nat) : trailingZeros (List.replicate n 0x00) = n := by
  simp [trailingZeros]

/-- A byte that is not 0x00 stands before the trailing zeros. -/
theorem trailingZeros_below (bs : List Byte) (i : Nat) (h : i < bs.length) (hb : bs[i] ≠ 0x00) :
    i + 1 + trailingZeros bs ≤ bs.length := by
  induction bs using List.reverseRecOn with
  | nil => simp at h
  | append_singleton bs b ih =>
    simp only [List.length_append, List.length_singleton] at h ⊢
    by_cases hb0 : b = 0x00
    · subst hb0
      by_cases hi : i < bs.length
      · rw [List.getElem_append_left hi] at hb
        have := ih hi hb
        rw [trailingZeros_zero]
        omega
      · rw [List.getElem_append_right (by omega)] at hb
        simp at hb
    · rw [trailingZeros_data bs b hb0]
      omega

/-- Two trailing zeros are the last two bytes. -/
theorem trailingZeros_two (bs : List Byte) (h : 2 ≤ trailingZeros bs) : ∃ as, bs = as ++ [0x00, 0x00] := by
  rcases List.eq_nil_or_concat bs with rfl | ⟨bs, b, rfl⟩
  · simp at h
  rw [List.concat_eq_append] at h ⊢
  by_cases hb : b = 0x00
  · subst hb
    rcases List.eq_nil_or_concat bs with rfl | ⟨as, a, rfl⟩
    · simp [trailingZeros] at h
    · rw [List.concat_eq_append] at h ⊢
      by_cases ha : a = 0x00
      · exact ⟨as, by rw [ha]; simp⟩
      · rw [trailingZeros_zero, trailingZeros_data as a ha] at h
        omega
  · rw [trailingZeros_data bs b hb] at h
    omega

theorem startCodeFree_left {as bs : List Byte} (h : startCodeFree (as ++ bs)) : startCodeFree as := fun i hi hp =>
  h i (by simp; omega) (by
    rw [List.drop_append_of_le_length (by omega)]
    exact hp.trans (List.prefix_append _ _))

/-- Where no start code ends, 0x01 does not follow two zeros. -/
theorem startCodeFree_data {q : List Byte} {b : Byte} (h : startCodeFree (q ++ [b])) (hz : 2 ≤ trailingZeros q) :
    b ≠ 0x01 := by
  rintro rfl
  obtain ⟨as, rfl⟩ := trailingZeros_two q hz
  refine h as.length (by simp) ?_
  simp [startCode]

/-- `bs` stand in the packet from PKT_POS on. -/
def State.packetHas (s : State) (bs : List Byte) : Prop :=
  bs.length ≤ s.pktLen.toNat - s.seg.pktPos.toNat ∧
  ∀ i, (h : i < bs.length) → s.pktByte (s.seg.pktPos.toNat + i) = bs[i]

/-! ## One byte of the packet -/

theorem State.consumeByte_pos (s : State) (h : s.seg.pktPos.toNat < s.pktLen.toNat) :
    s.consumeByte.2.seg.pktPos.toNat = s.seg.pktPos.toNat + 1 := by
  show (s.seg.pktPos + 1).toNat = _
  have := s.pktLen.isLt
  rw [BitVec.toNat_add]
  simp; omega

/-- A byte that ends nothing: the scan goes on after it. -/
theorem nalScan_none (left : Nat) (s t : State) (b : Byte) (h : s.seg.pktPos.toNat < s.pktLen.toNat)
    (hb : s.pktByte s.seg.pktPos.toNat = b) (e : scanByte b s.consumeByte.2 = (.none, t)) :
    nalScan (left + 1) s = nalScan left t := by
  have hc : s.consumeByte.1 = b := hb
  rw [nalScan, if_neg (by omega), hc, e]

/-- The bytes after a consumed one. -/
theorem State.packetHas_next {s t : State} {b : Byte} {l : List Byte} (h : s.packetHas (b :: l))
    (hf : t = s.withCollected t) (hp : t.seg.pktPos.toNat = s.seg.pktPos.toNat + 1) : t.packetHas l := by
  have hl : t.pktLen = s.pktLen := by rw [hf]; rfl
  have hk : ∀ i, t.pktByte i = s.pktByte i := fun i =>
    State.pktByte_congr s t (by rw [hf]; rfl) (by rw [hf]; rfl) i
  obtain ⟨h1, h2⟩ := h
  simp only [List.length_cons] at h1 h2
  refine ⟨by rw [hl]; omega, fun i hi => ?_⟩
  have := h2 (i + 1) (by omega)
  rw [hk, hp, Nat.add_assoc, Nat.add_comm 1 i, this]
  rfl

theorem State.packetHas_head {s : State} {b : Byte} {l : List Byte} (h : s.packetHas (b :: l)) :
    s.seg.pktPos.toNat < s.pktLen.toNat ∧ s.pktByte s.seg.pktPos.toNat = b := by
  obtain ⟨h1, h2⟩ := h
  simp only [List.length_cons] at h1 h2
  exact ⟨by omega, by simpa using h2 0 (by omega)⟩

/-- A start code completed outside a unit, or in an empty one, opens a unit. -/
theorem nalScan_opens (left : Nat) (s : State) (l : List Byte) (hz : s.seg.zc = 2)
    (hu : s.seg.inUnit = false ∨ s.seg.unitLen.toNat = 0) (h : s.packetHas (0x01 :: l)) :
    ∃ t, nalScan (left + 1) s = nalScan left t ∧ t = s.withCollected t ∧
      t.seg.pktPos.toNat = s.seg.pktPos.toNat + 1 ∧ t.packetHas l ∧
      t.seg.inUnit = true ∧ t.seg.unitLen = 0 ∧ t.seg.zc = 0 := by
  obtain ⟨hlt, hb⟩ := State.packetHas_head h
  have hc : s.consumeByte.2.seg.zc = 2 := hz
  have hn : ¬ (s.consumeByte.2.seg.inUnit = true ∧ s.consumeByte.2.seg.unitLen.toNat > 0) := by
    rintro ⟨h1, h2⟩
    have h1 : s.seg.inUnit = true := h1
    have h2 : s.seg.unitLen.toNat > 0 := h2
    rcases hu with hu | hu
    · rw [hu] at h1; cases h1
    · omega
  have hpos := s.consumeByte_pos hlt
  have e := scanByte_startCode _ hc
  rw [if_neg hn] at e
  refine ⟨_, nalScan_none left s _ 0x01 hlt hb e, rfl, hpos, ?_, rfl, rfl, rfl⟩
  exact State.packetHas_next h rfl hpos

/-! ## Outside a unit -/

/-- Bytes without a start code are dropped outside a unit; ZC counts the zeros that end them. -/
theorem nalScan_outside (l : List Byte) (s : State) (q : List Byte) (left : Nat) (hu : s.seg.inUnit = false)
    (hz : s.seg.zc.val = min 2 (trailingZeros q)) (hf : startCodeFree (q ++ l)) (h : s.packetHas l) :
    ∃ t, nalScan (left + l.length) s = nalScan left t ∧
      t = { s with seg := { s.seg with zc := t.seg.zc, pktPos := t.seg.pktPos } } ∧
      t.seg.pktPos.toNat = s.seg.pktPos.toNat + l.length ∧ t.seg.zc.val = min 2 (trailingZeros (q ++ l)) := by
  induction l generalizing s q with
  | nil => exact ⟨s, rfl, rfl, rfl, by simpa using hz⟩
  | cons b l ih =>
    obtain ⟨hlt, hb⟩ := State.packetHas_head h
    have hpos := s.consumeByte_pos hlt
    have hql : q ++ b :: l = (q ++ [b]) ++ l := by simp
    rw [hql] at hf ⊢
    have hstep : ∃ z : Fin 3, scanByte b s.consumeByte.2 = (.none, s.consumeByte.2.setZc z) ∧
        z.val = min 2 (trailingZeros (q ++ [b])) := by
      by_cases hb0 : b = 0x00
      · subst hb0
        rw [trailingZeros_zero]
        by_cases hz2 : s.seg.zc = 2
        · have hv : s.seg.zc.val = 2 := by rw [hz2]; rfl
          refine ⟨2, ?_, by show 2 = _; omega⟩
          rw [scanByte_zero _ (by exact hz2), if_neg (by simp [State.consumeByte, hu])]
          rw [show (s.consumeByte.2.setZc 2 : State) = s.consumeByte.2 from by
            simp [State.setZc, State.consumeByte, ← hz2]]
        · refine ⟨_, scanByte_count _ hz2, ?_⟩
          have h3 : s.seg.zc.val ≠ 2 := fun h => hz2 (Fin.ext h)
          have hc : s.consumeByte.2.seg.zc = s.seg.zc := rfl
          rw [hc]
          by_cases h0 : s.seg.zc = 0
          · have : s.seg.zc.val = 0 := by rw [h0]; rfl
            rw [if_pos h0]; show 1 = _; omega
          · have : s.seg.zc.val ≠ 0 := fun h => h0 (Fin.ext h)
            have := s.seg.zc.isLt
            rw [if_neg h0]; show 2 = _; omega
      · refine ⟨0, ?_, by rw [trailingZeros_data q b hb0]; rfl⟩
        rw [scanByte_data b _ hb0 ?_, if_neg (by simp [State.consumeByte, hu])]
        rintro ⟨h1, h2⟩
        have h2 : s.seg.zc.val = 2 := by rw [show s.seg.zc = 2 from h2]; rfl
        exact startCodeFree_data (startCodeFree_left hf) (by omega) h1
    obtain ⟨z, e, hz'⟩ := hstep
    obtain ⟨t, h1, h2, h3, h4⟩ := ih (s.consumeByte.2.setZc z) (q ++ [b]) hu hz' hf (State.packetHas_next h rfl hpos)
    refine ⟨t, ?_, ?_, ?_, h4⟩
    · rw [List.length_cons, ← Nat.add_assoc, nalScan_none (left + l.length) s _ b hlt hb e, h1]
    · rw [h2]; rfl
    · rw [h3, State.setZc_seg_pktPos, hpos, List.length_cons]; omega

/-! ## Inside a unit -/

/-- The unit in progress is `c ++ q`, of which the scanner keeps the last ZC bytes back, zeros that end `q`. -/
structure State.InUnit (s : State) (c q : List Byte) : Prop where
  inUnit : s.seg.inUnit = true
  len : s.seg.unitLen.toNat + s.seg.zc.val = (c ++ q).length
  bytes : ∀ i, i < s.seg.unitLen.toNat → s.unitByte i = (c ++ q).getD i 0
  zeros : ∀ i, s.seg.unitLen.toNat ≤ i → i < (c ++ q).length → (c ++ q).getD i 0 = 0
  count : s.seg.zc.val = min 2 (trailingZeros q)

/-- One byte of a unit that fits. -/
theorem nalScan_inside_byte (left : Nat) (s : State) (c q : List Byte) (b : Byte) (l : List Byte)
    (hm : s.params.unitMax < 2 ^ 32) (hs : s.InUnit c q) (hf : startCodeFree (q ++ [b]))
    (hfit : (c ++ q).length + 1 ≤ s.params.unitMax + 2) (hdata : b ≠ 0x00 → (c ++ q).length + 1 ≤ s.params.unitMax)
    (h : s.packetHas (b :: l)) :
    ∃ t, nalScan (left + 1) s = nalScan left t ∧ t.InUnit c (q ++ [b]) ∧ t = s.withCollected t ∧
      t.seg.pktPos.toNat = s.seg.pktPos.toNat + 1 ∧ t.packetHas l := by
  obtain ⟨hlt, hb⟩ := State.packetHas_head h
  have hpos := s.consumeByte_pos hlt
  have hlen := hs.len
  have hcount := hs.count
  have hzle := s.seg.zc.isLt
  have hu : s.consumeByte.2.seg.inUnit = true := hs.inUnit
  have hcq : c ++ (q ++ [b]) = (c ++ q) ++ [b] := by simp
  have hl1 : (c ++ q ++ [b]).length = (c ++ q).length + 1 := List.length_append
  have getl : ∀ i, i < (c ++ q).length → (c ++ q ++ [b]).getD i 0 = (c ++ q).getD i 0 := fun i hi => by
    rw [List.getD_eq_getElem?_getD, List.getD_eq_getElem?_getD, List.getElem?_append_left hi]
  have getb : (c ++ q ++ [b]).getD (c ++ q).length 0 = b := by
    rw [List.getD_eq_getElem?_getD, List.getElem?_append_right le_rfl]; simp
  by_cases hb0 : b = 0x00
  · subst hb0
    by_cases hz : s.seg.zc = 2
    · have hzv : s.seg.zc.val = 2 := by rw [hz]; rfl
      have hc : s.consumeByte.2.seg.zc = 2 := hz
      have hov : ¬ s.consumeByte.2.seg.unitLen.toNat + 1 > s.consumeByte.2.params.unitMax := by
        show ¬ s.seg.unitLen.toNat + 1 > s.params.unitMax; omega
      have e : scanByte 0x00 s.consumeByte.2 = (.none, s.consumeByte.2.appendByte 0x00) := by
        rw [scanByte_zero _ hc, if_pos hu, if_neg hov]
      have hl : (s.consumeByte.2.appendByte 0x00).seg.unitLen.toNat = s.seg.unitLen.toNat + 1 :=
        State.appendByte_len 0x00 s.consumeByte.2 hm (Nat.le_of_not_lt hov)
      have hf' : s.consumeByte.2.appendByte 0x00 = s.withCollected (s.consumeByte.2.appendByte 0x00) := rfl
      refine ⟨_, nalScan_none left s _ _ hlt hb e, ⟨hs.inUnit, ?_, ?_, ?_, ?_⟩, hf', hpos,
        State.packetHas_next h hf' hpos⟩
      · rw [hl, hcq, hl1]; show s.seg.unitLen.toNat + 1 + s.seg.zc.val = _; omega
      · intro i hi
        rw [hl] at hi
        rw [hcq, getl i (by omega), State.appendByte_unitByte]
        show (if i = s.seg.unitLen.toNat ∧ i < s.params.unitMax then _ else s.unitByte i) = _
        by_cases h1 : i = s.seg.unitLen.toNat
        · rw [if_pos (by omega), hs.zeros i (by omega) (by omega)]
        · rw [if_neg (by omega), hs.bytes i (by omega)]
      · intro i hi hi2
        rw [hl] at hi
        rw [hcq, hl1] at hi2
        rw [hcq]
        by_cases h1 : i < (c ++ q).length
        · rw [getl i h1, hs.zeros i (by omega) h1]
        · have : i = (c ++ q).length := by omega
          rw [this, getb]
      · rw [trailingZeros_zero]; show s.seg.zc.val = _; omega
    · have h3 : s.seg.zc.val ≠ 2 := fun h => hz (Fin.ext h)
      have hc : s.consumeByte.2.seg.zc = s.seg.zc := rfl
      obtain ⟨z, hzz, hzv⟩ : ∃ z : Fin 3, scanByte 0x00 s.consumeByte.2 = (.none, s.consumeByte.2.setZc z) ∧
          z.val = s.seg.zc.val + 1 := by
        refine ⟨_, scanByte_count _ hz, ?_⟩
        rw [hc]; revert hz; generalize s.seg.zc = z; revert z; decide
      have hf' : s.consumeByte.2.setZc z = s.withCollected (s.consumeByte.2.setZc z) := rfl
      refine ⟨_, nalScan_none left s _ _ hlt hb hzz, ⟨hs.inUnit, ?_, ?_, ?_, ?_⟩, hf', hpos,
        State.packetHas_next h hf' hpos⟩
      · rw [hcq, hl1]; show s.seg.unitLen.toNat + z.val = _; omega
      · intro i hi
        have hi : i < s.seg.unitLen.toNat := hi
        rw [hcq, getl i (by omega)]
        exact hs.bytes i hi
      · intro i hi hi2
        have hi : s.seg.unitLen.toNat ≤ i := hi
        rw [hcq, hl1] at hi2
        rw [hcq]
        by_cases h1 : i < (c ++ q).length
        · rw [getl i h1, hs.zeros i hi h1]
        · have : i = (c ++ q).length := by omega
          rw [this, getb]
      · rw [trailingZeros_zero]; show z.val = _; omega
  · have hd := hdata hb0
    have hn : ¬ (b = 0x01 ∧ s.consumeByte.2.seg.zc = 2) := by
      rintro ⟨h1, h2⟩
      have h2 : s.seg.zc.val = 2 := by rw [show s.seg.zc = 2 from h2]; rfl
      exact startCodeFree_data hf (by omega) h1
    have hov : ¬ s.consumeByte.2.seg.unitLen.toNat + s.consumeByte.2.seg.zc.val + 1 > s.consumeByte.2.params.unitMax := by
      show ¬ s.seg.unitLen.toNat + s.seg.zc.val + 1 > s.params.unitMax; omega
    have e : scanByte b s.consumeByte.2 =
        (.none, ((s.consumeByte.2.setZc 0).appendZeros s.seg.zc.val).appendByte b) := by
      rw [scanByte_data b _ hb0 hn, if_pos hu, if_neg hov]; rfl
    obtain ⟨q1, q2, q3, q4, _, q6⟩ := State.appendRun_spec b s.seg.zc.val (s.consumeByte.2.setZc 0) hm
      (Nat.le_of_not_lt hov)
    obtain ⟨hfr, hpk⟩ := scanByte_frame b s.consumeByte.2
    rw [e] at hfr hpk
    simp only at hfr hpk
    generalize ((s.consumeByte.2.setZc 0).appendZeros s.seg.zc.val).appendByte b = t at *
    have hul : (s.consumeByte.2.setZc 0).seg.unitLen.toNat = s.seg.unitLen.toNat := rfl
    rw [hul] at q1 q6
    have q4 : t.seg.zc.val = 0 := by rw [q4]; rfl
    have hf' : t = s.withCollected t := State.withCollected_trans rfl hfr
    have hp' := hpk ▸ hpos
    refine ⟨t, nalScan_none left s _ _ hlt hb e, ⟨q3.trans hs.inUnit, ?_, ?_, ?_, ?_⟩, hf', hp',
      State.packetHas_next h hf' hp'⟩
    · rw [q1, q4, hcq, hl1]; omega
    · intro i hi
      rw [q1] at hi
      rw [q6 i, hcq]
      by_cases h1 : s.seg.unitLen.toNat ≤ i ∧ i < s.seg.unitLen.toNat + s.seg.zc.val
      · rw [if_pos h1, getl i (by omega), hs.zeros i h1.1 (by omega)]
      · rw [if_neg h1]
        by_cases h2 : i = s.seg.unitLen.toNat + s.seg.zc.val
        · rw [if_pos h2, h2, hlen, getb]
        · rw [if_neg h2, getl i (by omega)]
          exact hs.bytes i (by omega)
    · intro i hi hi2
      rw [hcq, hl1] at hi2
      omega
    · rw [trailingZeros_data q b hb0, q4]; rfl

/-- Bytes without a start code are collected inside a unit, as long as they fit. -/
theorem nalScan_inside (l : List Byte) (s : State) (c q rest : List Byte) (left : Nat) (hm : s.params.unitMax < 2 ^ 32)
    (hs : s.InUnit c q) (hf : startCodeFree (q ++ l)) (hfit : (c ++ q).length + l.length ≤ s.params.unitMax + 2)
    (hdata : ∀ i, (hi : i < l.length) → l[i] ≠ 0x00 → (c ++ q).length + i + 1 ≤ s.params.unitMax)
    (h : s.packetHas (l ++ rest)) :
    ∃ t, nalScan (left + l.length) s = nalScan left t ∧ t.InUnit c (q ++ l) ∧ t = s.withCollected t ∧
      t.seg.pktPos.toNat = s.seg.pktPos.toNat + l.length ∧ t.packetHas rest := by
  induction l generalizing s q with
  | nil => exact ⟨s, rfl, by simpa using hs, rfl, rfl, h⟩
  | cons b l ih =>
    have hql : q ++ b :: l = (q ++ [b]) ++ l := by simp
    rw [hql] at hf ⊢
    simp only [List.length_cons] at hfit hdata ⊢
    obtain ⟨t, e1, i1, f1, p1, h1⟩ := nalScan_inside_byte (left + l.length) s c q b (l ++ rest) hm hs
      (startCodeFree_left hf) (by omega) (fun hb => by simpa using hdata 0 (by omega) hb) h
    have hp : t.params = s.params := by rw [f1]; rfl
    have hl : (c ++ (q ++ [b])).length = (c ++ q).length + 1 := by simp; omega
    obtain ⟨u, e2, i2, f2, p2, h2⟩ := ih t (q ++ [b]) (by rw [hp]; exact hm) i1 hf (by rw [hp, hl]; omega)
      (fun i hi hb => by
        have := hdata (i + 1) (by omega) (by simpa using hb)
        rw [hp, hl]; omega) h1
    exact ⟨u, by rw [← Nat.add_assoc, e1, e2], i2, State.withCollected_trans f1 f2, by omega, h2⟩

/-! ## To the bytes of the next unit -/

/-- The bytes before the scanner, its held-back zeros first: `bs` begins with the zeros, and the rest stands in the packet. -/
def State.ahead (s : State) (bs : List Byte) : Prop :=
  bs.take s.seg.zc.val = List.replicate s.seg.zc.val 0x00 ∧ s.packetHas (bs.drop s.seg.zc.val)

theorem State.ahead_split {s : State} {as bs : List Byte} (h : s.ahead (as ++ bs)) (hl : 2 ≤ as.length) :
    List.replicate s.seg.zc.val 0x00 ++ as.drop s.seg.zc.val = as ∧ s.packetHas (as.drop s.seg.zc.val ++ bs) := by
  have hz := s.seg.zc.isLt
  obtain ⟨h1, h2⟩ := h
  rw [List.take_append_of_le_length (by omega)] at h1
  rw [List.drop_append_of_le_length (by omega)] at h2
  exact ⟨by rw [← h1]; exact List.take_append_drop _ _, h2⟩

theorem State.ahead_of_zero {s : State} {bs : List Byte} (hz : s.seg.zc = 0) (h : s.packetHas bs) : s.ahead bs := by
  unfold State.ahead
  rw [hz]
  exact ⟨rfl, h⟩

/-- What the scanner reaches: the unit with `c` collected and `bs` ahead, after `n` bytes. -/
structure State.Reaches (s t : State) (c bs : List Byte) (n : Nat) : Prop where
  unit : t.InUnit c (List.replicate t.seg.zc.val 0x00)
  frame : t = s.withCollected t
  ahead : t.ahead bs
  pos : t.seg.pktPos.toNat + (bs.length - t.seg.zc.val) = s.seg.pktPos.toNat + n

theorem State.inUnit_empty {s : State} (hu : s.seg.inUnit = true) (hl : s.seg.unitLen = 0) :
    s.InUnit [] (List.replicate s.seg.zc.val 0x00) := by
  have hl' : s.seg.unitLen.toNat = 0 := by rw [hl]; rfl
  have hz := s.seg.zc.isLt
  refine ⟨hu, by simp [hl'], fun i hi => by omega, fun i _ hi => ?_, ?_⟩
  · rw [List.nil_append, List.length_replicate] at hi
    rw [List.nil_append, List.getD_eq_getElem?_getD, List.getElem?_replicate, if_pos hi]; rfl
  · rw [trailingZeros_replicate]; omega

/-- Start codes inside an empty unit are dropped. -/
theorem nalScan_codes (k : Nat) (s : State) (rest : List Byte) (left : Nat) (hm : s.params.unitMax < 2 ^ 32)
    (hu : s.seg.inUnit = true) (hl : s.seg.unitLen = 0) (h : s.ahead ((List.replicate k startCode).flatten ++ rest)) :
    ∃ t, nalScan (left + (((List.replicate k startCode).flatten ++ rest).length - s.seg.zc.val)) s =
        nalScan (left + (rest.length - t.seg.zc.val)) t ∧
      s.Reaches t [] rest (((List.replicate k startCode).flatten ++ rest).length - s.seg.zc.val) := by
  induction k generalizing s with
  | zero => exact ⟨s, rfl, State.inUnit_empty hu hl, rfl, h, rfl⟩
  | succ k ih =>
    have hz := s.seg.zc.isLt
    generalize hT : (List.replicate k startCode).flatten ++ rest = T at ih
    have hT' : (List.replicate (k + 1) startCode).flatten ++ rest = [0x00, 0x00] ++ 0x01 :: T := by
      rw [List.replicate_succ, List.flatten_cons, List.append_assoc, hT]; rfl
    rw [hT'] at h ⊢
    obtain ⟨hq, hp⟩ := State.ahead_split h (by simp)
    have two : ∀ b ∈ ([0x00, 0x00] : List Byte), b = 0x00 := by decide
    obtain ⟨t, e1, i1, f1, p1, h1⟩ := nalScan_inside (([0x00, 0x00] : List Byte).drop s.seg.zc.val) s []
      (List.replicate s.seg.zc.val 0x00) (0x01 :: T) (left + T.length + 1) hm (State.inUnit_empty hu hl)
      (by rw [hq]; unfold startCodeFree; decide) (by simp; omega)
      (fun i hi hb => absurd (two _ (List.mem_of_mem_drop (List.getElem_mem hi))) hb) hp
    rw [hq] at i1
    have hzt : t.seg.zc.val = 2 := by rw [i1.count]; rfl
    have hlt := i1.len
    simp only [List.nil_append, List.length_cons, List.length_nil] at hlt
    obtain ⟨u, e2, f2, p2, h2, u1, u2, u3⟩ := nalScan_opens (left + T.length) t T (Fin.ext hzt) (.inr (by omega)) h1
    have hz0 : u.seg.zc.val = 0 := by rw [u3]; rfl
    have hpar : u.params = s.params := by rw [f2, f1]; rfl
    obtain ⟨w, e3, r⟩ := ih u (by rw [hpar]; exact hm) u1 u2 (State.ahead_of_zero u3 h2)
    rw [hz0, Nat.sub_zero] at e3 r
    have hlen : ([0x00, 0x00] ++ 0x01 :: T : List Byte).length - s.seg.zc.val =
        T.length + 1 + (([0x00, 0x00] : List Byte).drop s.seg.zc.val).length := by simp; omega
    refine ⟨w, ?_, r.unit, State.withCollected_trans f1 (State.withCollected_trans f2 r.frame), r.ahead, ?_⟩
    · rw [hlen, ← Nat.add_assoc, ← Nat.add_assoc, e1, e2, e3]
    · rw [r.pos, hlen]; omega

/-- A state that keeps no unit held comes to the next unit. -/
theorem nalScan_leads (s : State) (c lead rest : List Byte) (left : Nat) (hm : s.params.unitMax < 2 ^ 32)
    (hh : s.seg.held = false) (ho : s.unitOpens c lead) (h : s.ahead (lead ++ rest)) :
    ∃ t, nalScan (left + ((lead ++ rest).length - s.seg.zc.val)) s = nalScan (left + (rest.length - t.seg.zc.val)) t ∧
      s.Reaches t c rest ((lead ++ rest).length - s.seg.zc.val) := by
  have hz := s.seg.zc.isLt
  obtain ⟨k, ⟨hu, hc, hb, hk, rfl⟩ | ⟨hu, rfl, pre, hf, rfl⟩⟩ := ho
  · rw [hh] at hc
    simp only [Bool.false_eq_true, if_false] at hc
    by_cases hc0 : c = []
    · subst hc0
      exact nalScan_codes k s rest left hm hu (BitVec.eq_of_toNat_eq hc.symm) h
    · obtain rfl := hk.resolve_left hc0
      refine ⟨s, rfl, ⟨hu, by simp [hc], fun i hi => ?_, fun i hi hi2 => ?_, ?_⟩, rfl, h, rfl⟩
      · rw [List.getD_eq_getElem?_getD, List.getElem?_append_left (by omega), List.getElem?_eq_getElem (by omega)]
        exact hb i (by omega)
      · rw [List.length_append, List.length_replicate] at hi2
        rw [List.getD_eq_getElem?_getD, List.getElem?_append_right (by omega), List.getElem?_replicate,
          if_pos (by omega)]; rfl
      · rw [trailingZeros_replicate]; omega
  · generalize hT : (List.replicate k startCode).flatten ++ rest = T
    have hT' : pre ++ startCode ++ (List.replicate k startCode).flatten ++ rest = (pre ++ [0x00, 0x00]) ++ 0x01 :: T := by
      rw [← hT]; simp [startCode]
    rw [hT'] at h ⊢
    obtain ⟨hq, hp⟩ := State.ahead_split h (by simp)
    have hp1 : s.packetHas ((pre ++ [0x00, 0x00]).drop s.seg.zc.val) := by
      refine ⟨by have := hp.1; rw [List.length_append] at this; omega, fun i hi => ?_⟩
      have := hp.2 i (by rw [List.length_append]; omega)
      rwa [List.getElem_append_left hi] at this
    obtain ⟨t, e1, f1, p1, z1⟩ := nalScan_outside ((pre ++ [0x00, 0x00]).drop s.seg.zc.val) s
      (List.replicate s.seg.zc.val 0x00) (left + T.length + 1) hu (by rw [trailingZeros_replicate]; omega)
      (by rw [hq]; exact hf) hp1
    rw [hq] at z1
    have ht2 : trailingZeros (pre ++ [0x00, 0x00]) = trailingZeros pre + 2 := by
      rw [show pre ++ [0x00, 0x00] = pre ++ [0x00] ++ [(0x00 : Byte)] by simp, trailingZeros_zero, trailingZeros_zero]
    have hzt : t.seg.zc.val = 2 := by rw [z1, ht2]; omega
    have ht : t.packetHas (0x01 :: T) := by
      have hk : ∀ i, t.pktByte i = s.pktByte i := fun i =>
        State.pktByte_congr s t (by rw [f1]) (by rw [f1]) i
      have hl : t.pktLen = s.pktLen := by rw [f1]
      refine ⟨by have := hp.1; rw [List.length_append] at this; rw [p1, hl]; omega, fun i hi => ?_⟩
      have := hp.2 (((pre ++ [0x00, 0x00]).drop s.seg.zc.val).length + i) (by rw [List.length_append]; omega)
      rw [List.getElem_append_right (by omega)] at this
      rw [hk, p1, Nat.add_assoc, this]
      simp
    have hut : t.seg.inUnit = false := by rw [f1]; exact hu
    have ft : t = s.withCollected t := by
      have := congrArg s.withCollected f1
      rw [f1]; rfl
    obtain ⟨u, e2, f2, p2, h2, u1, u2, u3⟩ := nalScan_opens (left + T.length) t T (Fin.ext hzt) (.inl hut) ht
    have hz0 : u.seg.zc.val = 0 := by rw [u3]; rfl
    have hpar : u.params = s.params := by rw [f2, ft]; rfl
    rw [← hT] at h2 e2 e1
    obtain ⟨w, e3, r⟩ := nalScan_codes k u rest left (by rw [hpar]; exact hm) u1 u2 (State.ahead_of_zero u3 h2)
    rw [hT] at e1 e2 e3 r
    rw [hz0, Nat.sub_zero] at e3 r
    have hlen : ((pre ++ [0x00, 0x00]) ++ 0x01 :: T).length - s.seg.zc.val =
        T.length + 1 + ((pre ++ [0x00, 0x00]).drop s.seg.zc.val).length := by simp; omega
    refine ⟨w, ?_, r.unit, State.withCollected_trans ft (State.withCollected_trans f2 r.frame), r.ahead, ?_⟩
    · rw [hlen, ← Nat.add_assoc, ← Nat.add_assoc, e1, e2, e3]
    · rw [r.pos, hlen]; omega

/-- The bytes of the unit that stand ahead are collected. -/
theorem nalScan_collects (t : State) (c w rest : List Byte) (left : Nat) (hm : t.params.unitMax < 2 ^ 32)
    (hu : t.InUnit c (List.replicate t.seg.zc.val 0x00)) (ha : t.ahead (w ++ rest)) (hz : t.seg.zc.val ≤ w.length)
    (hf : startCodeFree w) (hfit : (c ++ w).length ≤ t.params.unitMax + min 2 (trailingZeros w) ∨
      ∃ v, w = v ++ List.replicate (w.length - v.length) 0x00 ∧ w.length ≤ v.length + 2 ∧
        (c ++ v).length ≤ t.params.unitMax) :
    ∃ u, nalScan (left + ((w ++ rest).length - t.seg.zc.val)) t = nalScan (left + rest.length) u ∧ u.InUnit c w ∧
      u = t.withCollected u ∧ u.packetHas rest ∧
      u.seg.pktPos.toNat = t.seg.pktPos.toNat + (w.length - t.seg.zc.val) := by
  obtain ⟨h1, h2⟩ := ha
  rw [List.take_append_of_le_length hz] at h1
  rw [List.drop_append_of_le_length hz] at h2
  have hq : List.replicate t.seg.zc.val 0x00 ++ w.drop t.seg.zc.val = w := by
    rw [← h1]; exact List.take_append_drop _ _
  have hbound : (c ++ w).length ≤ t.params.unitMax + 2 ∧
      ∀ i, (hi : i < w.length) → w[i] ≠ 0x00 → c.length + i + 1 ≤ t.params.unitMax := by
    simp only [List.length_append] at hfit ⊢
    rcases hfit with hfit | ⟨v, hv, hvl, hfit⟩
    · refine ⟨by omega, fun i hi hb => ?_⟩
      have := trailingZeros_below w i hi hb
      omega
    · refine ⟨by omega, fun i hi hb => ?_⟩
      by_cases h : i < v.length
      · omega
      · refine absurd ?_ hb
        rw [List.getElem_of_eq hv, List.getElem_append_right (by omega), List.getElem_replicate]
  have hlen : (c ++ List.replicate t.seg.zc.val (0x00 : Byte)).length = c.length + t.seg.zc.val := by simp
  obtain ⟨u, e, i, f, p, r⟩ := nalScan_inside (w.drop t.seg.zc.val) t c _ rest (left + rest.length) hm hu
    (by rw [hq]; exact hf) (by rw [hlen, List.length_drop]; have := hbound.1; rw [List.length_append] at this; omega)
    (fun i hi hb => by
      rw [List.getElem_drop] at hb
      rw [List.length_drop] at hi
      have := hbound.2 _ (by omega) hb
      rw [hlen]; omega) h2
  rw [hq] at i
  rw [List.length_drop] at p e
  refine ⟨u, ?_, i, f, r, p⟩
  rw [← e, List.length_append]
  congr 1
  omega

/-! ## From SEG_NEXT on -/

/-- The release leaves the bytes before the scanner. -/
theorem State.scanHolds_release {s : State} {bs : List Byte} (h : s.scanHolds bs) : s.release.ahead bs := by
  obtain ⟨h1, h2, _, h3⟩ := h
  have hz : s.release.seg.zc = s.seg.zc := by rw [State.release_eq]
  have hp : s.release.seg.pktPos = s.seg.pktPos := by rw [State.release_eq]
  have hl : s.release.pktLen = s.pktLen := by rw [State.release_eq]
  have hb : ∀ i, s.release.pktByte i = s.pktByte i := fun i => by
    apply State.pktByte_congr <;> rw [State.release_eq]
  unfold State.ahead State.packetHas
  rw [hz, hp, hl]
  exact ⟨h1, by rw [List.length_drop]; omega, fun i hi => by rw [hb]; exact h3 i hi⟩

/-- The release empties a held unit and opens the one that is to come. -/
theorem State.unitOpens_release {s : State} {c lead : List Byte} (h : s.unitOpens c lead) :
    s.release.unitOpens c lead := by
  have hu : s.release.seg.inUnit = s.seg.inUnit := by rw [State.release_eq]
  have hh : s.release.seg.held = false := by rw [State.release_eq]
  have hl : s.release.seg.unitLen.toNat = if s.seg.held then 0 else s.seg.unitLen.toNat := by
    rw [State.release_eq]
    cases s.seg.held <;> rfl
  have hb : s.unitHolds c → s.release.unitHolds c := fun h i hi => by
    rw [State.unitByte_congr s s.release (by rw [State.release_eq]) (by rw [State.release_eq])]
    exact h i hi
  obtain ⟨k, ⟨h1, h2, h3, h4⟩ | h⟩ := h
  · refine ⟨k, .inl ⟨hu.trans h1, ?_, hb h3, h4⟩⟩
    rw [hh, hl, h2]; rfl
  · exact ⟨k, .inr ⟨hu.trans h.1, h.2⟩⟩

/-- SEG_NEXT of an active packet in byte-stream mode scans from the released state. -/
theorem segNext_scans (s : State) (hv : s.cfg.valid = true) (hbs : s.byteStream = true) (ha : s.seg.active = true) :
    exec .segNext s = .next (nalScan (s.pktLen.toNat - s.seg.pktPos.toNat) s.release) := by
  have hb : s.release.byteStream = true := by
    rw [State.release_eq]; exact hbs
  rw [exec_segNext, if_neg (by simp [hv]), if_neg (by simp [ha])]
  rcases s.release.modeNext_cases with ⟨_, h⟩ | ⟨h, _⟩
  · rw [h, State.nalByteStreamNext]
    have hl : s.release.pktLen = s.pktLen := by rw [State.release_eq]
    have hp : s.release.seg.pktPos = s.seg.pktPos := by rw [State.release_eq]
    rw [hl, hp]
  · rw [hb] at h; cases h

/-- SEG_NEXT comes to the bytes of the next unit. -/
theorem segNext_leads (s : State) (c lead rest : List Byte) (hm : s.params.unitMax < 2 ^ 32) (hv : s.cfg.valid = true)
    (hbs : s.byteStream = true) (ha : s.seg.active = true) (ho : s.unitOpens c lead) (h : s.scanHolds (lead ++ rest)) :
    ∃ t left, exec .segNext s = .next (nalScan (left + (rest.length - t.seg.zc.val)) t) ∧
      left + (lead ++ rest).length = s.seg.zc.val + (s.pktLen.toNat - s.seg.pktPos.toNat) ∧
      s.release.Reaches t c rest ((lead ++ rest).length - s.seg.zc.val) := by
  have hz : s.release.seg.zc = s.seg.zc := by rw [State.release_eq]
  have hp : s.release.params = s.params := by rw [State.release_eq]
  have hlen : s.seg.zc.val ≤ (lead ++ rest).length := by
    have := congrArg List.length h.1
    rw [List.length_take, List.length_replicate] at this
    omega
  obtain ⟨t, e, r⟩ := nalScan_leads s.release c lead rest
    (s.pktLen.toNat - s.seg.pktPos.toNat - ((lead ++ rest).length - s.seg.zc.val)) (by rw [hp]; exact hm)
    (by rw [State.release_eq]) (State.unitOpens_release ho) (State.scanHolds_release h)
  rw [hz] at e r
  have h2 := h.2.1
  refine ⟨t, s.pktLen.toNat - s.seg.pktPos.toNat - ((lead ++ rest).length - s.seg.zc.val), ?_, ?_, r⟩
  · rw [segNext_scans s hv hbs ha, ← e]
    congr 2
    omega
  · omega

end Sys2Proof.Machine
end

