-- ==== Sys2Proof/Machine/Assembler.lean ====
section
/-! DEFINITION. The assembler syntax (spec/30_encoding.md R87, R88) over a line already split into its mnemonic and its
operands, and the spelled host actions as bus accesses. -/

namespace Sys2Proof.Machine

/-- An operand of an assembler line: a word or a decimal number (R87). -/
inductive Token where
  | word (s : String)
  | num (n : Nat)
  deriving DecidableEq, Repr

/-- The mnemonic of a command (spec/30_encoding.md R82). -/
def mnemonic : Instr → String
  | .nop => "NOP"
  | .sreset => "SRESET"
  | .config _ _ => "CONFIG"
  | .loadUnit _ _ => "LOAD_UNIT"
  | .u _ => "U"
  | .ue => "UE"
  | .se => "SE"
  | .uvlc => "UVLC"
  | .align _ => "ALIGN"
  | .aligned => "ALIGNED"
  | .leb128 => "LEB128"
  | .su _ => "SU"
  | .le _ => "LE"
  | .ns => "NS"
  | .subexp => "SUBEXP"
  | .subexpRef => "SUBEXP_REF"
  | .segPacket _ _ _ => "SEG_PACKET"
  | .segNext => "SEG_NEXT"

/-- The commands without operands (R87). -/
def bareCommands : List Instr :=
  [.nop, .sreset, .ue, .se, .uvlc, .aligned, .leb128, .ns, .subexp, .subexpRef, .segNext]

/-- `CONFIG h264|h265|vp9|av1` (R87). -/
def codecWord : String → Option Codec
  | "h264" => some .h264
  | "h265" => some .h265
  | "vp9" => some .vp9
  | "av1" => some .av1
  | _ => none

/-- CONFIG's second operand; `lengthprefixed` and `annexb` only with their codecs (R87), and `bytestream` and `lowoverhead`
likewise (log 13). -/
def inmodeWord (c : Codec) (w : String) : Option Bool :=
  match c with
  | .h264 => if w = "bytestream" then some false else if w = "lengthprefixed" then some true else none
  | .h265 => if w = "bytestream" then some false else if w = "lengthprefixed" then some true else none
  | .av1 => if w = "lowoverhead" then some false else if w = "annexb" then some true else none
  | .vp9 => none

/-- SEG_PACKET's flags, in any order, each at most once (R87). -/
def packetFlags : List Token → (eos eop disc : Bool) → Option Instr
  | [], eos, eop, disc => some (.segPacket eos eop disc)
  | .word "eos" :: ts, false, eop, disc => packetFlags ts true eop disc
  | .word "eop" :: ts, eos, false, disc => packetFlags ts eos true disc
  | .word "disc" :: ts, eos, eop, false => packetFlags ts eos eop true
  | _, _, _, _ => none

/-- The commands with operands (R87). -/
def operandCommand (m : String) (ops : List Token) : Option Instr :=
  if m = "SEG_PACKET" then packetFlags ops false false false
  else
    match m, ops with
    | "U", [.num n] => some (.u n)
    | "SU", [.num n] => some (.su n)
    | "LE", [.num n] => some (.le n)
    | "ALIGN", [.word "skip"] => some (.align .skip)
    | "ALIGN", [.word "zero"] => some (.align .zero)
    | "ALIGN", [.word "rbsp"] => some (.align .rbsp)
    | "CONFIG", [.word c] => (codecWord c).map fun codec => .config codec false
    | "CONFIG", [.word c, .word w] =>
      (codecWord c).bind fun codec => (inmodeWord codec w).map fun inmode => .config codec inmode
    | "LOAD_UNIT", [.word "unit"] => some (.loadUnit .unit false)
    | "LOAD_UNIT", [.word "pkt"] => some (.loadUnit .pkt false)
    | "LOAD_UNIT", [.word "unit", .word "epb"] => some (.loadUnit .unit true)
    | "LOAD_UNIT", [.word "pkt", .word "epb"] => some (.loadUnit .pkt true)
    | _, _ => none

/-- The pseudo-instructions (R88). -/
def pseudoCommand : String → List Token → Option Pseudo
  | "FLAG", [] => some .flag
  | "SKIP", [.num n] => some (.skip n)
  | "F", [.num n] => some (.f n)
  | "TRAILING", [] => some .trailing
  | "BYTE_ALIGNMENT", [] => some .byteAlignment
  | "LOAD_NAL", [] => some .loadNal
  | _, _ => none

/-- The command an assembler line stands for (R87, R88). -/
def assemble (m : String) (ops : List Token) : Option Instr :=
  match bareCommands.find? (fun i => mnemonic i == m && ops.isEmpty) with
  | some i => some i
  | none =>
    match operandCommand m ops with
    | some i => if i.wellFormed then some i else none
    | none =>
      match (pseudoCommand m ops).map Pseudo.expand with
      | some i => if i.wellFormed then some i else none
      | none => none

/-- `SET <register>, <value>` (R87). -/
def setRegister (r : Reg) (v : Word) : HostAccess := .write (Word.ofNat r.offset) .word v

/-- `READ <register>` (R87). -/
def readRegister (r : Reg) : HostAccess := .read (Word.ofNat r.offset) .word

/-- `POKE PKT[<i>], <hex bytes>` (R87): one byte write for each byte. -/
def pokePacket : Nat → List Byte → List HostAccess
  | _, [] => []
  | i, b :: bs => .write (Word.ofNat (Config.pktBase + i)) .byte (b.zeroExtend 32) :: pokePacket (i + 1) bs

end Sys2Proof.Machine
end

