-- ==== Sys2Proof/Tests/Slice0.lean ====
section
/-! SUPPORT. Tests: ill-formed commands refused, every command's word decoded, one step of each command against the vectors
of spec/95_test_vectors.md, and for each statement with hypotheses a state and operands that meet them. -/

namespace Sys2Proof.Tests

open Sys2Proof Sys2Proof.Machine

/-! ## Ill-formed commands -/

theorem test_wellFormed_u_33 : (Instr.u 33).wellFormed = false := by decide
theorem test_wellFormed_su_0 : (Instr.su 0).wellFormed = false := by decide
theorem test_wellFormed_su_33 : (Instr.su 33).wellFormed = false := by decide
theorem test_wellFormed_le_0 : (Instr.le 0).wellFormed = false := by decide
theorem test_wellFormed_le_5 : (Instr.le 5).wellFormed = false := by decide
theorem test_wellFormed_config_vp9_1 : (Instr.config .vp9 true).wellFormed = false := by decide

/-! ## Decoding: a word of every command, its bits written out from spec/30_encoding.md R80 to R85 -/

/-- What the decoder answers to an opcode, given as the table's six bits, over the 26 operand bits. -/
def decoded (opcode : BitVec 6) (operands : BitVec 26) : Option Instr := decodeTableWord 32 (opcode ++ operands).toNat

theorem test_decode_nop : decoded 0b000000 0 = some .nop := by decide
theorem test_decode_sreset : decoded 0b000001 0 = some .sreset := by decide
theorem test_decode_config_h264 : decoded 0b000010 0b000 = some (.config .h264 false) := by decide
theorem test_decode_config_h265_1 : decoded 0b000010 0b101 = some (.config .h265 true) := by decide
theorem test_decode_config_vp9 : decoded 0b000010 0b010 = some (.config .vp9 false) := by decide
theorem test_decode_config_av1_1 : decoded 0b000010 0b111 = some (.config .av1 true) := by decide
theorem test_decode_loadUnit_epb : decoded 0b000011 0b01 = some (.loadUnit .unit true) := by decide
theorem test_decode_loadUnit_pkt : decoded 0b000011 0b10 = some (.loadUnit .pkt false) := by decide
theorem test_decode_u_32 : decoded 0b001000 0b100000 = some (.u 32) := by decide
theorem test_decode_ue : decoded 0b001001 0 = some .ue := by decide
theorem test_decode_se : decoded 0b001010 0 = some .se := by decide
theorem test_decode_uvlc : decoded 0b001011 0 = some .uvlc := by decide
theorem test_decode_align_skip : decoded 0b001100 0b00 = some (.align .skip) := by decide
theorem test_decode_align_zero : decoded 0b001100 0b01 = some (.align .zero) := by decide
theorem test_decode_align_rbsp : decoded 0b001100 0b10 = some (.align .rbsp) := by decide
theorem test_decode_aligned : decoded 0b001101 0 = some .aligned := by decide
theorem test_decode_leb128 : decoded 0b010000 0 = some .leb128 := by decide
theorem test_decode_su_32 : decoded 0b010001 0b100000 = some (.su 32) := by decide
theorem test_decode_le_4 : decoded 0b010010 0b100 = some (.le 4) := by decide
theorem test_decode_ns : decoded 0b010011 0 = some .ns := by decide
theorem test_decode_subexp : decoded 0b010100 0 = some .subexp := by decide
theorem test_decode_subexpRef : decoded 0b010101 0 = some .subexpRef := by decide
theorem test_decode_segPacket_eos : decoded 0b100000 0b001 = some (.segPacket true false false) := by decide
theorem test_decode_segPacket_eop_disc : decoded 0b100000 0b110 = some (.segPacket false true true) := by decide
theorem test_decode_segNext : decoded 0b100001 0 = some .segNext := by decide

/-- The rejection of a word, if it is rejected. -/
def rejection (hasAux : Bool) (w : Word) : Option DecodeError :=
  match decode hasAux w with
  | .ok _ => none
  | .error e => some e

/-- D-1, D-2. -/
theorem test_reject_opcodes :
    [0x18000000, 0xFC000000].map (rejection true) = [some .unlistedOpcode, some .unlistedOpcode] := by decide
/-- D-3, D-4, D-6, D-7, D-10, D-11, D-17 to D-20. -/
theorem test_reject_reserved_bits :
    ([0x00000001, 0x04000100, 0x08000008, 0x0C000004, 0x20000040, 0x24000001, 0x48000008, 0x80000008, 0x84000001,
      0x0F000000] : List Word).all (fun w => rejection true w == some .reservedBit) = true := by decide
/-- D-5, D-8, D-9, D-12 to D-16. -/
theorem test_reject_operands :
    ([0x08000006, 0x20000021, 0x2000003F, 0x30000003, 0x44000000, 0x44000021, 0x48000000, 0x48000005] : List Word).all
      (fun w => rejection true w == some .operandConstraint) = true := by decide
/-- spec/95_test_vectors.md section 2.1, last line. -/
theorem test_reject_without_aux : rejection false 0x40000000 = some .auxAbsent := by decide

/-! ## One step on a small state -/

/-- The state after a command. -/
def after (i : Instr) (s : State) : State :=
  match exec i s with
  | .next t => t
  | .fault _ => s
  | .refused _ => s

/-- Bytes as the cells of a memory, from index 0 on. -/
def cells (bytes : List Byte) : List Host.Cell := bytes.zipIdx.map fun c => (c.2, c.1)

/-- A unit bound from PKT_MEM whose payload is `bytes`, with the reader at bit `pos`. -/
def reader (bytes : List Byte) (pos : Nat) : State :=
  { State.reset with
    rd := { Reader.reset with
      unitValid := true, src := .pkt, pos := Word.ofNat pos, rawLen := Word.ofNat bytes.length, payload := cells bytes } }

/-- The same with ARG0 to ARG2. -/
def withArgs (s : State) (a0 a1 a2 : Int) : State :=
  { s with arg0 := Word.ofInt a0, arg1 := Word.ofInt a1, arg2 := Word.ofInt a2 }

/-- PKT_MEM holding `bytes`, PKT_LEN their number, in a configured session. -/
def session (codec : Codec) (inmode : Bool) (bytes : List Byte) : State :=
  { State.reset with
    cfg := { codec := codec, inmode := inmode, valid := true }, pktLen := Word.ofNat bytes.length,
    pktMem := cells bytes }

/-- The same with the packet accepted. -/
def packet (codec : Codec) (inmode : Bool) (bytes : List Byte) : State :=
  let s := session codec inmode bytes
  { s with seg := { s.seg with active := true } }

/-- RESULT, POS, CMD_STATUS and RD_STATUS. -/
def readerView (s : State) : List Word := [s.result, s.rd.pos, s.cmdStatus, s.rd.status]

/-- CMD_STATUS, SEG_STATUS, PKT_POS, UNIT_LEN and UNIT_INFO. -/
def segmenterView (s : State) : List Word :=
  [s.cmdStatus, s.seg.status, s.seg.pktPos, s.seg.unitLen, s.seg.unitInfo]

/-- R120: after an illegal word NOP reports success. -/
theorem test_nop : readerView (after .nop ((reader [0xA5] 3).refusedWith .illegalCmd)) = [0, 3, 1, 0x05] := by decide
/-- S-ERR-4, step 8. -/
theorem test_sreset : readerView (after .sreset (reader [0x80] 1)) = [0, 0, 1, 0x10] := by decide
/-- S-LP-1, step 1. -/
theorem test_config : (after (.config .h265 true) State.reset).cfg.word = 0xD := by decide
/-- P-6: RESULT and P. -/
theorem test_loadUnit_filters :
    let t := after (.loadUnit .pkt true) (withArgs (session .h264 false [0x00, 0x00, 0x03, 0x03]) 0 4 0)
    t.result = 3 ∧ t.rd.bytes = [0x00, 0x00, 0x03] := by decide
/-- S-ERR-3, step 1. -/
theorem test_loadUnit_noUnit : readerView (after (.loadUnit .unit false) State.reset) = [0, 0, 0x200, 0x10] := by decide
/-- U-2. -/
theorem test_u : readerView (after (.u 8) (reader [0xA5, 0x0F] 4)) = [0x50, 12, 1, 0x05] := by decide
/-- U-7. -/
theorem test_u_overrun : readerView (after (.u 5) (reader [0xA5, 0x0F] 12)) = [0, 12, 0x300, 0x30D] := by decide
/-- E-7. -/
theorem test_ue :
    readerView (after .ue (reader [0, 0, 0, 1, 0xFF, 0xFF, 0xFF, 0xFE] 0)) = [0xFFFFFFFE, 63, 1, 0x05] := by decide
/-- E-10. -/
theorem test_ue_overflow : readerView (after .ue (reader [0, 0, 0, 0] 0)) = [0, 0, 0x500, 0x51D] := by decide
/-- E-21. -/
theorem test_se :
    readerView (after .se (reader [0, 0, 0, 1, 0xFF, 0xFF, 0xFF, 0xFE] 0)) = [0x80000001, 63, 1, 0x05] := by decide
/-- E-28. -/
theorem test_uvlc : readerView (after .uvlc (reader [0, 0, 0, 0, 0, 0x80] 0)) = [0xFFFFFFFF, 41, 1, 0x05] := by decide
/-- A-3. -/
theorem test_align_rbsp : readerView (after (.align .rbsp) (reader [0xA0] 2)) = [6, 8, 1, 0x15] := by decide
/-- A-8. -/
theorem test_align_zero : readerView (after (.align .zero) (reader [0xE4] 3)) = [0, 3, 0x400, 0x40D] := by decide
/-- A-13. -/
theorem test_aligned : readerView (after .aligned (reader [0xE4] 8)) = [1, 8, 1, 0x15] := by decide
/-- X-1. -/
theorem test_leb128 : readerView (after .leb128 (reader [0xE5, 0x8E, 0x26] 0)) = [0x98765, 24, 1, 0x15] := by decide
/-- X-10. -/
theorem test_leb128_unaligned : readerView (after .leb128 (reader [0x00, 0x50] 4)) = [5, 12, 1, 0x05] := by decide
/-- X-13. -/
theorem test_su : readerView (after (.su 3) (reader [0x80] 0)) = [0xFFFFFFFC, 3, 1, 0x05] := by decide
/-- X-22. -/
theorem test_le : readerView (after (.le 2) (reader [0x03, 0x41, 0x20] 4)) = [0x1234, 20, 1, 0x05] := by decide
/-- X-24. -/
theorem test_ns : readerView (after .ns (withArgs (reader [0xE0] 0) 5 0 0)) = [4, 3, 1, 0x05] := by decide +kernel
/-- X-34. -/
theorem test_subexp : readerView (after .subexp (withArgs (reader [0xE0, 0x00] 0) 100 0 0)) = [0x20, 9, 1, 0x05] := by
  decide +kernel
/-- X-39. -/
theorem test_subexpRef :
    readerView (after .subexpRef (withArgs (reader [0x10] 0) (-16) 17 0)) = [0xFFFFFFFF, 4, 1, 0x05] := by decide +kernel
/-- X-41. -/
theorem test_subexpRef_mirrored :
    readerView (after .subexpRef (withArgs (reader [0x00] 0) 0 10 9)) = [9, 3, 1, 0x05] := by decide +kernel
/-- S-VP9-1, step 3: the index of two frames. -/
theorem test_segPacket_index :
    let t := after (.segPacket false false false)
      (session .vp9 false [0xF0, 0xF1, 0xF2, 0xE0, 0xE1, 0xC1, 0x03, 0x02, 0xC1])
    t.seg.sfCount = 2 ∧ t.seg.sfIndexSize = 4 ∧ t.seg.sfSize = #v[3, 2, 0, 0, 0, 0, 0, 0] := by decide +kernel
/-- S-NAL-7, step 4. -/
theorem test_segPacket_busy :
    segmenterView (after (.segPacket false false false) (packet .h264 false [0, 0, 1, 9, 0x10])) =
      [0x1A00, 0x04, 0, 0, 0] := by decide
/-- S-NAL-1, step 4. -/
theorem test_segNext_nal :
    segmenterView (after .segNext (packet .h264 false [0, 0, 1, 0x67, 0xAA, 0, 0, 1, 0x68, 0xBB])) =
      [1, 0x1D, 8, 2, 0] := by decide +kernel
/-- S-AV1-2, step 4. -/
theorem test_segNext_obu :
    segmenterView (after .segNext (packet .av1 false [0x36, 0x6B, 0x82, 0x00, 0xEE, 0xEE])) =
      [1, 0x0D, 6, 2, 0x000435B6] := by decide +kernel
/-- The step takes a command word from the host's queue: U-1. -/
theorem test_step_u :
    (match step ((reader [0xA5, 0x0F] 0).withFetchWord 32 0x20000004) with
     | .next t => readerView t
     | .fault _ => []
     | .refused _ => []) = [0xA, 4, 1, 0x05] := by decide
/-- R22: every offset of the map names its own register. -/
theorem test_register_map : Reg.all.all (fun r => Reg.ofOffset r.offset == some r) = true := by decide

/-! ## Witnesses: the hypotheses of each statement can be met, each clause at a boundary -/

theorem witness_DecodeOfEncodeIsInstruction :
    ((Instr.le 4).wellFormed = true ∧ ((Instr.le 4).isAux = true → true = true)) ∧
    ((Instr.u 0).wellFormed = true ∧ ((Instr.u 0).isAux = true → false = true)) := by decide

theorem witness_EncodeOfDecodeIsWord : decode true 0x48000004 = .ok (.le 4) := by rfl

theorem witness_ReservedEncodingsAreRefused :
    ([0x10000000, 0x1FFFFFFF, 0x38000000, 0x3C000000, 0x58000000, 0x7FFFFFFF, 0x88000000] : List Word).all (fun w =>
      decide ((0x04 ≤ w.toNat / 2 ^ 26 ∧ w.toNat / 2 ^ 26 ≤ 0x07) ∨ w.toNat / 2 ^ 26 = 0x0E ∨ w.toNat / 2 ^ 26 = 0x0F ∨
        (0x16 ≤ w.toNat / 2 ^ 26 ∧ w.toNat / 2 ^ 26 ≤ 0x1F) ∨ 0x22 ≤ w.toNat / 2 ^ 26)) = true ∧
    ([0x40000000, 0x57FFFFFF] : List Word).all (fun w =>
      decide (0x10 ≤ w.toNat / 2 ^ 26 ∧ w.toNat / 2 ^ 26 ≤ 0x15)) = true ∧
    ((Instr.u 0).wellFormed = true ∧ ((Instr.u 0).isAux = true → false = true) ∧
      (0x20000040 : Word).toNat / 2 ^ 26 = (encode (.u 0)).toNat / 2 ^ 26 ∧
      2 ^ (Instr.u 0).opcode.format.fieldBits ≤ (0x20000040 : Word).toNat % 2 ^ 26) ∧
    (33 ≤ 33 ∧ 63 < 2 ^ 6) ∧ (5 ≤ 5 ∧ 7 < 2 ^ 3) ∧
    rejection State.reset.params.hasAux 0x10000000 = some .unlistedOpcode := by decide

theorem witness_StepRunsDecodedCommand :
    (let s := State.reset.withFetchWord 32 0x04000000
     s.pending = commandAccess 0x04000000 :: [] ∧ decode s.params.hasAux 0x04000000 = .ok .sreset) ∧
    (let s := State.reset.withFetchWord 32 0x30000003
     s.pending = commandAccess 0x30000003 :: [] ∧
      decode s.params.hasAux 0x30000003 = .error .operandConstraint) := ⟨⟨rfl, rfl⟩, rfl, rfl⟩

theorem witness_IllegalWordHasNoLaterEffect :
    decode State.reset.params.hasAux 0x30000003 = .error .operandConstraint := by rfl

theorem witness_EveryStepAnswersNext :
    (State.reset.withFetchWord 32 0x04000000).pending = commandAccess 0x04000000 :: [] ∧
    ({ State.reset with pending := [.read 0x10 .word] } : State).pending = .read 0x10 .word :: [] ∧
    State.reset.pending = [] := ⟨rfl, rfl, rfl⟩

theorem witness_HostWritesLeaveUnitsAlone :
    (∀ w, HostAccess.write 0x30 .word 5 ≠ commandAccess w) ∧
    ∃ t, perform (.write 0x30 .word 5) State.reset = .next t :=
  ⟨fun w h => by injection h with h _ _; exact absurd h (by decide), _, rfl⟩

theorem witness_PacketWriteStoresLittleEndian :
    ([(0x01000000, .word), (0x01000FFC, .word), (0x01000FFE, .half), (0x01000FFF, .byte)] :
        List (Word × AccessWidth)).all (fun c =>
      decide (c.1.toNat % c.2.bytes = 0 ∧ Config.pktBase ≤ c.1.toNat ∧
        c.1.toNat + c.2.bytes ≤ Config.pktBase + State.reset.params.pktMax ∧
        State.reset.params.pktMax ≤ 2 ^ 24)) = true := by decide

theorem witness_MemoryReadIsLittleEndian :
    ((0x100 : Word).toNat % AccessWidth.word.bytes = 0 ∧ 0x100 ≤ (0x100 : Word).toNat) ∧
    (let s : State := State.resetWith (Params.mk (2 ^ 24) (2 ^ 24) [] false)
     s.params.pktMax ≤ 2 ^ 24 ∧ s.params.unitMax ≤ 2 ^ 24 ∧ 2 ^ 24 - 1 < s.params.pktMax ∧
      2 ^ 24 - 1 < s.params.unitMax ∧ 0 < s.params.unitMax) := by decide

theorem witness_DisallowedAccessesDoNothing :
    State.reset.params.pktMax ≤ 2 ^ 24 ∧ (0x01000002 : Word).toNat % AccessWidth.word.bytes ≠ 0 ∧
    ((0xFF : Word).toNat < 0x100 ∧ AccessWidth.byte ≠ .word) ∧
    ([0x2C, 0x3C, 0x60, 0x6C, 0xA0, 0xFC] : List Word).all (fun a =>
      decide (a.toNat = 0x2C ∨ a.toNat = 0x3C ∨ (0x60 ≤ a.toNat ∧ a.toNat < 0x70) ∨
        (0xA0 ≤ a.toNat ∧ a.toNat < 0x100))) = true ∧
    ([0x100, 0x00FFFFFC, 0x01001000, 0x02000000, 0xFFFFFFFC] : List Word).all (fun a =>
      decide (0x100 ≤ a.toNat ∧ (a.toNat + AccessWidth.word.bytes ≤ Config.pktBase ∨
        Config.pktBase + State.reset.params.pktMax ≤ a.toNat))) = true ∧
    ([0x100, 0x00FFFFFC, 0x01001000, 0x01FFFFFC, 0x02001000, 0xFFFFFFFC] : List Word).all (fun a =>
      decide (0x100 ≤ a.toNat ∧ (a.toNat + AccessWidth.word.bytes ≤ Config.pktBase ∨
        (Config.pktBase + State.reset.params.pktMax ≤ a.toNat ∧
          a.toNat + AccessWidth.word.bytes ≤ Config.unitBase) ∨
        Config.unitBase + State.reset.params.unitMax ≤ a.toNat))) = true := by decide

theorem witness_RegisterWritesFollowTheMap :
    (0 < 8 ∧ 7 < 8) ∧ Reg.arg0 ≠ .cmd ∧ Reg.pktLen ≠ .cmd ∧ Reg.result ≠ .cmd ∧ Reg.sfSize 7 ≠ .cmd := by decide

theorem witness_NopWritesStatusOnly :
    ((0x00000001 : Word) ≠ 0 ∧ (0x00000001 : Word).toNat < 2 ^ 26) ∧
    ((0x03FFFFFF : Word) ≠ 0 ∧ (0x03FFFFFF : Word).toNat < 2 ^ 26) := by decide

theorem witness_ConfigOpensSession : (reader [0x80] 1).rd.src = .pkt ∧ State.reset.rd.src = .unit := by decide

/-- A held unit of `n` bytes of UNIT_MEM. -/
def held (n : Nat) : State :=
  let s := session .h264 false []
  { s with seg := { s.seg with held := true, unitLen := Word.ofNat n } }

theorem witness_LoadUnitBindsPayload :
    (held 2).seg.held = true ∧ State.reset.seg.held = false ∧
    (let s := withArgs State.reset 4095 1 0
     s.arg0.toNat + s.arg1.toNat ≤ s.params.pktMax) ∧
    (let s := withArgs State.reset 4095 2 0
     s.params.pktMax < s.arg0.toNat + s.arg1.toNat) := by decide

theorem witness_FilterRemovesOnlyPreventionBytes :
    (0, 0x00) ∈ epbFilter true [0x00, 0x00, 0x03] 0 0 ∧
    (2 < [0x00, 0x00, (0x03 : Byte)].length ∧ 2 ∉ (epbFilter true [0x00, 0x00, 0x03] 0 0).map Prod.fst) := by decide

theorem witness_FilterRemovesFirstPreventionByte :
    let before : List Byte := [0x67, 0x00, 0x00]
    (∀ i : Nat, ¬ (before[i]? = some 0x00 ∧ before[i + 1]? = some 0x00 ∧ before[i + 2]? = some 0x03)) ∧
    before.reverse.take 2 = [0x00, 0x00] := by
  refine ⟨fun i h => ?_, by decide⟩
  rcases i with _ | i
  · exact absurd h.1 (by decide)
  · exact absurd h.2.2 (by simp)

/-- A unit bound with EPB_EN whose raw bytes are 00 00 03, read to its end. -/
def filtered : State :=
  let s := reader [0x00, 0x00] 16
  { s with rd := { s.rd with epbEn := true, rawLen := 3 } }

theorem witness_EpbCountCountsRemovedBytes :
    filtered.Inv ∧ filtered.rd.pos.toNat / 8 = filtered.rd.plen ∧
    (reader [0x80] 7).Inv ∧
    (reader [0x80] 7).rd.payload[(reader [0x80] 7).rd.pos.toNat / 8]? = some (0, 0x80) :=
  ⟨by constructor <;> decide, by decide, by constructor <;> decide, by decide⟩

theorem witness_ReadRefusals :
    isReadCommand .ns = true ∧ State.reset.argsAccepted .ns = false ∧
    isReadCommand .subexpRef = true ∧ (withArgs State.reset 5 5 0).argsAccepted .subexpRef = false ∧
    (isReadCommand (.u 0) = true ∧ State.reset.argsAccepted (.u 0) = true ∧ State.reset.rd.unitValid = false) ∧
    (let s := (reader [] 0).readFailed .overrun
     s.argsAccepted .aligned = true ∧ s.rd.unitValid = true ∧ s.rd.err = true) := by decide

theorem witness_ReadsAreAllOrNothing :
    (∃ t, isReadCommand (.u 0) = true ∧ exec (.u 0) (reader [] 0) = .next t ∧ t.lastOk = true ∧ (reader [] 0).Inv) ∧
    (∃ t, isReadCommand (.u 1) = true ∧ exec (.u 1) (reader [] 0) = .next t ∧ t.lastOk = false) :=
  ⟨⟨_, rfl, rfl, rfl, by constructor <;> decide⟩, ⟨_, rfl, rfl, rfl⟩⟩

theorem witness_ReadsDependOnReaderAndArgumentsOnly :
    ∃ t, isReadCommand .ue = true ∧ exec .ue (reader [0x80] 0) = .next t := ⟨_, rfl, rfl⟩

theorem witness_TakeYieldsNextBits :
    15 / 8 < [0xA5, (0x0F : Byte)].length ∧ 12 + 4 ≤ 8 * [0xA5, (0x0F : Byte)].length ∧
    8 * [0xA5, (0x0F : Byte)].length < 12 + 5 := by decide

theorem witness_UReadsNextBits :
    (let s := reader [1, 2, 3, 4] 0
     s.readable ∧ 32 ≤ 32 ∧ s.rd.pos.toNat + 32 ≤ 8 * s.rd.plen) ∧
    (let s := reader [1] 8
     s.readable ∧ 0 ≤ 32 ∧ s.rd.pos.toNat + 0 ≤ 8 * s.rd.plen) ∧
    (let s := reader [1] 8
     s.readable ∧ 1 ≤ 32 ∧ 8 * s.rd.plen < s.rd.pos.toNat + 1) ∧
    (let s := reader [0xA5, 0x0F] 8
     s.rd.pos.toNat % 8 = 0 ∧ s.rd.payload[s.rd.pos.toNat / 8]? = some (1, 0x0F)) := by
  unfold State.readable; decide

theorem witness_AlignReachesByteBoundary :
    (let s := reader [0xE4] 8
     s.readable ∧ s.rd.pos.toNat ≤ 8 * s.rd.plen ∧ 0 < 8 ∧ (s.rd.pos.toNat + 0) % 8 = 0) ∧
    (let s := reader [0x80] 1
     s.readable ∧ s.rd.pos.toNat ≤ 8 * s.rd.plen ∧ 7 < 8 ∧ (s.rd.pos.toNat + 7) % 8 = 0 ∧
      ∀ i, i < 7 → bitAt s.rd.bytes (s.rd.pos.toNat + i) = false) ∧
    (let s := reader [0x81] 1
     s.readable ∧ s.rd.pos.toNat ≤ 8 * s.rd.plen ∧ 7 < 8 ∧ (s.rd.pos.toNat + 7) % 8 = 0 ∧
      (6 < 7 ∧ bitAt s.rd.bytes (s.rd.pos.toNat + 6) = true)) := by unfold State.readable; decide

theorem witness_AlignRbspChecksTrailingBits :
    (let s := reader [0x80] 8
     s.readable ∧ s.rd.pos.toNat ≤ 8 * s.rd.plen ∧ (s.rd.pos.toNat + 8) % 8 = 0 ∧ s.rd.pos.toNat = 8 * s.rd.plen) ∧
    (let s := reader [0x80] 0
     s.readable ∧ s.rd.pos.toNat < 8 * s.rd.plen ∧ (s.rd.pos.toNat + 8) % 8 = 0 ∧
      bitAt s.rd.bytes s.rd.pos.toNat = true ∧ ∀ i, 1 ≤ i → i < 8 → bitAt s.rd.bytes (s.rd.pos.toNat + i) = false) ∧
    (let s := reader [0x01] 7
     s.readable ∧ s.rd.pos.toNat < 8 * s.rd.plen ∧ (s.rd.pos.toNat + 1) % 8 = 0 ∧
      bitAt s.rd.bytes s.rd.pos.toNat = true ∧ ∀ i, 1 ≤ i → i < 1 → bitAt s.rd.bytes (s.rd.pos.toNat + i) = false) ∧
    (let s := reader [0x40] 0
     s.readable ∧ s.rd.pos.toNat < 8 * s.rd.plen ∧ (s.rd.pos.toNat + 8) % 8 = 0 ∧
      bitAt s.rd.bytes s.rd.pos.toNat = false) ∧
    (let s := reader [0x81] 0
     s.readable ∧ s.rd.pos.toNat < 8 * s.rd.plen ∧ (s.rd.pos.toNat + 8) % 8 = 0 ∧
      bitAt s.rd.bytes (s.rd.pos.toNat + 7) = true) := by
  refine ⟨by unfold State.readable; decide, ⟨by unfold State.readable; decide, by decide, by decide, by decide, ?_⟩,
    ⟨by unfold State.readable; decide, by decide, by decide, by decide, ?_⟩, by unfold State.readable; decide,
    by unfold State.readable; decide⟩
  · have h : ∀ i < 8, 1 ≤ i → bitAt (reader [0x80] 0).rd.bytes ((reader [0x80] 0).rd.pos.toNat + i) = false := by decide
    exact fun i h1 h2 => h i h2 h1
  · exact fun i h1 h2 => absurd h2 (by omega)

theorem witness_AlignedTestsPosition : (reader [] 0).readable := ⟨rfl, rfl⟩

/-- The payload of E-7: the longest `ue(v)` codeword. -/
def longestUe : State := reader [0, 0, 0, 1, 0xFF, 0xFF, 0xFF, 0xFE] 0

theorem witness_ExpGolombRoundTrip :
    (longestUe.readable ∧ 2 ^ 32 - 2 ≤ 2 ^ 32 - 2 ∧
      bitsAre longestUe.rd.bytes longestUe.rd.pos.toNat (ueCodeword (2 ^ 32 - 2))) ∧
    (-(2 ^ 31 - 1) ≤ (-(2 ^ 31 - 1) : Int) ∧ (-(2 ^ 31 - 1) : Int) ≤ 2 ^ 31 - 1 ∧
      bitsAre longestUe.rd.bytes longestUe.rd.pos.toNat (ueCodeword (seCodeNum (-(2 ^ 31 - 1))))) :=
  ⟨⟨⟨rfl, rfl⟩, le_refl _, by unfold bitsAre; decide +kernel⟩, le_refl _, by decide, by unfold bitsAre; decide +kernel⟩

theorem witness_UvlcRoundTripAndSaturation :
    (longestUe.readable ∧ bitsAre longestUe.rd.bytes longestUe.rd.pos.toNat (ueCodeword (2 ^ 32 - 2))) ∧
    (let s := reader [0, 0, 0, 0, 0x80] 0
     s.readable ∧ 32 ≤ 32 ∧ bitsAre s.rd.bytes s.rd.pos.toNat (List.replicate 32 false ++ [true])) :=
  ⟨⟨⟨rfl, rfl⟩, by unfold bitsAre; decide +kernel⟩, ⟨rfl, rfl⟩, le_refl _, by unfold bitsAre; decide +kernel⟩

theorem witness_ExpGolombFailures :
    (let s := reader [0, 0, 0, 0] 0
     s.readable ∧ bitsAre s.rd.bytes s.rd.pos.toNat (List.replicate 32 false)) ∧
    (let s := reader [0, 0, 0, 0] 1
     s.rd.pos.toNat + 31 = 8 * s.rd.plen ∧ bitsAre s.rd.bytes s.rd.pos.toNat (List.replicate 31 false) ∧ 31 ≤ 31) ∧
    (let s := reader [0, 0, 0, 1] 0
     31 ≤ 31 ∧ bitsAre s.rd.bytes s.rd.pos.toNat (List.replicate 31 false ++ [true]) ∧
      8 * s.rd.plen < s.rd.pos.toNat + (2 * 31 + 1)) := by
  unfold bitsAre State.readable; decide +kernel

theorem witness_Leb128RoundTrip :
    (let s := reader [0xFF, 0xFF, 0xFF, 0xFF, 0x8F, 0x80, 0x80, 0x00] 0
     s.readable ∧ 2 ^ 32 - 1 < 2 ^ (7 * 8) ∧
      bitsAre s.rd.bytes s.rd.pos.toNat (bytesBits (lebBytes 8 (2 ^ 32 - 1))) ∧ 2 ^ 32 - 1 ≤ 2 ^ 32 - 1) ∧
    (let s := reader [0x80, 0x80, 0x80, 0x80, 0x10] 0
     s.readable ∧ 2 ^ 32 < 2 ^ (7 * 5) ∧ bitsAre s.rd.bytes s.rd.pos.toNat (bytesBits (lebBytes 5 (2 ^ 32))) ∧
      2 ^ 32 - 1 < 2 ^ 32) ∧
    (let s := reader [] 0
     s.readable ∧ 0 < 8 * 1 ∧ s.rd.pos.toNat + 0 = 8 * s.rd.plen ∧
      bitsAre s.rd.bytes s.rd.pos.toNat ((bytesBits (lebBytes 1 0)).take 0)) ∧
    (let s := reader [0x40, 0x40, 0x40, 0x40, 0x40, 0x40, 0x40, 0x00] 1
     s.readable ∧ 63 < 8 * 8 ∧ s.rd.pos.toNat + 63 = 8 * s.rd.plen ∧
      bitsAre s.rd.bytes s.rd.pos.toNat ((bytesBits (lebBytes 8 0)).take 63)) ∧
    ∀ b ∈ ([0x80, 0xFF] : List Byte),
      let s := reader (List.replicate 8 b) 0
      s.readable ∧ (List.replicate 8 b).length = 8 ∧ (∀ c ∈ List.replicate 8 b, 0x80 ≤ c.toNat) ∧
      ((List.range 8).map fun i => ((List.replicate 8 b).getD i 0).toNat % 128 * 2 ^ (7 * i)).sum =
        (if b = 0x80 then 0 else 2 ^ 56 - 1) ∧
      bitsAre s.rd.bytes s.rd.pos.toNat (bytesBits (List.replicate 8 b)) := by
  unfold bitsAre State.readable; decide +kernel

theorem witness_SuSignExtends :
    (let s := reader [0x80, 0, 0, 0] 0
     s.readable ∧ 1 ≤ 32 ∧ 32 ≤ 32 ∧ s.rd.pos.toNat + 32 ≤ 8 * s.rd.plen) ∧
    (let s := reader [0x80] 7
     s.readable ∧ 1 ≤ 1 ∧ 1 ≤ 32 ∧ s.rd.pos.toNat + 1 ≤ 8 * s.rd.plen) ∧
    (let s := reader [0x80] 8
     s.readable ∧ 1 ≤ 1 ∧ 1 ≤ 32 ∧ 8 * s.rd.plen < s.rd.pos.toNat + 1) := by unfold State.readable; decide

theorem witness_LeRoundTrip :
    (let s := reader [0xFF, 0xFF, 0xFF, 0xFF] 0
     s.readable ∧ 1 ≤ 4 ∧ 4 ≤ 4 ∧ 2 ^ 32 - 1 < 2 ^ (8 * 4) ∧
      bitsAre s.rd.bytes s.rd.pos.toNat (bytesBits (leBytes 4 (2 ^ 32 - 1)))) ∧
    (let s := reader [0xFF] 1
     s.readable ∧ 1 ≤ 1 ∧ 1 ≤ 4 ∧ 8 * s.rd.plen < s.rd.pos.toNat + 8 * 1) := by
  unfold bitsAre State.readable; decide +kernel

theorem witness_NsRoundTrip :
    (let s := withArgs (reader [0xE0] 0) 5 0 0
     s.readable ∧ 4 < s.arg0.toNat ∧ bitsAre s.rd.bytes s.rd.pos.toNat (nsCodeword s.arg0.toNat 4)) ∧
    (let s := withArgs (reader [] 0) 1 0 0
     s.readable ∧ 0 < s.arg0.toNat ∧ bitsAre s.rd.bytes s.rd.pos.toNat (nsCodeword s.arg0.toNat 0)) ∧
    (let s := withArgs (reader [0x03] 6) 5 0 0
     s.readable ∧ 2 < (nsCodeword s.arg0.toNat 4).length ∧ s.rd.pos.toNat + 2 = 8 * s.rd.plen ∧
      bitsAre s.rd.bytes s.rd.pos.toNat ((nsCodeword s.arg0.toNat 4).take 2)) ∧
    (let s := withArgs (reader [] 0) 2 0 0
     s.readable ∧ 0 < (nsCodeword s.arg0.toNat 1).length ∧ s.rd.pos.toNat + 0 = 8 * s.rd.plen ∧
      bitsAre s.rd.bytes s.rd.pos.toNat ((nsCodeword s.arg0.toNat 1).take 0)) := by
  unfold bitsAre State.readable; decide +kernel

theorem witness_SubexpRoundTrip :
    (let s := withArgs (reader [0xFF, 0xC0] 0) 100 0 0
     s.readable ∧ 99 < s.arg0.toNat ∧ bitsAre s.rd.bytes s.rd.pos.toNat (subexpCodeword s.arg0.toNat 99)) ∧
    (let s := withArgs (reader [] 0) 1 0 0
     s.readable ∧ 0 < s.arg0.toNat ∧ bitsAre s.rd.bytes s.rd.pos.toNat (subexpCodeword s.arg0.toNat 0)) ∧
    (let s := withArgs (reader [0x01, 0xFF] 7) 100 0 0
     s.readable ∧ (subexpCodeword s.arg0.toNat 99).length = 9 + 1 ∧ s.rd.pos.toNat + 9 = 8 * s.rd.plen ∧
      bitsAre s.rd.bytes s.rd.pos.toNat ((subexpCodeword s.arg0.toNat 99).take 9)) ∧
    (let s := withArgs (reader [] 0) 2 0 0
     s.readable ∧ 0 < (subexpCodeword s.arg0.toNat 1).length ∧ s.rd.pos.toNat + 0 = 8 * s.rd.plen ∧
      bitsAre s.rd.bytes s.rd.pos.toNat ((subexpCodeword s.arg0.toNat 1).take 0)) := by
  unfold bitsAre State.readable; decide +kernel

theorem witness_SubexpRefDecodesDelta :
    (let s := withArgs (reader [0x10] 0) (-16) 17 0
     s.readable ∧ s.arg1.toInt - s.arg0.toInt = (33 : Nat) ∧ 1 < 33 ∧
      bitsAre s.rd.bytes s.rd.pos.toNat (subexpCodeword 33 1)) ∧
    (let s := withArgs (reader [] 0) (-16) (-15) 7
     s.readable ∧ s.arg1.toInt - s.arg0.toInt = (1 : Nat) ∧ 0 < 1 ∧
      bitsAre s.rd.bytes s.rd.pos.toNat (subexpCodeword 1 0)) ∧
    (let s := withArgs (reader [0x00] 5) (-16) 17 0
     s.readable ∧ (subexpCodeword 33 1).length = 3 + 1 ∧ s.rd.pos.toNat + 3 = 8 * s.rd.plen ∧
      bitsAre s.rd.bytes s.rd.pos.toNat ((subexpCodeword 33 1).take 3)) := by
  unfold bitsAre State.readable; decide +kernel

theorem witness_RecenterIsPermutation :
    ((-16 : Int) ≤ 16 ∧ (16 : Int) < -16 + (33 : Nat)) ∧ (32 < 33 ∧ 0 < 33 ∧ recenter (-16) 33 16 0 = recenter (-16) 33 16 0) := by
  decide

theorem witness_SegPacketAcceptsPacket :
    (let s := { session .h264 false [] with pktLen := 4096 }
     s.cfg.valid = true ∧ s.pktLen.toNat ≤ s.params.pktMax ∧ s.seg.active = false ∧ s.cfg.codec ≠ .vp9 ∧
      s.rd.src = .unit) ∧
    (let s := { packet .av1 false [] with rd := (reader [0x80] 0).rd }
     s.cfg.valid = true ∧ s.pktLen.toNat ≤ s.params.pktMax ∧ (s.seg.active = false ∨ true = true) ∧
      s.cfg.codec ≠ .vp9 ∧ s.rd.src = .pkt) := by decide

theorem witness_SegPacketRefusals :
    State.reset.cfg.valid = false ∧
    (let s := { session .h264 false [] with pktLen := 4097 }
     s.cfg.valid = true ∧ s.params.pktMax < s.pktLen.toNat) ∧
    (let s := { packet .h264 false [] with pktLen := 4096 }
     s.cfg.valid = true ∧ s.pktLen.toNat ≤ s.params.pktMax ∧ s.seg.active = true) := by decide

theorem witness_SegNextWithoutPacket :
    State.reset.cfg.valid = false ∧
    ((held 2).cfg.valid = true ∧ (held 2).seg.active = false ∧ (held 2).seg.held = true ∧ (held 2).rd.src = .unit) ∧
    (let s := session .h264 false []
     s.cfg.valid = true ∧ s.seg.active = false ∧ s.seg.held = false) := by decide

/-- The byte-stream scanner with `unit` in UNIT_MEM and `zc` zeros held back, before a packet `bytes`. -/
def scanner (inUnit held : Bool) (unit : List Byte) (zc : Fin 3) (eop : Bool) (bytes : List Byte) : State :=
  let s := packet .h264 false bytes
  { s with
    unitMem := cells unit
    seg := { s.seg with
      inUnit := inUnit, held := held, unitLen := Word.ofNat unit.length, zc := zc
      flags := { eos := false, eop := eop, disc := false } } }

/-- S-NAL-3 before step 7: a unit of two bytes carried over with z zeros counted, and the rest of a start code. -/
def carried (z : Fin 3) : State := scanner true false [0x65, 0x88] z false (startCode.drop z.val)

theorem witness_OnlySegNextWritesUnitMemory :
    (∃ t, exec .nop State.reset = .next t ∧ Instr.nop ≠ .segNext) ∧
    (4096 ≤ 4096 ∧ State.reset.params.unitMax = 4096 ∧
      ∀ c ∈ (carried 0).unitMem, c.1 < (carried 0).params.unitMax) ∧
    ((0x01FFFFFF < Config.unitBase) ∧ Config.unitBase + State.reset.params.unitMax ≤ 0x02001000) :=
  ⟨⟨_, rfl, by decide⟩, by decide, by decide⟩

/-- S-NAL-1's packet, accepted with EOP. -/
def twoUnits : State :=
  let s := packet .h264 false [0, 0, 1, 0x67, 0xAA, 0, 0, 1, 0x68, 0xBB]
  { s with seg := { s.seg with flags := { eos := false, eop := true, disc := false } } }

/-- An AV1 packet whose only OBU has the forbidden bit set (FA, of P3). -/
def forbidden : State := packet .av1 false [0xFA]

theorem witness_SegNextStoresTheUnitOnly :
    (twoUnits.Inv ∧ ∃ t, exec .segNext twoUnits = .next t ∧ t.seg.result ≠ .error) ∧
    (forbidden.Inv ∧ ∃ t, exec .segNext forbidden = .next t ∧ t.seg.result = .error ∧ t.seg.cause ≠ .unitTooLong) :=
  ⟨⟨by constructor <;> decide, _, rfl, by decide +kernel⟩, by constructor <;> decide, _, rfl, by decide +kernel⟩

theorem witness_SegNextFrame : twoUnits.cfg.valid = true ∧ ∃ t, exec .segNext twoUnits = .next t := ⟨rfl, _, rfl⟩

/-- The hypotheses of NalUnitBetweenStartCodes. -/
def between (s : State) (c lead w : List Byte) : Prop :=
  s.Inv ∧ s.cfg.valid = true ∧ s.byteStream = true ∧ s.seg.active = true ∧ s.unitOpens c lead ∧ c ++ w ≠ [] ∧
  (c ++ w).length ≤ s.params.unitMax ∧ startCodeFree (w ++ [0x00, 0x00]) ∧ s.scanHolds (lead ++ w ++ startCode)

/-- A stream's first unit; after dropped bytes and an empty unit; a later unit, the one before it held; a carried one; and
after UNIT_TOO_LONG with ZC = 2. -/
theorem witness_NalUnitBetweenStartCodes :
    between twoUnits [] startCode [0x67, 0xAA] ∧
    between (scanner false false [] 0 false [0xFF, 0, 0, 1, 0, 0, 1, 0x67, 0, 0, 1]) []
      ([0xFF] ++ startCode ++ startCode) [0x67] ∧
    between (scanner true true [0x67, 0xAA] 0 false [0x68, 0xBB, 0, 0, 1]) [] [] [0x68, 0xBB] ∧
    (∀ z : Fin 3, between (carried z) [0x65, 0x88] [] []) ∧
    between (scanner true false [0x65, 0x88] 2 false [0, 0x77, 0, 0, 1]) [0x65, 0x88] [] [0, 0, 0, 0x77] ∧
    between (scanner false false [] 2 false [1, 0x67, 0, 0, 1]) [] startCode [0x67] := by
  have h : ∀ z : Fin 3, z = 0 ∨ z = 1 ∨ z = 2 := by decide
  refine ⟨?_, ?_, ?_, fun z => ?_, ?_, ?_⟩
  · refine ⟨by constructor <;> decide, rfl, rfl, rfl, ⟨0, .inr ⟨rfl, rfl, [], ?_, rfl⟩⟩, by decide, by decide, ?_, ?_⟩
    all_goals (try unfold startCodeFree); (try unfold State.scanHolds State.pktHolds); decide +kernel
  · refine ⟨by constructor <;> decide, rfl, rfl, rfl, ⟨1, .inr ⟨rfl, rfl, [0xFF], ?_, rfl⟩⟩, by decide, by decide, ?_, ?_⟩
    all_goals (try unfold startCodeFree); (try unfold State.scanHolds State.pktHolds); decide +kernel
  · refine ⟨by constructor <;> decide, rfl, rfl, rfl, ⟨0, .inl ⟨rfl, rfl, nofun, .inl rfl, rfl⟩⟩, by decide, by decide,
      ?_, ?_⟩
    all_goals (try unfold startCodeFree); (try unfold State.scanHolds State.pktHolds); decide +kernel
  · rcases h z with rfl | rfl | rfl <;>
    refine ⟨by constructor <;> decide, rfl, rfl, rfl, ⟨0, .inl ⟨rfl, rfl, ?_, .inr rfl, rfl⟩⟩, by decide, by decide, ?_, ?_⟩
    all_goals (try unfold startCodeFree); (try unfold State.scanHolds State.pktHolds); (try unfold State.unitHolds)
    all_goals decide +kernel
  · refine ⟨by constructor <;> decide, rfl, rfl, rfl, ⟨0, .inl ⟨rfl, rfl, ?_, .inr rfl, rfl⟩⟩, by decide, by decide, ?_, ?_⟩
    all_goals (try unfold startCodeFree); (try unfold State.scanHolds State.pktHolds); (try unfold State.unitHolds)
    all_goals decide +kernel
  · refine ⟨by constructor <;> decide, rfl, rfl, rfl, ⟨0, .inr ⟨rfl, rfl, [], ?_, rfl⟩⟩, by decide, by decide, ?_, ?_⟩
    all_goals (try unfold startCodeFree); (try unfold State.scanHolds State.pktHolds); decide +kernel

/-- The hypotheses of NalUnitAtPacketEnd about an open unit. -/
def toTheEnd (s : State) (c lead w : List Byte) : Prop :=
  s.Inv ∧ s.cfg.valid = true ∧ s.byteStream = true ∧ s.seg.active = true ∧ s.unitOpens c lead ∧
  (c ++ w).length ≤ s.params.unitMax + min 2 (trailingZeros w) ∧ startCodeFree w ∧ s.scanHolds (lead ++ w) ∧
  s.scanEndsWith (lead ++ w)

/-- S-NAL-4's first packet, with EOP and without; a unit that is carried to an empty packet, and an empty one; and packets with
no start code. -/
theorem witness_NalUnitAtPacketEnd :
    (∀ eop : Bool, toTheEnd (scanner false false [] 0 eop [0, 0, 1, 0x65, 0x88, 0]) [] startCode [0x65, 0x88, 0]) ∧
    toTheEnd (scanner true false [0x65, 0x88] 2 true []) [0x65, 0x88] [] [0, 0] ∧
    toTheEnd (scanner true false [] 0 true []) [] [] [] ∧
    ∀ eop : Bool, let s := scanner false false [] 1 eop [0, 0xFF, 0]
      s.Inv ∧ s.cfg.valid = true ∧ s.byteStream = true ∧ s.seg.active = true ∧ s.seg.inUnit = false ∧
      startCodeFree [0, 0, 0xFF, 0] ∧ s.scanHolds [0, 0, 0xFF, 0] ∧ s.scanEndsWith [0, 0, 0xFF, 0] := by
  refine ⟨fun eop => ?_, ?_, ?_, fun eop => ?_⟩
  · cases eop <;>
    refine ⟨by constructor <;> decide, rfl, rfl, rfl, ⟨0, .inr ⟨rfl, rfl, [], ?_, rfl⟩⟩, by decide, ?_, ?_, ?_⟩
    all_goals (try unfold State.scanEndsWith); (try unfold startCodeFree); (try unfold State.scanHolds State.pktHolds); decide +kernel
  · refine ⟨by constructor <;> decide, rfl, rfl, rfl, ⟨0, .inl ⟨rfl, rfl, ?_, .inr rfl, rfl⟩⟩, by decide, ?_, ?_, ?_⟩
    all_goals (try unfold State.scanEndsWith); (try unfold startCodeFree); (try unfold State.scanHolds State.pktHolds); (try unfold State.unitHolds)
    all_goals decide +kernel
  · refine ⟨by constructor <;> decide, rfl, rfl, rfl, ⟨0, .inl ⟨rfl, rfl, nofun, .inl rfl, rfl⟩⟩, by decide, ?_, ?_, ?_⟩
    all_goals (try unfold State.scanEndsWith); (try unfold startCodeFree); (try unfold State.scanHolds State.pktHolds); decide +kernel
  · cases eop <;> refine ⟨by constructor <;> decide, rfl, rfl, rfl, rfl, ?_, ?_, ?_⟩
    all_goals (try unfold State.scanEndsWith); (try unfold startCodeFree); (try unfold State.scanHolds State.pktHolds); decide +kernel

/-- S-ERR-1's packet up to its sixteenth data byte, against UNIT_MAX = 16, and what follows it. -/
def outgrown (tail : List Byte) (eop : Bool) : State :=
  let s := packet .h264 false (startCode ++ List.replicate 16 0x11 ++ tail)
  { s with
    params := { Params.standard with unitMax := 16 }
    seg := { s.seg with flags := { eos := !eop, eop := eop, disc := false } } }

/-- After a start code, and from a carried unit of 15 bytes with one more to come. -/
theorem witness_NalUnitTooLongIsDropped :
    let w : List Byte := List.replicate 16 0x11
    (∀ k : Fin 3, let s := outgrown (List.replicate k.val 0x00 ++ [0x11]) true
      s.Inv ∧ s.cfg.valid = true ∧ s.byteStream = true ∧ s.seg.active = true ∧ s.unitOpens [] startCode ∧
      ([] ++ w).length = s.params.unitMax ∧ (0x11 : Byte) ≠ 0x00 ∧
      startCodeFree (w ++ List.replicate k.val 0x00 ++ [0x11]) ∧
      s.scanHolds (startCode ++ w ++ List.replicate k.val 0x00 ++ [0x11])) ∧
    startCodeFree w ∧
    (let s := outgrown [0x00, 0x00, 0x00] true
     s.Inv ∧ s.unitOpens [] startCode ∧ s.scanHolds (startCode ++ w ++ [0x00, 0x00, 0x00])) ∧
    (∀ c ∈ [(1, true), (2, false)], let s := outgrown (List.replicate c.1 0x00) c.2
      s.Inv ∧ (s.seg.flags.eop = true ∨ s.seg.flags.eos = true) ∧ s.unitOpens [] startCode ∧
      s.scanHolds (startCode ++ w ++ List.replicate c.1 0x00) ∧
      s.scanEndsWith (startCode ++ w ++ List.replicate c.1 0x00)) ∧
    (let s := { scanner true false (List.replicate 15 0x11) 0 false [0x11, 0x11] with
        params := { Params.standard with unitMax := 16 } }
     s.Inv ∧ s.unitOpens (List.replicate 15 0x11) [] ∧ (List.replicate 15 (0x11 : Byte) ++ [0x11]).length = s.params.unitMax ∧
      s.scanHolds ([] ++ [0x11] ++ List.replicate 0 0x00 ++ [0x11])) := by
  have opens : ∀ tail eop, (outgrown tail eop).unitOpens [] startCode := fun tail eop =>
    ⟨0, .inr ⟨rfl, rfl, [], by unfold startCodeFree; decide, rfl⟩⟩
  refine ⟨fun k => ⟨?_, rfl, rfl, rfl, opens _ _, rfl, by decide, ?_, ?_⟩, by unfold startCodeFree; decide,
    ⟨by constructor <;> decide, opens _ _, ?_⟩, fun c hc => ⟨?_, ?_, opens _ _, ?_, ?_⟩,
    ⟨by constructor <;> decide, ⟨0, .inl ⟨rfl, rfl, ?_, .inr rfl, rfl⟩⟩, rfl, ?_⟩⟩
  · constructor <;> revert k <;> decide
  · revert k; unfold startCodeFree; decide +kernel
  · revert k; unfold State.scanHolds State.pktHolds; decide +kernel
  · unfold State.scanHolds State.pktHolds; decide +kernel
  · constructor <;> revert c <;> decide
  · revert c; decide
  · revert c; unfold State.scanHolds State.pktHolds; decide +kernel
  · revert c; unfold State.scanEndsWith; decide
  · unfold State.unitHolds; decide +kernel
  · unfold State.scanHolds State.pktHolds; decide +kernel

theorem witness_SplitStartCodeEndsUnit :
    ∀ z : Fin 3, (carried z).Inv ∧ (carried z).cfg.valid = true ∧ (carried z).byteStream = true ∧
      (carried z).seg.active = true ∧ (carried z).seg.held = false ∧ (carried z).seg.inUnit = true ∧
      0 < (carried z).seg.unitLen.toNat ∧
      (carried z).seg.pktPos.toNat + (3 - (carried z).seg.zc.val) ≤ (carried z).pktLen.toNat ∧
      (carried z).pktHolds (carried z).seg.pktPos.toNat (startCode.drop (carried z).seg.zc.val) := by
  have h : ∀ z : Fin 3, z = 0 ∨ z = 1 ∨ z = 2 := by decide
  intro z
  rcases h z with rfl | rfl | rfl <;>
  exact ⟨by constructor <;> decide, by decide, by decide, by decide, by decide, by decide, by decide, by decide,
    by unfold State.pktHolds; decide +kernel⟩

theorem witness_WholePacketIsOneUnit :
    (let s := packet .h265 true []
     s.cfg.valid = true ∧ s.seg.active = true ∧ (s.cfg.codec = .h264 ∨ s.cfg.codec = .h265) ∧ s.cfg.inmode = true ∧
      s.pktLen = 0) ∧
    (let s := { packet .h264 true [] with pktLen := 4096 }
     (s.cfg.codec = .h264 ∨ s.cfg.codec = .h265) ∧ s.cfg.inmode = true ∧ 0 < s.pktLen.toNat ∧
      s.pktLen.toNat ≤ s.params.unitMax) ∧
    (let s := { packet .vp9 false [] with pktLen := 4097 }
     s.cfg.codec = .vp9 ∧ s.seg.sfCount = 0 ∧ s.params.unitMax < s.pktLen.toNat) := by decide

/-- S-AV1-5's OBU that fits, under a given UNIT_MAX. -/
def sizedObu (unitMax : Nat) : State :=
  { packet .av1 false [0x32, 0x02, 0x01, 0x02] with params := { Params.standard with unitMax := unitMax } }

theorem witness_ObuWithSizeIsEmitted :
    (∀ unitMax : Fin 3, let s := sizedObu unitMax.val
      s.cfg.valid = true ∧ s.cfg.codec = .av1 ∧ s.cfg.inmode = false ∧ s.seg.active = true ∧ 6 < 16 ∧
      6 ∈ s.params.obuValidTypes ∧ 1 ≤ 1 ∧ 1 ≤ 8 ∧ [(0x01 : Byte), 0x02].length < 2 ^ (7 * 1) ∧
      s.pktHolds s.seg.pktPos.toNat (obuHeaderBytes 6 true false none ++ lebBytes 1 2 ++ [0x01, 0x02]) ∧
      s.seg.pktPos.toNat + ((obuHeaderBytes 6 true false none).length + 1 + [(0x01 : Byte), 0x02].length) ≤
        s.pktLen.toNat) ∧
    [(0x01 : Byte), 0x02].length ≤ (sizedObu 2).params.unitMax ∧
    (sizedObu 1).params.unitMax < [(0x01 : Byte), 0x02].length := by
  unfold State.pktHolds; decide +kernel

/-- The last OBU of S-AV1B-1, alone, in each mode: header 78, payload 55 66. -/
def restObu (inmode : Bool) (unitMax : Nat) : State :=
  { packet .av1 inmode (if inmode then [0x03, 0x78, 0x55, 0x66] else [0x78, 0x55, 0x66]) with
    params := { Params.standard with unitMax := unitMax } }

theorem witness_ObuWithoutSizeTakesRest :
    (∀ inmode : Bool, ∀ unitMax ∈ [1, 2], let s := restObu inmode unitMax
      let start := inmode.toNat
      s.cfg.valid = true ∧ s.cfg.codec = .av1 ∧ s.seg.active = true ∧ 15 < 16 ∧ 15 ∈ s.params.obuValidTypes ∧
      s.obuAt start (start + ((obuHeaderBytes 15 false false none).length + [(0x55 : Byte), 0x66].length)) ∧
      s.pktHolds start (obuHeaderBytes 15 false false none ++ [0x55, 0x66])) ∧
    [(0x55 : Byte), 0x66].length ≤ (restObu true 2).params.unitMax ∧
    (restObu true 1).params.unitMax < [(0x55 : Byte), 0x66].length := by
  refine ⟨fun inmode unitMax h => ⟨rfl, rfl, rfl, by decide, by decide +revert, ?_, ?_⟩, by decide⟩
  · cases inmode
    · exact .inl (by revert unitMax; decide)
    · refine .inr ⟨rfl, by decide, by revert unitMax; decide, 1, ?_⟩
      revert unitMax; unfold State.pktHolds; decide +kernel
  · revert inmode unitMax; unfold State.pktHolds; decide +kernel

/-- S-AV1B-2's OBU, of one payload byte and two excess bytes, with `size` as its size field. -/
def annexB (size : Byte) (unitMax : Nat) : State :=
  { packet .av1 true [0x05, 0x0A, size, 0xAA, 0xEE, 0xEE, 0x00] with
    params := { Params.standard with unitMax := unitMax } }

theorem witness_AnnexBObuIsEmitted :
    ∀ c ∈ ([(1, 1), (3, 16), (4, 16), (1, 0)] : List (Nat × Nat)),
      let s := annexB (BitVec.ofNat 8 c.1) c.2
      let body : List Byte := [0xAA, 0xEE, 0xEE]
      s.cfg.valid = true ∧ s.cfg.codec = .av1 ∧ s.cfg.inmode = true ∧ s.seg.active = true ∧ 1 < 16 ∧
      1 ∈ s.params.obuValidTypes ∧ c.1 < 2 ^ (7 * 1) ∧ c.1 ≤ 2 ^ 32 - 1 ∧
      (obuHeaderBytes 1 true false none).length + 1 + body.length < 2 ^ (7 * 1) ∧
      s.pktHolds s.seg.pktPos.toNat
        (lebBytes 1 ((obuHeaderBytes 1 true false none).length + 1 + body.length) ++
          obuHeaderBytes 1 true false none ++ lebBytes 1 c.1 ++ body) ∧
      s.seg.pktPos.toNat + (1 + (obuHeaderBytes 1 true false none).length + 1 + body.length) ≤ s.pktLen.toNat := by
  unfold State.pktHolds; decide +kernel

/-- Packets of one low-overhead OBU, the two of S-AV1-6 among them. -/
theorem witness_BadObuAbandonsPacket :
    (∀ inmode : Bool, let s := packet .av1 inmode []
      s.cfg.valid = true ∧ s.cfg.codec = .av1 ∧ s.seg.active = true ∧ s.pktLen.toNat ≤ s.seg.pktPos.toNat) ∧
    (∀ bs ∈ ([[0xFA], [0x4A, 0x00], [0x16], [0x12, 0x80], [0x32, 0x03, 0x01, 0x02]] : List (List Byte)),
      let s := packet .av1 false bs
      s.cfg.valid = true ∧ s.cfg.codec = .av1 ∧ s.seg.active = true ∧ s.seg.pktPos.toNat < s.pktLen.toNat ∧
      s.obuAt 0 bs.length) ∧
    (0x80 ≤ (forbidden.pktByte 0).toNat) ∧
    (let s := packet .av1 false [0x4A, 0x00]
     (s.pktByte 0).toNat < 0x80 ∧ (s.pktByte 0).toNat / 8 ∉ s.params.obuValidTypes) ∧
    (let s := packet .av1 false [0x16]
     (s.pktByte 0).toNat < 0x80 ∧ (s.pktByte 0).toNat / 8 ∈ s.params.obuValidTypes ∧
      (s.pktByte 0).toNat / 4 % 2 = 1) ∧
    (let s := packet .av1 false [0x12, 0x80]
     2 ∈ s.params.obuValidTypes ∧ s.pktHolds 0 (obuHeaderBytes 2 true false none) ∧ 0 + 1 ≤ 2 ∧ s.badLeb 1 2) ∧
    (let s := packet .av1 false [0x32, 0x03, 0x01, 0x02]
     6 ∈ s.params.obuValidTypes ∧ s.pktHolds 0 (obuHeaderBytes 6 true false none) ∧ 3 < 2 ^ (7 * 1) ∧
      s.pktHolds (0 + (obuHeaderBytes 6 true false none).length) (lebBytes 1 3) ∧
      0 + ((obuHeaderBytes 6 true false none).length + 1) ≤ 4 ∧
      4 < 0 + ((obuHeaderBytes 6 true false none).length + 1 + 3)) := by
  refine ⟨by decide, fun bs h => ⟨rfl, rfl, rfl, ?_, .inl ⟨rfl, rfl, ?_⟩⟩, by decide, by decide, by decide,
    ⟨by decide, ?_, by decide, .inl ⟨1, ?_⟩⟩, by decide, ?_⟩
  · revert bs; decide
  · revert bs; decide
  all_goals (try unfold State.pktHolds); decide +kernel

/-- In Annex B: `obu_length` 0 (S-AV1B-2), and the three ways an `obu_length` is no LEB128 value, at their bounds; `obu_length`
past the packet's end. -/
theorem witness_BadObuAbandonsPacket_annexB :
    ((packet .av1 true [0x00]).obuAt 1 1) ∧
    (packet .av1 true [0x80, 0x80]).badLeb 0 2 ∧
    (packet .av1 true [0x80, 0x80, 0x80, 0x80, 0x10]).badLeb 0 5 ∧
    (packet .av1 true (List.replicate 8 0xFF)).badLeb 0 8 ∧
    (let s := packet .av1 true [0x05, 0x12, 0x00]
     5 < 2 ^ (7 * 1) ∧ s.pktHolds s.seg.pktPos.toNat (lebBytes 1 5) ∧ s.seg.pktPos.toNat + 1 ≤ s.pktLen.toNat ∧
      s.pktLen.toNat < s.seg.pktPos.toNat + (1 + 5)) := by
  refine ⟨.inr ⟨rfl, le_rfl, by decide, 1, ?_⟩, .inl ⟨2, ?_⟩, .inr (.inl ⟨5, 2 ^ 32, ?_⟩), .inr (.inr ?_), ?_⟩
  all_goals (try unfold State.pktHolds); decide +kernel

/-- S-VP9-1, S-VP9-2, S-VP9-5, an empty packet and one with no marker at its end. -/
theorem witness_SuperframeIndexRoundTrip :
    (∀ bs ∈ ([[0xF0, 0xF1, 0xF2, 0xE0, 0xE1, 0xC1, 0x03, 0x02, 0xC1],
        [0xF0, 0xF1, 0xF2, 0xE0, 0xE1, 0xC0, 0x03, 0x02, 0xC1], [0xC0, 0xC0], [], [0xE0]] : List (List Byte)),
      let s := session .vp9 false bs
      s.cfg.valid = true ∧ s.cfg.codec = .vp9 ∧ s.seg.active = false ∧ s.pktLen.toNat ≤ s.params.pktMax) ∧
    (session .vp9 false []).pktLen = 0 ∧
    (let s := session .vp9 false [0xE0]
     (s.pktByte (s.pktLen.toNat - 1)).toNat / 2 ^ 5 ≠ 0b110) ∧
    (∀ x ∈ [3, 2], x < 2 ^ (8 * 1)) ∧
    (let s := session .vp9 false [0xF0, 0xF1, 0xF2, 0xE0, 0xE1, 0xC1, 0x03, 0x02, 0xC1]
     s.pktLen.toNat = 5 + (2 + 1 * [3, 2].length) ∧ s.pktHolds 5 (superframeIndex 1 [3, 2])) ∧
    (let s := session .vp9 false [0xF0, 0xF1, 0xF2, 0xE0, 0xE1, 0xC0, 0x03, 0x02, 0xC1]
     s.pktByte (s.pktLen.toNat - 1) = (superframeIndex 1 [3, 2]).headD 0 ∧
      s.pktByte (s.pktLen.toNat - (2 + 1 * [3, 2].length)) ≠ s.pktByte (s.pktLen.toNat - 1)) ∧
    (let s := session .vp9 false [0xC0, 0xC0]
     s.pktByte (s.pktLen.toNat - 1) = (superframeIndex 1 [0]).headD 0 ∧
      s.pktLen.toNat < 2 + 1 * [0].length) := by
  unfold State.pktHolds; decide +kernel

/-- A VP9 packet of `len` bytes whose index of 3 bytes lists one frame of `sz` bytes, with `next` frames produced. -/
def frames (next sz len : Nat) (unitMax : Nat) : State :=
  let s := packet .vp9 false []
  { s with
    params := { s.params with unitMax := unitMax }
    pktLen := Word.ofNat len
    seg := { s.seg with
      sfCount := 1, sfIndexSize := 3, sfNext := Word.ofNat next, sfSize := #v[Word.ofNat sz, 0, 0, 0, 0, 0, 0, 0] } }

theorem witness_SuperframeFramesAreEmittedInOrder :
    ((frames 1 5 8 16).Inv ∧ (frames 1 5 8 16).seg.sfCount ≠ 0 ∧ (frames 1 5 8 16).seg.sfNext = (frames 1 5 8 16).seg.sfCount) ∧
    ((frames 0 5 7 16).Inv ∧ (frames 0 5 7 16).seg.sfNext ≠ (frames 0 5 7 16).seg.sfCount ∧
      (frames 0 5 7 16).seg.sfSize.toList[(frames 0 5 7 16).seg.sfNext.toNat]? = some (Word.ofNat 5) ∧
      (frames 0 5 7 16).pktLen.toNat <
        (frames 0 5 7 16).seg.sfBase.toNat + 5 + (frames 0 5 7 16).seg.sfIndexSize.toNat) ∧
    ((frames 0 16 19 16).Inv ∧ (frames 0 16 19 16).cfg.valid = true ∧ (frames 0 16 19 16).cfg.codec = .vp9 ∧
      (frames 0 16 19 16).seg.active = true ∧
      (frames 0 16 19 16).seg.sfSize.toList[(frames 0 16 19 16).seg.sfNext.toNat]? = some (Word.ofNat 16) ∧
      (frames 0 16 19 16).seg.sfBase.toNat + 16 + (frames 0 16 19 16).seg.sfIndexSize.toNat ≤
        (frames 0 16 19 16).pktLen.toNat ∧
      16 ≤ (frames 0 16 19 16).params.unitMax) ∧
    ((frames 0 17 20 16).Inv ∧
      (frames 0 17 20 16).seg.sfSize.toList[(frames 0 17 20 16).seg.sfNext.toNat]? = some (Word.ofNat 17) ∧
      (frames 0 17 20 16).seg.sfBase.toNat + 17 + (frames 0 17 20 16).seg.sfIndexSize.toNat ≤
        (frames 0 17 20 16).pktLen.toNat ∧
      (frames 0 17 20 16).params.unitMax < 17) :=
  ⟨⟨by constructor <;> decide, by decide, by decide⟩, ⟨by constructor <;> decide, by decide, by decide, by decide⟩,
    ⟨by constructor <;> decide, by decide, by decide, by decide, by decide, by decide, by decide⟩,
    ⟨by constructor <;> decide, by decide, by decide, by decide⟩⟩

theorem witness_CommandsKeepHostRegisters :
    ∃ t, Instr.loadUnit .pkt true ≠ .sreset ∧ exec (.loadUnit .pkt true) State.reset = .next t ∧
      ∀ c m, Instr.loadUnit .pkt true ≠ .config c m := ⟨_, by decide, rfl, nofun⟩

theorem witness_ResultIsWrittenBySuccessOnly :
    (∃ t, exec (.u 1) (reader [] 0) = .next t ∧ t.lastOk = false) ∧ (∃ t, exec .nop State.reset = .next t) ∧
    (∃ t, exec .segNext (session .h264 false []) = .next t ∧ t.seg.result ≠ .unit) :=
  ⟨⟨_, rfl, rfl⟩, ⟨_, rfl⟩, ⟨_, rfl, by decide⟩⟩

theorem witness_CommandsKeepSegmenterInvariants :
    twoUnits.Inv ∧ twoUnits.pktPosInside ∧
    (∃ t, exec .segNext twoUnits = .next t ∧ t.byteStream = true ∧ t.seg.inUnit = true) ∧
    (packet .vp9 false []).Inv ∧
    ∃ t, exec .segNext (packet .vp9 false []) = .next t ∧ t.byteStream = false ∧ t.seg.held = false :=
  ⟨by constructor <;> decide, fun _ => by decide, ⟨_, rfl, by decide +kernel⟩, by constructor <;> decide, _, rfl,
    by decide⟩

theorem witness_StepKeepsInvariant :
    let s := State.reset.withFetchWord 32 0x04000000
    s.Inv ∧ ∃ t, step s = .next t := ⟨by constructor <;> decide, _, rfl⟩

theorem witness_ResetHasInvariant :
    Params.standard.wf = true ∧ (Params.mk 16 16 [] false).wf = true ∧
    (Params.mk (2 ^ 24) (2 ^ 24) [0, 15] true).wf = true := by decide

end Sys2Proof.Tests
end

section
/-! What each command that is no read can do, said once: the cases of LOAD_UNIT (spec/40_control.md R126 to R128), SEG_PACKET
and SEG_NEXT (spec/44_segmenter_nal.md R201, R204), and the next states of CONFIG and of a release. -/

namespace Sys2Proof.Machine

/-- LOAD_UNIT is refused, or binds the held unit, or binds a range inside PKT_MEM. -/
theorem exec_loadUnit_cases {s t : State} {src : UnitSource} {epb : Bool} (h : exec (.loadUnit src epb) s = .next t) :
    (∃ c, c ≠ .ok ∧ t = s.refuse c) ∨
    (src = .unit ∧ s.seg.held = true ∧ t = s.bind .unit 0 s.seg.unitLen epb) ∨
    (src = .pkt ∧ s.arg0.toNat + s.arg1.toNat ≤ s.params.pktMax ∧ t = s.bind .pkt s.arg0 s.arg1 epb) := by
  change execLoadUnit src epb s = .next t at h
  unfold execLoadUnit at h
  injection h with h
  subst h
  cases src with
  | unit =>
    cases hh : s.seg.held
    · exact .inl ⟨.noUnit, Cause.noConfusion, rfl⟩
    · exact .inr (.inl ⟨rfl, rfl, rfl⟩)
  | pkt =>
    simp only
    split
    · exact .inl ⟨.badArg, Cause.noConfusion, rfl⟩
    · exact .inr (.inr ⟨trivial, Nat.le_of_not_lt ‹_›, rfl⟩)

/-- SEG_PACKET is refused, or accepts the packet in a configured session, with its superframe index or without. -/
theorem exec_segPacket_cases {s t : State} {eos eop disc : Bool} (h : exec (.segPacket eos eop disc) s = .next t) :
    (∃ c, c ≠ .ok ∧ t = s.refuse c) ∨
    (s.cfg.valid = true ∧
      (t = (s.acceptPacket eos eop disc).succeed ∨ t = (s.acceptPacket eos eop disc).parseSuperframeIndex.succeed)) := by
  change execSegPacket eos eop disc s = .next t at h
  unfold execSegPacket at h
  injection h with h
  subst h
  cases hv : s.cfg.valid
  · exact .inl ⟨.notConfigured, Cause.noConfusion, rfl⟩
  · simp only [Bool.not_true, Bool.false_eq_true, if_false]
    split
    · exact .inl ⟨.pktTooLong, Cause.noConfusion, rfl⟩
    · split
      · exact .inl ⟨.segBusy, Cause.noConfusion, rfl⟩
      · refine .inr ⟨trivial, ?_⟩
        split
        · exact .inr rfl
        · exact .inl rfl

/-- SEG_NEXT is refused, or goes on from the released state: with NEED_DATA, or with the session's mode. -/
theorem exec_segNext_cases {s t : State} (h : exec .segNext s = .next t) :
    t = s.refuse .notConfigured ∨
    (s.cfg.valid = true ∧ (t = s.release.needData ∨ t = s.release.modeNext)) := by
  rw [exec_segNext] at h
  injection h with h
  subst h
  cases hv : s.cfg.valid
  · exact .inl rfl
  · refine .inr ⟨rfl, ?_⟩
    cases s.seg.active
    · exact .inl rfl
    · exact .inr rfl

/-- CONFIG leaves the segmenter at its reset values (spec/40_control.md R124). -/
theorem State.configure_eq (s : State) (codec : Codec) (inmode : Bool) :
    s.configure codec inmode =
      State.succeed
        { s.unbindUnit with cfg := { codec := codec, inmode := inmode, valid := true }, seg := Segmenter.reset } := by
  simp only [State.configure, State.streamFlush, State.unbindUnit]
  split <;> rfl

/-- Releasing a held unit (spec/44_segmenter_nal.md R204). -/
theorem State.release_held (s : State) (hh : s.seg.held = true) :
    s.release =
      { s.unbindUnit with seg := { s.unbindUnit.seg with held := false, unitLen := 0, unitInfo := 0 } } := by
  simp only [State.release, hh, if_true, State.unbindUnit]
  split <;> rfl

theorem State.unbindUnit_not_bound (s : State) (hv : s.unbindUnit.rd.unitValid = true) : s.unbindUnit.rd.src ≠ .unit := by
  rw [State.unbindUnit_rd_src]
  intro hs
  rw [State.unbindUnit_rd_eq, if_pos hs] at hv
  cases hv

end Sys2Proof.Machine
end

section
/-! What the invariant depends on, and that each operation a command is made of keeps it (spec/10_state.md R25 to R46,
spec/44_segmenter_nal.md R211, R215). -/

namespace Sys2Proof.Machine

section

variable {s t : State}

/-! ## How a command ends -/

theorem State.Inv.unitMax_lt (h : s.Inv) : s.params.unitMax < 2 ^ 32 := by
  have := h.params_wf
  simp only [Params.wf, Bool.and_eq_true, decide_eq_true_eq] at this
  omega

theorem State.Inv.succeed (h : s.Inv) : s.succeed.Inv := { h with last_cause := by simp }

theorem State.Inv.refuse (h : s.Inv) {c : Cause} (hc : c ≠ .ok) : (s.refuse c).Inv :=
  { h with last_cause := by simp [hc] }

theorem State.Inv.needData (h : s.Inv) : s.needData.Inv :=
  { h with last_cause := by simp, seg_cause := by simp }

/-! ## The reader -/

/-- A read command keeps the invariant: its cursor stays inside the payload and its failure has a cause. -/
theorem State.Inv.readCommand (h : s.Inv) (body : List Byte → Nat → ReadOutcome Word)
    (hb : ∀ P q, q ≤ 8 * P.length → (body P q).sound (8 * P.length) q) : (s.readCommand body).Inv := by
  have hlen : s.rd.bytes.length = s.rd.plen := by simp [Reader.bytes, Reader.plen]
  have hsound := hb s.rd.bytes s.rd.pos.toNat (hlen ▸ h.pos_inside)
  rcases s.readCommand_cases body with ⟨_, e⟩ | ⟨_, _, e⟩ | ⟨_, _, v, q, hr, e⟩ | ⟨_, _, c, hr, e⟩ <;> rw [e]
  · exact h.refuse Cause.noConfusion
  · exact h.refuse Cause.noConfusion
  · rw [hr, hlen] at hsound
    exact { h with
      pos_inside := by
        show (Word.ofNat q).toNat ≤ _
        rw [Word.ofNat, BitVec.toNat_ofNat]
        exact le_trans (Nat.mod_le _ _) hsound.2
      last_cause := by simp }
  · rw [hr] at hsound
    have hc : c ≠ .ok := hsound
    exact { h with err_cause := by simp [hc], last_cause := by simp [hc] }

/-- Binding raw bytes that lie inside their memory; UNIT_MEM's only while a unit is held. -/
theorem State.Inv.bind (h : s.Inv) (src : UnitSource) (base len : Word) (epb : Bool)
    (hunit : src = .unit → len.toNat ≤ s.params.unitMax ∧ s.seg.held = true)
    (hpkt : src = .pkt → base.toNat + len.toNat ≤ s.params.pktMax) : (s.bind src base len epb).Inv :=
  { h with
    pos_inside := Nat.zero_le _
    unbound_empty := Bool.noConfusion
    map_rises := ⟨epbFilter_rises _ _ _ _, fun c hc => by
      have := (epbFilter_mem _ _ _ _ _ hc).2.1
      rwa [State.rawBytes_length, Nat.zero_add] at this⟩
    raw_inside := ⟨fun hs => (hunit hs).1, hpkt⟩
    err_cause := by simp [State.bind]
    last_cause := by simp [State.bind]
    bound_held := fun _ hs => (hunit hs).2 }

theorem State.Inv.unbindUnit (h : s.Inv) : s.unbindUnit.Inv := by
  unfold State.unbindUnit
  split
  · rename_i hs
    exact { h with
      pos_inside := Nat.zero_le _
      unbound_empty := fun _ => rfl
      map_rises := ⟨List.Pairwise.nil, by simp [State.unbind]⟩
      raw_inside := ⟨fun _ => Nat.zero_le _, fun hp => by simp [State.unbind, hs] at hp⟩
      bound_held := Bool.noConfusion }
  · exact h

/-! ## The segmenter -/

/-- A segmenter back at its reset values, with no binding to UNIT_MEM left, in any session with a mode that exists. -/
theorem State.Inv.restart (h : s.Inv) (cfg : SessionConfig) (hmode : cfg.codec = .vp9 → cfg.inmode = false)
    (hfree : s.rd.unitValid = true → s.rd.src ≠ .unit) : State.Inv { s with cfg := cfg, seg := Segmenter.reset } :=
  { h with
    seg_cause := by simp [Segmenter.reset]
    unitLen_bound := Nat.zero_le _
    bound_held := fun hv hs => absurd hs (hfree hv)
    info_held := fun _ => rfl
    len_idle := fun _ _ => rfl
    scanner_idle := fun _ => ⟨rfl, rfl⟩
    active_configured := Bool.noConfusion
    vp9_mode := hmode
    sf_bounds := ⟨Nat.zero_le _, Nat.zero_le _⟩
    sf_size_zero := fun i hi _ => by simp [Segmenter.reset] }

theorem State.Inv.configure (h : s.Inv) (codec : Codec) (inmode : Bool) (hmode : codec = .vp9 → inmode = false) :
    (s.configure codec inmode).Inv := by
  rw [State.configure_eq]
  exact (h.unbindUnit.restart _ hmode s.unbindUnit_not_bound).succeed

theorem State.Inv.resetWith (p : Params) (hp : p.wf = true) : (State.resetWith p).Inv where
  params_wf := hp
  pktMem_wf := ⟨rfl, by simp [State.resetWith]⟩
  unitMem_wf := ⟨rfl, by simp [State.resetWith]⟩
  pos_inside := Nat.zero_le _
  unbound_empty := fun _ => rfl
  map_rises := ⟨List.Pairwise.nil, by simp [State.resetWith, Reader.reset]⟩
  raw_inside := ⟨fun _ => Nat.zero_le _, UnitSource.noConfusion⟩
  err_cause := by simp [State.resetWith, Reader.reset]
  last_cause := by simp [State.resetWith]
  seg_cause := by simp [State.resetWith, Segmenter.reset]
  unitLen_bound := Nat.zero_le _
  bound_held := Bool.noConfusion
  info_held := fun _ => rfl
  len_idle := fun _ _ => rfl
  scanner_idle := fun _ => ⟨rfl, rfl⟩
  active_configured := Bool.noConfusion
  vp9_mode := Codec.noConfusion
  sf_bounds := ⟨Nat.zero_le _, Nat.zero_le _⟩
  sf_size_zero := fun i hi _ => by simp [State.resetWith, Segmenter.reset]

theorem State.Inv.softReset (h : s.Inv) : s.softReset.Inv :=
  { State.Inv.resetWith s.params h.params_wf with pktMem_wf := h.pktMem_wf, unitMem_wf := h.unitMem_wf }

/-- StreamFlush leaves a segmenter that collects and holds nothing (spec/44_segmenter_nal.md R202). -/
theorem State.Inv.streamFlush (h : s.Inv) : s.streamFlush.Inv :=
  { h.unbindUnit with
    unitLen_bound := Nat.zero_le _
    bound_held := fun hv hs => absurd hs (s.unbindUnit_not_bound hv)
    info_held := fun _ => rfl
    len_idle := fun _ _ => rfl
    scanner_idle := fun _ => ⟨rfl, rfl⟩
    active_configured := Bool.noConfusion
    sf_bounds := ⟨Nat.zero_le _, Nat.zero_le _⟩
    sf_size_zero := fun i hi _ => by simp }

theorem State.Inv.acceptPacket (h : s.Inv) (hv : s.cfg.valid = true) (eos eop disc : Bool) :
    (s.acceptPacket eos eop disc).Inv := by
  have accept : ∀ u : State, u.Inv → u.cfg.valid = true → State.Inv { u with
      seg := Segmenter.clearSf { u.seg with
        flags := { eos := eos, eop := eop, disc := disc }, active := true, pktPos := 0, result := .none,
        cause := .ok } } := fun u hu hc =>
    { hu with
      seg_cause := by simp
      active_configured := fun _ => hc
      sf_bounds := ⟨Nat.zero_le _, Nat.zero_le _⟩
      sf_size_zero := fun i hi _ => by simp [Segmenter.clearSf] }
  cases disc
  · exact accept s h hv
  · exact accept s.streamFlush h.streamFlush (by simpa using hv)

/-- The k-th frame's size stands in the k-th register (spec/46_segmenter_vp9.md R241). -/
theorem State.parseSuperframeIndex_sfSize (s : State) (m : Byte) (hm : s.superframeMarker = some m) (i : Nat) (hi : i < 8) :
    s.parseSuperframeIndex.seg.sfSize[i] = s.frameSize m i := by
  simp only [State.parseSuperframeIndex, hm]
  interval_cases i <;> rfl

theorem State.Inv.parseSuperframeIndex (h : s.Inv) (h0 : s.seg.sfNext = 0) : s.parseSuperframeIndex.Inv := by
  cases hm : s.superframeMarker with
  | none => simpa [State.parseSuperframeIndex, hm] using h
  | some m =>
    have hframes : markerFrames m ≤ 8 := by unfold markerFrames; omega
    have hcount : s.parseSuperframeIndex.seg.sfCount.toNat = markerFrames m := by
      simp only [State.parseSuperframeIndex, hm, BitVec.toNat_ofNat]
      omega
    have hzero : ∀ i, (hi : i < 8) → s.parseSuperframeIndex.seg.sfCount.toNat ≤ i →
        s.parseSuperframeIndex.seg.sfSize[i] = 0 := fun i hi hle => by
      rw [s.parseSuperframeIndex_sfSize m hm i hi, State.frameSize, if_neg (by omega)]
    have hnext : s.seg.sfNext.toNat ≤ s.parseSuperframeIndex.seg.sfCount.toNat := by simp [h0]
    rw [State.parseSuperframeIndex_eq]
    exact { h with sf_bounds := ⟨hcount ▸ hframes, hnext⟩, sf_size_zero := hzero }

theorem State.Inv.release (h : s.Inv) : s.release.Inv := by
  cases hh : s.seg.held
  · simpa [State.release, hh] using h
  · rw [State.release_held s hh]
    exact { h.unbindUnit with
      unitLen_bound := Nat.zero_le _
      bound_held := fun hv hs => absurd hs (s.unbindUnit_not_bound hv)
      info_held := fun _ => rfl
      len_idle := fun _ _ => rfl }

/-- A mode of SEG_NEXT that ends as R204, R205 and R267 say keeps the invariant, if it keeps the unit's bounds and, outside
byte-stream mode, the scanner's state. -/
theorem State.Inv.segEnds (h : s.Inv) (hv : s.cfg.valid = true) (he : SegEnds s t) (hk : SegKeeps s t)
    (hscan : s.byteStream = false → t.seg.inUnit = s.seg.inUnit ∧ t.seg.zc = s.seg.zc)
    (hnext : t.seg.sfNext.toNat ≤ s.seg.sfCount.toNat) : t.Inv := by
  obtain ⟨hf, hends⟩ := he
  have hparams : t.params = s.params := by rw [hf]; rfl
  have hcfg : t.cfg = s.cfg := by rw [hf]; rfl
  have hrd : t.rd = s.rd := by rw [hf]; rfl
  have hpkt : t.pktMem = s.pktMem := by rw [hf]; rfl
  have hcount : t.seg.sfCount = s.seg.sfCount := by rw [hf]; rfl
  have hsize : t.seg.sfSize = s.seg.sfSize := by rw [hf]; rfl
  have hstream : t.byteStream = s.byteStream := by simp only [State.byteStream, hcfg]
  have hheld : s.seg.held = true → t.seg.held = true := by
    rcases hends with ⟨_, e, _⟩ | ⟨_, e, _⟩ | ⟨_, e, _⟩ <;> simp [e]
  constructor
  case params_wf => exact hparams ▸ h.params_wf
  case pktMem_wf => rw [hpkt, hparams]; exact h.pktMem_wf
  case unitMem_wf => rw [hparams]; exact ⟨hk.wf h.unitMem_wf.1, hk.inside h.unitMem_wf.2⟩
  case pos_inside => exact hrd ▸ h.pos_inside
  case unbound_empty => exact hrd ▸ h.unbound_empty
  case map_rises => exact hrd ▸ h.map_rises
  case raw_inside => rw [hrd, hparams]; exact h.raw_inside
  case err_cause => exact hrd ▸ h.err_cause
  case last_cause =>
    rcases hends with ⟨_, _, _, _, e1, e2, _⟩ | ⟨_, _, _, _, _, _, e1, e2, _⟩ | ⟨_, _, _, _, _, e1, e2, e3⟩
    · simp [e1, e2]
    · simp [e1, e2]
    · simp [e1, e2, e3]
  case seg_cause =>
    rcases hends with ⟨e1, _, _, _, _, _, e2⟩ | ⟨e1, _, _, _, _, _, _, _, e2⟩ | ⟨e1, _, _, _, _, _, _, e2⟩
    · simp [e1, e2]
    · simp [e1, e2]
    · simp [e1, e2]
  case unitLen_bound => exact hparams ▸ hk.len
  case bound_held => rw [hrd]; exact fun hv hs => hheld (h.bound_held hv hs)
  case info_held =>
    rcases hends with ⟨_, e, _⟩ | ⟨_, e1, e2, _⟩ | ⟨_, e1, e2, _⟩
    · simp [e]
    · rw [e1, e2]; exact h.info_held
    · rw [e1, e2]; exact h.info_held
  case len_idle => exact hk.idle
  case scanner_idle =>
    rw [hstream]
    intro hb
    obtain ⟨e1, e2⟩ := hscan hb
    rw [e1, e2]
    exact h.scanner_idle hb
  case active_configured => exact fun _ => hcfg ▸ hv
  case vp9_mode => exact hcfg ▸ h.vp9_mode
  case sf_bounds => rw [hcount]; exact ⟨h.sf_bounds.1, hnext⟩
  case sf_size_zero => simp only [hcount, hsize]; exact h.sf_size_zero

theorem State.Inv.modeNext (h : s.Inv) (hv : s.cfg.valid = true) (hh : s.seg.held = false) : s.modeNext.Inv := by
  have hc : s.Collecting := ⟨h.unitMax_lt, h.unitLen_bound, fun hu => h.len_idle hu hh⟩
  rcases s.modeNext_cases with ⟨hb, e⟩ | ⟨hb, hm⟩
  · rw [e]
    obtain ⟨hends, _, _, hnext⟩ := nalScan_ends (s.pktLen.toNat - s.seg.pktPos.toNat) s
    refine h.segEnds hv hends (nalScan_keeps _ s hc) (fun hb' => ?_) (hnext ▸ h.sf_bounds.2)
    rw [hb] at hb'
    cases hb'
  · have hlen := h.len_idle (h.scanner_idle hb).1 hh
    exact h.segEnds hv hm.ends (hm.keeps hc hlen) (fun _ => hm.scanner) (hm.frames h.sf_bounds.2)

/-! ## Whole commands -/

theorem State.Inv.loadUnit (h : s.Inv) (src : UnitSource) (epb : Bool) (he : exec (.loadUnit src epb) s = .next t) :
    t.Inv := by
  rcases exec_loadUnit_cases he with ⟨c, hc, rfl⟩ | ⟨_, hh, rfl⟩ | ⟨_, hle, rfl⟩
  · exact h.refuse hc
  · exact h.bind .unit 0 _ epb (fun _ => ⟨h.unitLen_bound, hh⟩) UnitSource.noConfusion
  · exact h.bind .pkt _ _ epb UnitSource.noConfusion fun _ => hle

theorem State.Inv.segPacket (h : s.Inv) (eos eop disc : Bool) (he : exec (.segPacket eos eop disc) s = .next t) :
    t.Inv := by
  rcases exec_segPacket_cases he with ⟨c, hc, rfl⟩ | ⟨hv, rfl | rfl⟩
  · exact h.refuse hc
  · exact (h.acceptPacket hv eos eop disc).succeed
  · exact ((h.acceptPacket hv eos eop disc).parseSuperframeIndex rfl).succeed

theorem State.Inv.segNext (h : s.Inv) (he : exec .segNext s = .next t) : t.Inv := by
  rcases exec_segNext_cases he with rfl | ⟨hv, rfl | rfl⟩
  · exact h.refuse Cause.noConfusion
  · exact h.release.needData
  · exact h.release.modeNext (by simpa using hv) (by rw [State.release_eq])

/-- Every well-formed command keeps the invariant. -/
theorem exec_keeps_inv (h : s.Inv) (i : Instr) (hw : i.wellFormed = true) (he : exec i s = .next t) : t.Inv := by
  have read : isReadCommand i = true → t.Inv := fun hi => by
    obtain ⟨body, hb, accepted, refused⟩ := exec_read s i hi
    cases ha : s.argsAccepted i
    · cases (refused ha).symm.trans he
      exact h.refuse Cause.noConfusion
    · cases (accepted ha).symm.trans he
      exact h.readCommand body hb
  cases i with
  | nop => cases he; exact h.succeed
  | sreset => cases he; exact h.softReset.succeed
  | config codec inmode =>
    cases he
    refine h.configure codec inmode fun hc => ?_
    simpa [Instr.wellFormed, hc] using hw
  | loadUnit src epb => exact h.loadUnit src epb he
  | segPacket eos eop disc => exact h.segPacket eos eop disc he
  | segNext => exact h.segNext he
  | u | ue | se | uvlc | align | aligned | leb128 | su | le | ns | subexp | subexpRef => exact read rfl

/-! ## Host accesses and the step -/

/-- The decoder answers well-formed commands only (spec/30_encoding.md R83 check 4). -/
theorem decode_wellFormed {hasAux : Bool} {w : Word} {i : Instr} (h : decode hasAux w = .ok i) : i.wellFormed = true := by
  unfold decode at h
  split at h
  · cases h
  · split at h
    · cases h
    · split at h
      · cases h
      · split at h
        · cases h
        · split at h
          · cases h; assumption
          · cases h

/-- A host write that issues no command keeps the invariant: it changes operands and PKT_MEM only. -/
theorem State.Inv.memWrite (h : s.Inv) (addr : Nat) (w : AccessWidth) (v : Word) : (s.memWrite addr w v).Inv := by
  have hm := s.memWrite_keeps addr w v h.pktMem_wf
  rw [State.memWrite_eq]
  exact { h with pktMem_wf := hm }

theorem issue_keeps_inv (h : s.Inv) (w : Word) (he : issue w s = .next t) : t.Inv := by
  have hcmd : State.Inv { s with cmd := w } := { h with }
  unfold issue at he
  split at he
  · exact exec_keeps_inv hcmd _ (decode_wellFormed ‹_›) he
  · cases he
    exact hcmd.refuse Cause.noConfusion

theorem perform_keeps_inv (h : s.Inv) (a : HostAccess) (he : perform a s = .next t) : t.Inv := by
  cases a with
  | read addr w => cases he; exact { h with }
  | write addr w v =>
    simp only [perform] at he
    split at he
    · exact issue_keeps_inv h v he
    · cases he; exact h.memWrite _ _ _

theorem step_keeps_inv (h : s.Inv) (he : step s = .next t) : t.Inv := by
  unfold step at he
  split at he
  · cases he; exact h
  · rename_i a rest _
    have hq : State.Inv { s with pending := rest } := { h with }
    exact perform_keeps_inv hq a he

end

/-- Settles O59: the step makes one host access, and each access and each command keeps the invariant. -/
theorem stepKeepsInvariant : Obligations.StepKeepsInvariant :=
  fun _ _ h he => step_keeps_inv h he

end Sys2Proof.Machine
end

section
/-! The host's accesses in full (spec/10_state.md R22, spec/20_memory.md R68, R69): which ones do nothing, what every register
reads as, and what a register write leaves alone. -/

namespace Sys2Proof.Machine

/-! ## One access -/

theorem perform_read (s : State) (addr : Word) (w : AccessWidth) :
    perform (.read addr w) s = .next { s with busData := s.memRead addr.toNat w } := rfl

theorem perform_write (s : State) (addr v : Word) (w : AccessWidth) (h : isCommandWrite addr.toNat w = false) :
    perform (.write addr w v) s = .next (s.memWrite addr.toNat w v) := by
  simp [perform, h]

/-- A command is written with an allowed access, so an access that is not allowed issues none. -/
theorem isCommandWrite_of_not_allowed {a : Nat} {w : AccessWidth} (h : accessAllowed a w = false) :
    isCommandWrite a w = false := by
  rw [← Bool.not_eq_true]
  intro hc
  simp only [isCommandWrite, Reg.offset, Bool.and_eq_true, beq_iff_eq] at hc
  obtain ⟨rfl, rfl⟩ := hc
  cases h

theorem isCommandWrite_of_pos {a : Nat} (w : AccessWidth) (h : a ≠ 0) : isCommandWrite a w = false := by
  simp [isCommandWrite, Reg.offset, h]

/-- Misaligned and narrow register accesses are not allowed (spec/20_memory.md R69). -/
theorem accessAllowed_eq_false {a : Nat} {w : AccessWidth}
    (h : a % w.bytes ≠ 0 ∨ (a < Config.regWindow ∧ w ≠ .word)) : accessAllowed a w = false := by
  unfold accessAllowed
  split
  · cases w with
    | word =>
      have : a % 4 ≠ 0 := h.resolve_right fun h => h.2 rfl
      simp [this]
    | byte | half => rfl
  · have : a % w.bytes ≠ 0 := h.resolve_right fun h => absurd h.1 ‹_›
    simp [this]

theorem perform_write_not_allowed (s : State) (addr v : Word) (w : AccessWidth) (h : accessAllowed addr.toNat w = false) :
    perform (.write addr w v) s = .next s := by
  rw [perform_write s addr v w (isCommandWrite_of_not_allowed h)]
  simp [State.memWrite, h]

theorem perform_read_not_allowed (s : State) (addr : Word) (w : AccessWidth) (h : accessAllowed addr.toNat w = false) :
    perform (.read addr w) s = .next { s with busData := 0 } := by
  simp [perform_read, State.memRead, h]

/-! ## Offsets the register map does not list -/

/-- The offsets of the register window that R22 leaves out. -/
def unlistedOffset (a : Nat) : Prop :=
  a = 0x2C ∨ a = 0x3C ∨ (0x60 ≤ a ∧ a < 0x70) ∨ (0xA0 ≤ a ∧ a < 0x100)

theorem Reg.offset_listed (r : Reg) : ¬ unlistedOffset r.offset := by
  cases r with
  | sfSize i => have := i.isLt; simp only [unlistedOffset, Reg.offset]; omega
  | _ => simp [unlistedOffset, Reg.offset]

theorem Reg.ofOffset_unlisted {a : Nat} (h : unlistedOffset a) : Reg.ofOffset a = none := by
  rw [Reg.ofOffset, List.find?_eq_none]
  intro r _ hr
  rw [beq_iff_eq] at hr
  exact r.offset_listed (hr ▸ h)

theorem unlistedOffset_bounds {a : Nat} (h : unlistedOffset a) : a ≠ 0 ∧ a < Config.regWindow := by
  unfold unlistedOffset at h
  unfold Config.regWindow
  omega

theorem perform_write_unlisted (s : State) (addr v : Word) (w : AccessWidth) (h : unlistedOffset addr.toNat) :
    perform (.write addr w v) s = .next s := by
  obtain ⟨hpos, hwin⟩ := unlistedOffset_bounds h
  rw [perform_write s addr v w (isCommandWrite_of_pos w hpos)]
  simp [State.memWrite, Reg.ofOffset_unlisted h, hwin]

theorem perform_read_unlisted (s : State) (addr : Word) (w : AccessWidth) (h : unlistedOffset addr.toNat) :
    perform (.read addr w) s = .next { s with busData := 0 } := by
  obtain ⟨_, hwin⟩ := unlistedOffset_bounds h
  simp [perform_read, State.memRead, Reg.ofOffset_unlisted h, hwin]

/-! ## Addresses outside the memories -/

theorem State.busWriteLe_outside (s : State) (a : Nat) (v : Word) (n : Nat)
    (h : a + n ≤ Config.pktBase ∨ Config.pktBase + s.params.pktMax ≤ a) : s.busWriteLe a v n = s := by
  induction n with
  | zero => rfl
  | succ n ih => rw [State.busWriteLe, ih (by omega), State.busWriteByte_outside s _ _ (by omega)]

theorem State.busLe_eq_zero (s : State) (a n : Nat) (h : ∀ i, i < n → s.busByte (a + i) = 0) : s.busLe a n = 0 := by
  induction n with
  | zero => rfl
  | succ n ih => rw [State.busLe, ih fun i hi => h i (by omega), h n (by omega)]; simp

theorem State.busByte_outside (s : State) (a : Nat)
    (hp : a < Config.pktBase ∨ Config.pktBase + s.params.pktMax ≤ a)
    (hu : a < Config.unitBase ∨ Config.unitBase + s.params.unitMax ≤ a) : s.busByte a = 0 := by
  rw [State.busByte, if_neg (by omega), if_neg (by omega)]

theorem perform_write_outside (s : State) (addr v : Word) (w : AccessWidth) (hwin : Config.regWindow ≤ addr.toNat)
    (h : addr.toNat + w.bytes ≤ Config.pktBase ∨ Config.pktBase + s.params.pktMax ≤ addr.toNat) :
    perform (.write addr w v) s = .next s := by
  by_cases ha : addr.toNat % w.bytes = 0
  · have hpos : addr.toNat ≠ 0 := by unfold Config.regWindow at hwin; omega
    rw [perform_write s addr v w (isCommandWrite_of_pos w hpos), State.memWrite_memory s _ w v hwin ha,
      State.busWriteLe_outside s _ v _ h]
  · exact perform_write_not_allowed s addr v w (accessAllowed_eq_false (.inl ha))

theorem perform_read_outside (s : State) (addr : Word) (w : AccessWidth) (hwin : Config.regWindow ≤ addr.toNat)
    (h : ∀ i, i < w.bytes → s.busByte (addr.toNat + i) = 0) :
    perform (.read addr w) s = .next { s with busData := 0 } := by
  by_cases ha : addr.toNat % w.bytes = 0
  · rw [perform_read, State.memRead_memory s _ w hwin ha, State.busLe_eq_zero s _ _ h]; rfl
  · exact perform_read_not_allowed s addr w (accessAllowed_eq_false (.inl ha))

/-- Settles O11: each class of ignored accesses by its own lemma. -/
theorem disallowedAccessesDoNothing : Obligations.DisallowedAccessesDoNothing := by
  intro s addr value w hmax
  refine ⟨fun h => ?_, fun h => ?_, fun hwin h => ?_, fun hwin h => ?_⟩
  · have ha := accessAllowed_eq_false h
    exact ⟨perform_write_not_allowed s addr value w ha, perform_read_not_allowed s addr w ha⟩
  · exact ⟨perform_write_unlisted s addr value w h, perform_read_unlisted s addr w h⟩
  · exact perform_write_outside s addr value w hwin h
  · refine perform_read_outside s addr w hwin fun i hi => s.busByte_outside _ ?_ ?_
    all_goals
      unfold Config.pktBase Config.unitBase at *
      omega

/-! ## The words the registers read as -/

/-- A word's fields are digits: a field of `m` bits below another one. -/
theorem toNat_append_eq_add {n m : Nat} (x : BitVec n) (y : BitVec m) : (x ++ y).toNat = x.toNat * 2 ^ m + y.toNat := by
  rw [BitVec.toNat_append, ← Nat.shiftLeft_add_eq_or_of_lt y.isLt, Nat.shiftLeft_eq]

theorem State.cmdStatus_eq (s : State) :
    s.cmdStatus = Word.ofNat (s.lastOk.toNat + 2 ^ 8 * s.lastCause.code.toNat) := by
  apply BitVec.eq_of_toNat_eq
  have := s.lastCause.code.isLt
  have := s.lastOk.toNat_le
  simp only [State.cmdStatus, toNat_append_eq_add, BitVec.toNat_ofBool, BitVec.toNat_ofNat]
  omega

theorem Reader.status_eq (r : Reader) :
    r.status = Word.ofNat (r.unitValid.toNat + 2 * r.epbEn.toNat + 2 ^ 2 * (if r.src = .pkt then 1 else 0) +
      2 ^ 3 * r.err.toNat + 2 ^ 4 * (if r.pos.toNat % 8 = 0 then 1 else 0) + 2 ^ 8 * r.errCause.code.toNat) := by
  have hsrc : r.src.bit.toNat = if r.src = .pkt then 1 else 0 := by cases r.src <;> rfl
  have haligned : r.aligned.toNat = if r.pos.toNat % 8 = 0 then 1 else 0 := by
    unfold Reader.aligned; split <;> simp [*]
  apply BitVec.eq_of_toNat_eq
  rw [← hsrc, ← haligned]
  have := r.errCause.code.isLt
  have := r.aligned.toNat_le
  have := r.err.toNat_le
  have := r.src.bit.toNat_le
  have := r.epbEn.toNat_le
  have := r.unitValid.toNat_le
  simp only [Reader.status, toNat_append_eq_add, BitVec.toNat_ofBool, BitVec.toNat_ofNat]
  omega

theorem SessionConfig.word_eq (c : SessionConfig) :
    c.word = Word.ofNat (c.codec.field.toNat + 2 ^ 2 * c.inmode.toNat + 2 ^ 3 * c.valid.toNat) := by
  apply BitVec.eq_of_toNat_eq
  have := c.codec.field.isLt
  have := c.inmode.toNat_le
  have := c.valid.toNat_le
  simp only [SessionConfig.word, toNat_append_eq_add, BitVec.toNat_ofBool, BitVec.toNat_ofNat]
  omega

theorem PktFlags.word_eq (f : PktFlags) :
    f.word = Word.ofNat (f.eos.toNat + 2 * f.eop.toNat + 2 ^ 2 * f.disc.toNat) := by
  apply BitVec.eq_of_toNat_eq
  have := f.eos.toNat_le
  have := f.eop.toNat_le
  have := f.disc.toNat_le
  simp only [PktFlags.word, toNat_append_eq_add, BitVec.toNat_ofBool, BitVec.toNat_ofNat]
  omega

theorem Segmenter.status_eq (g : Segmenter) :
    g.status = Word.ofNat (g.result.code.toNat + 2 ^ 2 * g.active.toNat + 2 ^ 3 * g.held.toNat + 2 ^ 4 * g.inUnit.toNat +
      2 ^ 5 * g.zc.val + 2 ^ 8 * g.cause.code.toNat) := by
  apply BitVec.eq_of_toNat_eq
  have := g.cause.code.isLt
  have := g.zc.isLt
  have := g.inUnit.toNat_le
  have := g.held.toNat_le
  have := g.active.toNat_le
  have := g.result.code.isLt
  simp only [Segmenter.status, toNat_append_eq_add, BitVec.toNat_ofBool, BitVec.toNat_ofNat]
  omega

/-! ## Reads and writes of a register -/

theorem Reg.toNat_offset (r : Reg) : (Word.ofNat r.offset).toNat = r.offset := by
  have := r.offset_bounds.1
  unfold Config.regWindow at this
  rw [Word.ofNat, BitVec.toNat_ofNat, Nat.mod_eq_of_lt (by omega)]

theorem Reg.accessAllowed_offset (r : Reg) : accessAllowed r.offset .word = true := by
  simp [accessAllowed, r.offset_bounds]

theorem perform_read_reg (s : State) (r : Reg) :
    perform (.read (Word.ofNat r.offset) .word) s = .next { s with busData := s.readReg r } := by
  rw [perform_read, r.toNat_offset]
  simp [State.memRead, r.accessAllowed_offset, r.offset_bounds, Reg.ofOffset_offset]

theorem perform_read_word (s : State) (r : Reg) {v : Word} (h : s.readReg r = v) :
    perform (.read (Word.ofNat r.offset) .word) s = .next { s with busData := v } :=
  h ▸ perform_read_reg s r

theorem Reg.isCommandWrite_offset (r : Reg) (h : r ≠ .cmd) : isCommandWrite r.offset .word = false := by
  cases r with
  | cmd => exact absurd rfl h
  | sfSize i => simp [isCommandWrite, Reg.offset]
  | _ => rfl

theorem perform_write_reg (s : State) (r : Reg) (v : Word) (h : r ≠ .cmd) :
    perform (.write (Word.ofNat r.offset) .word v) s = .next (s.writeReg r v) := by
  rw [perform_write _ _ _ _ (by rw [r.toNat_offset]; exact r.isCommandWrite_offset h), r.toNat_offset]
  simp [State.memWrite, r.accessAllowed_offset, r.offset_bounds, Reg.ofOffset_offset]

/-- The registers that take a host write, of those other than CMD (spec/10_state.md R32, R34). -/
def Reg.writable (r : Reg) : Prop := r = .arg0 ∨ r = .arg1 ∨ r = .arg2 ∨ r = .pktLen

theorem State.readReg_writeReg_same (s : State) (r : Reg) (v : Word) (h : r.writable) : (s.writeReg r v).readReg r = v := by
  rcases h with rfl | rfl | rfl | rfl <;> rfl

theorem State.writeReg_ignored (s : State) (r : Reg) (v : Word) (h : ¬ r.writable) : s.writeReg r v = s := by
  cases r with
  | arg0 | arg1 | arg2 | pktLen => simp [Reg.writable] at h
  | _ => rfl

theorem State.readReg_writeReg_other (s : State) (r r' : Reg) (v : Word) (h : r' ≠ r) :
    (s.writeReg r v).readReg r' = s.readReg r' := by
  cases r with
  | arg0 =>
    cases r' with
    | arg0 => exact absurd rfl h
    | _ => rfl
  | arg1 =>
    cases r' with
    | arg1 => exact absurd rfl h
    | _ => rfl
  | arg2 =>
    cases r' with
    | arg2 => exact absurd rfl h
    | _ => rfl
  | pktLen =>
    cases r' with
    | pktLen => exact absurd rfl h
    | _ => rfl
  | _ => rfl

/-- Settles O12: a read is `readReg`'s word, a write `writeReg`'s next state. -/
theorem registerWritesFollowTheMap : Obligations.RegisterWritesFollowTheMap := by
  refine ⟨fun s => ⟨?_, fun i hi => perform_read_reg s (.sfSize ⟨i, hi⟩)⟩, by decide,
    fun s r v => ⟨perform_read_reg s r, ?_⟩⟩
  · have read := perform_read_word s
    simp only [List.forall_mem_cons]
    refine ⟨read .cmd rfl, read .result rfl, read .cmdStatus s.cmdStatus_eq, read .rdStatus s.rd.status_eq,
      read .pos rfl, read .plen rfl, read .rawOff rfl, read .epbCount rfl, read .errPos rfl, read .rdBase rfl,
      read .rawLen rfl, read .arg0 rfl, read .arg1 rfl, read .arg2 rfl, read .config (s.cfg.word_eq.trans ?codec),
      read .pktLen rfl, read .pktFlags s.seg.flags.word_eq, read .pktPos rfl,
      read .segStatus (s.seg.status_eq.trans ?result), read .unitLen rfl, read .unitInfo rfl, read .unitCount rfl,
      read .sfCount rfl, read .sfIndexSize rfl, read .sfNext rfl, read .sfBase rfl, List.forall_mem_nil _⟩
    case codec => cases s.cfg.codec <;> rfl
    case result => cases s.seg.result <;> rfl
  · intro hr
    refine ⟨_, perform_write_reg s r v hr, s.readReg_writeReg_same r v, fun r' h => ?_⟩
    rcases h with h | h
    · exact s.readReg_writeReg_other r r' v h
    · rw [s.writeReg_ignored r v (by unfold Reg.writable; tauto)]

end Sys2Proof.Machine
end

section
/-! What a command leaves alone, in every state: the registers it may write (spec/10_state.md R32 to R36), and UNIT_MEM at and
above UNIT_MAX (spec/44_segmenter_nal.md R212). -/

namespace Sys2Proof.Machine

/-- Settles O5: the oldest access is the command port's write, which decodes its word. -/
theorem stepRunsDecodedCommand : Obligations.StepRunsDecodedCommand := by
  intro s w rest hq
  have hstep : step s = issue w { s with pending := rest } := by
    rw [step, hq]
    exact perform_commandAccess w _
  refine ⟨fun i hi => ?_, fun e he => ?_⟩
  · rw [hstep, issue, hi]
  · rw [hstep, issue, he]
    rfl

/-! ## The registers a command may write -/

/-- `s` with the fields that a command other than SRESET may change taken from `t`. -/
def State.withCommand (s t : State) : State :=
  { s with
    result := t.result, lastOk := t.lastOk, lastCause := t.lastCause, cfg := t.cfg, rd := t.rd, seg := t.seg
    unitMem := t.unitMem }

theorem State.withCommand_keeps {s t : State} (h : t = s.withCommand t) :
    t.arg0 = s.arg0 ∧ t.arg1 = s.arg1 ∧ t.arg2 = s.arg2 ∧ t.pktLen = s.pktLen ∧ t.cmd = s.cmd ∧ t.params = s.params ∧
      t.pending = s.pending ∧ t.busData = s.busData ∧ t.pktMem = s.pktMem := by
  rw [h]
  exact ⟨rfl, rfl, rfl, rfl, rfl, rfl, rfl, rfl, rfl⟩

theorem State.readCommand_frame (s : State) (body : List Byte → Nat → ReadOutcome Word) :
    s.readCommand body = s.withCommand (s.readCommand body) ∧ (s.readCommand body).cfg = s.cfg ∧
      (s.readCommand body).unitMem = s.unitMem := by
  rcases s.readCommand_cases body with ⟨_, e⟩ | ⟨_, _, e⟩ | ⟨_, _, v, q, _, e⟩ | ⟨_, _, c, _, e⟩ <;> rw [e] <;>
    exact ⟨rfl, rfl, rfl⟩

theorem exec_read_frame (s t : State) (i : Instr) (hi : isReadCommand i = true) (h : exec i s = .next t) :
    t = s.withCommand t ∧ t.cfg = s.cfg ∧ t.unitMem = s.unitMem := by
  obtain ⟨body, _, accepted, refused⟩ := exec_read s i hi
  cases ha : s.argsAccepted i
  · cases (refused ha).symm.trans h
    exact ⟨rfl, rfl, rfl⟩
  · cases (accepted ha).symm.trans h
    exact s.readCommand_frame body

theorem exec_config_frame (s t : State) (codec : Codec) (inmode : Bool) (h : exec (.config codec inmode) s = .next t) :
    t = s.withCommand t ∧ t.unitMem = s.unitMem := by
  cases h
  rw [State.configure_eq, State.unbindUnit_eq]
  exact ⟨rfl, rfl⟩

theorem exec_loadUnit_frame (s t : State) (src : UnitSource) (epb : Bool) (h : exec (.loadUnit src epb) s = .next t) :
    t = s.withCommand t ∧ t.cfg = s.cfg ∧ t.unitMem = s.unitMem := by
  rcases exec_loadUnit_cases h with ⟨c, _, rfl⟩ | ⟨_, _, rfl⟩ | ⟨_, _, rfl⟩ <;> exact ⟨rfl, rfl, rfl⟩

theorem exec_segPacket_frame (s t : State) (eos eop disc : Bool) (h : exec (.segPacket eos eop disc) s = .next t) :
    t = s.withCommand t ∧ t.cfg = s.cfg ∧ t.unitMem = s.unitMem := by
  rcases exec_segPacket_cases h with ⟨c, _, rfl⟩ | ⟨_, rfl | rfl⟩
  · exact ⟨rfl, rfl, rfl⟩
  · rw [State.acceptPacket_eq]
    exact ⟨rfl, rfl, rfl⟩
  · rw [State.parseSuperframeIndex_eq, State.acceptPacket_eq]
    exact ⟨rfl, rfl, rfl⟩

theorem exec_segNext_frame (s t : State) (h : exec .segNext s = .next t) : t = s.withCommand t ∧ t.cfg = s.cfg := by
  rcases exec_segNext_cases h with rfl | ⟨hv, _⟩
  · exact ⟨rfl, rfl⟩
  · have hf := (segNext_ends s t hv h).frame
    rw [State.release_eq] at hf
    rw [hf]
    exact ⟨rfl, rfl⟩

/-- What every command but SRESET leaves alone. -/
theorem exec_frame (s t : State) (i : Instr) (hi : i ≠ .sreset) (h : exec i s = .next t) :
    t = s.withCommand t ∧ ((∀ c m, i ≠ .config c m) → t.cfg = s.cfg) ∧ (i ≠ .segNext → t.unitMem = s.unitMem) := by
  have keeps : t = s.withCommand t ∧ t.cfg = s.cfg ∧ t.unitMem = s.unitMem →
      t = s.withCommand t ∧ ((∀ c m, i ≠ .config c m) → t.cfg = s.cfg) ∧ (i ≠ .segNext → t.unitMem = s.unitMem) :=
    fun ⟨h1, h2, h3⟩ => ⟨h1, fun _ => h2, fun _ => h3⟩
  cases i with
  | nop => cases h; exact keeps ⟨rfl, rfl, rfl⟩
  | sreset => exact absurd rfl hi
  | config codec inmode =>
    obtain ⟨h1, h2⟩ := exec_config_frame s t codec inmode h
    exact ⟨h1, fun hn => absurd rfl (hn codec inmode), fun _ => h2⟩
  | loadUnit src epb => exact keeps (exec_loadUnit_frame s t src epb h)
  | segPacket eos eop disc => exact keeps (exec_segPacket_frame s t eos eop disc h)
  | segNext =>
    obtain ⟨h1, h2⟩ := exec_segNext_frame s t h
    exact ⟨h1, fun _ => h2, fun hn => absurd rfl hn⟩
  | u | ue | se | uvlc | align | aligned | leb128 | su | le | ns | subexp | subexpRef =>
    exact keeps (exec_read_frame s t _ rfl h)

/-- Settles O56: none of these fields is one a command other than SRESET may change. -/
theorem commandsKeepHostRegisters : Obligations.CommandsKeepHostRegisters := by
  intro s t i hi h
  obtain ⟨hf, hcfg, _⟩ := exec_frame s t i hi h
  obtain ⟨h0, h1, h2, hlen, hcmd, hparams, hpending, hbus, _⟩ := State.withCommand_keeps hf
  exact ⟨h0, h1, h2, hlen, hcmd, hparams, hpending, hbus, hcfg⟩

/-! ## UNIT_MEM below a bound -/

/-- From `m` to `m'` only bytes below `n` are stored. -/
structure Memory.StoresBelow (n : Nat) (m m' : Memory) : Prop where
  above : ∀ a, n ≤ a → Memory.read? m' a = Memory.read? m a
  inside : Memory.below n m → Memory.below n m'

theorem Memory.StoresBelow.refl (n : Nat) (m : Memory) : Memory.StoresBelow n m m := ⟨fun _ _ => rfl, id⟩

theorem Memory.StoresBelow.trans {n : Nat} {m m' m'' : Memory} (h : Memory.StoresBelow n m m')
    (h' : Memory.StoresBelow n m' m'') : Memory.StoresBelow n m m'' :=
  ⟨fun a ha => (h'.above a ha).trans (h.above a ha), fun hb => h'.inside (h.inside hb)⟩

theorem Memory.write_storesBelow {n a : Nat} (m : Memory) (b : Byte) (h : a < n) :
    Memory.StoresBelow n m (Memory.write m a b) :=
  ⟨fun x hx => Memory.read?_write_other m a x b (by omega), Memory.below_write n m a b h⟩

theorem Memory.writeBytes_storesBelow {n a : Nat} (m : Memory) (bs : List Byte) (h : a + bs.length ≤ n) :
    Memory.StoresBelow n m (Memory.writeBytes m a bs) :=
  ⟨fun x hx => Memory.read?_writeBytes_outside bs m a x (by omega), Memory.below_writeBytes n bs m a h⟩

theorem State.copyUnit_storesBelow (s : State) (start n max : Nat) (h : n ≤ max) :
    Memory.StoresBelow max s.unitMem (s.copyUnit start n).unitMem :=
  Memory.writeBytes_storesBelow _ _ (by rw [State.pktBytes_length]; omega)

/-- UNIT_LEN after an appended byte: one more, or 0 where 32 bits are used up. -/
theorem State.appendByte_len_le (b : Byte) (s : State) :
    (s.appendByte b).seg.unitLen.toNat ≤ s.seg.unitLen.toNat + 1 := by
  rw [State.appendByte_seg_unitLen, Word.ofNat, BitVec.toNat_ofNat]
  exact Nat.mod_le _ _

theorem State.appendByte_storesBelow (b : Byte) (s : State) (max : Nat) (h : s.seg.unitLen.toNat + 1 ≤ max) :
    Memory.StoresBelow max s.unitMem (s.appendByte b).unitMem :=
  Memory.write_storesBelow _ _ (by omega)

theorem State.appendZeros_storesBelow (n : Nat) (s : State) (max : Nat) (h : s.seg.unitLen.toNat + n ≤ max) :
    Memory.StoresBelow max s.unitMem (s.appendZeros n).unitMem ∧
      (s.appendZeros n).seg.unitLen.toNat ≤ s.seg.unitLen.toNat + n := by
  induction n generalizing s with
  | zero => exact ⟨.refl _ _, le_rfl⟩
  | succ n ih =>
    have hlen := s.appendByte_len_le 0
    obtain ⟨hstores, hlen'⟩ := ih (s.appendByte 0) (by omega)
    exact ⟨(s.appendByte_storesBelow 0 max (by omega)).trans hstores, by rw [State.appendZeros]; omega⟩

/-! ## The modes of SEG_NEXT store below UNIT_MAX -/

theorem scanByte_storesBelow (b : Byte) (s : State) :
    Memory.StoresBelow s.params.unitMax s.unitMem (scanByte b s).2.unitMem := by
  by_cases hb : b = 0x00
  · subst hb
    by_cases hz : s.seg.zc = 2
    · rw [scanByte_zero s hz]
      split
      · split
        · exact .refl _ _
        · exact s.appendByte_storesBelow 0 _ (by omega)
      · exact .refl _ _
    · rw [scanByte_count s hz]
      exact .refl _ _
  · by_cases h1 : b = 0x01 ∧ s.seg.zc = 2
    · obtain ⟨rfl, hz⟩ := h1
      rw [scanByte_startCode s hz]
      split <;> exact .refl _ _
    · rw [scanByte_data b s hb h1]
      split
      · split
        · exact .refl _ _
        · have hfit : s.seg.unitLen.toNat + s.seg.zc.val + 1 ≤ s.params.unitMax := by omega
          obtain ⟨hstores, hlen⟩ := (s.setZc 0).appendZeros_storesBelow s.seg.zc.val s.params.unitMax
            (by rw [State.setZc_seg_unitLen]; omega)
          rw [State.setZc_seg_unitLen] at hlen
          exact hstores.trans (State.appendByte_storesBelow b _ _ (by omega))
      · exact .refl _ _

theorem State.endOfPacket_storesBelow (s : State) :
    Memory.StoresBelow s.params.unitMax s.unitMem s.endOfPacket.unitMem := by
  by_cases he : s.seg.flags.eop = true ∨ s.seg.flags.eos = true
  · cases hu : s.seg.inUnit
    · rw [State.endOfPacket_idle s he hu]
      exact .refl _ _
    · rw [State.endOfPacket_close s he hu]
      split
      · exact .refl _ _
      · have hstores := (s.closeUnit.appendZeros_storesBelow s.seg.zc.val s.params.unitMax
          (Nat.le_of_not_lt ‹_›)).1
        split <;> exact hstores
  · rw [not_or, Bool.not_eq_true, Bool.not_eq_true] at he
    rw [State.endOfPacket_carry s he.1 he.2]
    exact .refl _ _

theorem nalScan_storesBelow (left : Nat) (s : State) :
    Memory.StoresBelow s.params.unitMax s.unitMem (nalScan left s).unitMem := by
  induction left generalizing s with
  | zero => exact s.endOfPacket_storesBelow
  | succ left ih =>
    rw [nalScan]
    split
    · exact s.endOfPacket_storesBelow
    · have hbyte : Memory.StoresBelow s.params.unitMax s.unitMem (scanByte s.consumeByte.1 s.consumeByte.2).2.unitMem :=
        scanByte_storesBelow s.consumeByte.1 s.consumeByte.2
      have hparams : (scanByte s.consumeByte.1 s.consumeByte.2).2.params = s.params := by
        rw [(scanByte_frame s.consumeByte.1 s.consumeByte.2).1]
        rfl
      generalize scanByte s.consumeByte.1 s.consumeByte.2 = r at hbyte hparams
      obtain ⟨res, t⟩ := r
      cases res with
      | none => exact hbyte.trans (hparams ▸ ih t)
      | unit => exact hbyte
      | overflow => exact hbyte

theorem State.wholePacketNext_storesBelow (s : State) :
    Memory.StoresBelow s.params.unitMax s.unitMem s.wholePacketNext.unitMem := by
  unfold State.wholePacketNext
  simp only
  split
  · exact .refl _ _
  · split
    · exact .refl _ _
    · exact State.copyUnit_storesBelow _ 0 _ _ (by omega)

theorem State.copyOrSkip_storesBelow (s : State) (start size next : Nat) (h : ObuHeader) (hl : Nat) :
    Memory.StoresBelow s.params.unitMax s.unitMem (s.copyOrSkip start size next h hl).unitMem := by
  unfold State.copyOrSkip
  simp only
  split
  · exact .refl _ _
  · exact State.copyUnit_storesBelow _ start _ _ (Nat.le_of_not_lt ‹_›)

theorem State.obuNext_storesBelow (s : State) :
    Memory.StoresBelow s.params.unitMax s.unitMem s.obuNext.unitMem := by
  unfold State.obuNext
  simp only
  split
  · exact .refl _ _
  · split
    · exact .refl _ _
    · exact s.copyOrSkip_storesBelow _ _ _ _ _

theorem State.annexBNext_storesBelow (s : State) :
    Memory.StoresBelow s.params.unitMax s.unitMem s.annexBNext.unitMem := by
  unfold State.annexBNext
  simp only
  split
  · exact .refl _ _
  · split
    · exact .refl _ _
    · split
      · exact .refl _ _
      · split
        · exact .refl _ _
        · exact s.copyOrSkip_storesBelow _ _ _ _ _

theorem State.vp9Next_storesBelow (s : State) :
    Memory.StoresBelow s.params.unitMax s.unitMem s.vp9Next.unitMem := by
  unfold State.vp9Next
  split
  · exact s.wholePacketNext_storesBelow
  · split
    · exact .refl _ _
    · simp only
      split
      · exact .refl _ _
      · split
        · exact .refl _ _
        · exact State.copyUnit_storesBelow _ _ _ _ (Nat.le_of_not_lt ‹_›)

theorem State.modeNext_storesBelow (s : State) :
    Memory.StoresBelow s.params.unitMax s.unitMem s.modeNext.unitMem := by
  unfold State.modeNext
  split
  · split
    · exact s.wholePacketNext_storesBelow
    · exact nalScan_storesBelow _ s
  · split
    · exact s.wholePacketNext_storesBelow
    · exact nalScan_storesBelow _ s
  · exact s.vp9Next_storesBelow
  · split
    · exact s.annexBNext_storesBelow
    · exact s.obuNext_storesBelow

theorem segNext_storesBelow (s t : State) (h : exec .segNext s = .next t) :
    Memory.StoresBelow s.params.unitMax s.unitMem t.unitMem := by
  rcases exec_segNext_cases h with rfl | ⟨_, rfl | rfl⟩
  · exact .refl _ _
  · simpa using Memory.StoresBelow.refl s.params.unitMax s.unitMem
  · simpa using s.release.modeNext_storesBelow

/-! ## Every command -/

theorem exec_keeps_pktMem (s t : State) (i : Instr) (h : exec i s = .next t) :
    t.pktMem = s.pktMem ∧ t.params = s.params := by
  by_cases hi : i = .sreset
  · subst hi
    cases h
    exact ⟨rfl, rfl⟩
  · obtain ⟨_, _, _, _, _, hparams, _, _, hpkt⟩ := State.withCommand_keeps (exec_frame s t i hi h).1
    exact ⟨hpkt, hparams⟩

theorem exec_keeps_unitMem (s t : State) (i : Instr) (hi : i ≠ .segNext) (h : exec i s = .next t) :
    t.unitMem = s.unitMem := by
  by_cases hr : i = .sreset
  · subst hr
    cases h
    rfl
  · exact (exec_frame s t i hr h).2.2 hi

theorem exec_storesBelow (s t : State) (i : Instr) (h : exec i s = .next t) :
    Memory.StoresBelow s.params.unitMax s.unitMem t.unitMem := by
  by_cases hi : i = .segNext
  · subst hi
    exact segNext_storesBelow s t h
  · rw [exec_keeps_unitMem s t i hi h]
    exact .refl _ _

/-- Outside UNIT_MEM's window the host sees PKT_MEM only. -/
theorem State.busByte_congr (s t : State) (hm : t.pktMem = s.pktMem) (hp : t.params = s.params) (a : Nat)
    (h : a < Config.unitBase ∨ Config.unitBase + s.params.unitMax ≤ a) : t.busByte a = s.busByte a := by
  have hu : ¬ (Config.unitBase ≤ a ∧ a < Config.unitBase + s.params.unitMax) := by omega
  simp only [State.busByte, hp, hu, if_false, State.pktByte_congr s t hm hp]

/-- Settles O42: SEG_NEXT stores below UNIT_MAX, and every other command leaves both memories alone. -/
theorem onlySegNextWritesUnitMemory : Obligations.OnlySegNextWritesUnitMemory := by
  intro s t i h
  obtain ⟨hpkt, hparams⟩ := exec_keeps_pktMem s t i h
  have hstores := exec_storesBelow s t i h
  exact ⟨hpkt, fun hi => exec_keeps_unitMem s t i hi h, hstores.above, hstores.inside,
    State.busByte_congr s t hpkt hparams⟩

end Sys2Proof.Machine
end

section
/-! The host's aligned accesses to the memories, byte by byte (spec/20_memory.md R68 to R70): what a write stores, and the
bytes a read is made of. -/

namespace Sys2Proof.Machine

theorem AccessWidth.bytes_le (w : AccessWidth) : w.bytes ≤ 4 := by cases w <;> decide

/-! ## Writes -/

/-- An access's bytes written inside PKT_MEM, seen from every address. -/
theorem State.busByte_busWriteLe (s : State) (a x : Nat) (v : Word) (n : Nat) (h0 : Config.pktBase ≤ a)
    (h1 : a + n ≤ Config.pktBase + s.params.pktMax) :
    (s.busWriteLe a v n).busByte x =
      if a ≤ x ∧ x < a + n then v.extractLsb' (8 * (x - a)) 8 else s.busByte x := by
  induction n with
  | zero => rw [State.busWriteLe, if_neg (by omega)]
  | succ n ih =>
    have hparams : (s.busWriteLe a v n).params = s.params := by rw [State.busWriteLe_eq]
    rw [State.busWriteLe, State.busByte_busWriteByte _ _ _ _ (by omega) (by rw [hparams]; omega), ih (by omega)]
    by_cases hx : x = a + n
    · subst hx
      rw [if_pos rfl, if_pos (by omega), Nat.add_sub_cancel_left]
    · have hiff : (a ≤ x ∧ x < a + n) ↔ (a ≤ x ∧ x < a + (n + 1)) := by omega
      simp only [if_neg hx, hiff]

theorem perform_write_memory (s : State) (addr v : Word) (w : AccessWidth) (hwin : Config.regWindow ≤ addr.toNat)
    (ha : addr.toNat % w.bytes = 0) :
    perform (.write addr w v) s = .next (s.busWriteLe addr.toNat v w.bytes) := by
  have hpos : addr.toNat ≠ 0 := by unfold Config.regWindow at hwin; omega
  rw [perform_write s addr v w (isCommandWrite_of_pos w hpos), State.memWrite_memory s _ w v hwin ha]

/-- Settles O9: the access is its bytes' writes, each seen from every address. -/
theorem packetWriteStoresLittleEndian : Obligations.PacketWriteStoresLittleEndian := by
  intro s addr value w ha hlo hhi _
  have hwin : Config.regWindow ≤ addr.toNat := le_trans (by decide) hlo
  have hbyte := fun x => s.busByte_busWriteLe addr.toNat x value w.bytes hlo hhi
  refine ⟨_, perform_write_memory s addr value w hwin ha, fun i hi => ?_, fun a h => ?_, s.busWriteLe_eq _ _ _⟩
  · rw [hbyte, if_pos (by omega), Nat.add_sub_cancel_left]
  · rw [hbyte, if_neg (by omega)]

/-! ## Reads -/

/-- The i-th byte of an access's value is the byte at its i-th address. -/
theorem State.busLe_div_mod (s : State) (a n i : Nat) (h : i < n) :
    s.busLe a n / 2 ^ (8 * i) % 2 ^ 8 = (s.busByte (a + i)).toNat := by
  induction n with
  | zero => omega
  | succ n ih =>
    rw [State.busLe]
    rcases Nat.lt_succ_iff_lt_or_eq.mp h with hlt | rfl
    · have hsplit : 2 ^ (8 * n) = 2 ^ (8 * (n - 1 - i)) * 2 ^ 8 * 2 ^ (8 * i) := by
        rw [← pow_add, ← pow_add]
        congr 1
        omega
      rw [hsplit, ← Nat.mul_assoc, Nat.add_mul_div_right _ _ (by positivity), ← Nat.mul_assoc,
        Nat.add_mul_mod_self_right, ih hlt]
    · rw [Nat.add_mul_div_right _ _ (by positivity), Nat.div_eq_of_lt (s.busLe_lt a i), Nat.zero_add,
        Nat.mod_eq_of_lt (BitVec.isLt _)]

/-- An access is at most 32 bits wide, so its value is returned whole. -/
theorem State.toNat_busLe (s : State) (a : Nat) (w : AccessWidth) :
    (Word.ofNat (s.busLe a w.bytes)).toNat = s.busLe a w.bytes := by
  have hwidth : 2 ^ (8 * w.bytes) ≤ 2 ^ 32 := Nat.pow_le_pow_right (by omega) (by have := w.bytes_le; omega)
  rw [Word.ofNat, BitVec.toNat_ofNat, Nat.mod_eq_of_lt ((s.busLe_lt a w.bytes).trans_le hwidth)]

theorem State.extractLsb'_busLe (s : State) (a : Nat) (w : AccessWidth) (i : Nat) (h : i < w.bytes) :
    (Word.ofNat (s.busLe a w.bytes)).extractLsb' (8 * i) 8 = s.busByte (a + i) := by
  apply BitVec.eq_of_toNat_eq
  rw [BitVec.extractLsb'_toNat, s.toNat_busLe, Nat.shiftRight_eq_div_pow, s.busLe_div_mod a _ i h]

theorem perform_read_memory (s : State) (addr : Word) (w : AccessWidth) (hwin : Config.regWindow ≤ addr.toNat)
    (ha : addr.toNat % w.bytes = 0) :
    perform (.read addr w) s = .next { s with busData := Word.ofNat (s.busLe addr.toNat w.bytes) } := by
  rw [perform_read, State.memRead_memory s _ w hwin ha]

/-- A byte read above the register window returns the byte at its address. -/
theorem perform_read_byte (s : State) (a : Nat) (hwin : Config.regWindow ≤ a) (ha : a < 2 ^ 32) :
    perform (.read (Word.ofNat a) .byte) s = .next { s with busData := (s.busByte a).setWidth 32 } := by
  have haddr : (Word.ofNat a).toNat = a := by rw [Word.ofNat, BitVec.toNat_ofNat, Nat.mod_eq_of_lt ha]
  have hvalue : Word.ofNat (s.busLe a 1) = (s.busByte a).setWidth 32 := by
    simp [State.busLe]
  rw [perform_read_memory s _ _ (haddr.symm ▸ hwin) (Nat.mod_one _), haddr, ← hvalue]
  rfl

/-! ## The two windows -/

theorem State.busByte_pkt (s : State) (i : Nat) (h : i < s.params.pktMax) :
    s.busByte (Config.pktBase + i) = s.pktByte i := by
  rw [State.busByte, if_pos (by omega), Nat.add_sub_cancel_left]

/-- PKT_MEM's window ends below UNIT_MEM's (spec/00_scope.md R9). -/
theorem State.busByte_unit (s : State) (i : Nat) (hmax : s.params.pktMax ≤ 2 ^ 24) (h : i < s.params.unitMax) :
    s.busByte (Config.unitBase + i) = s.unitByte i := by
  have habove : ¬ (Config.pktBase ≤ Config.unitBase + i ∧ Config.unitBase + i < Config.pktBase + s.params.pktMax) := by
    unfold Config.pktBase Config.unitBase
    omega
  rw [State.busByte, if_neg habove, if_pos (by omega), Nat.add_sub_cancel_left]

/-- Settles O10: a read returns its bytes' number, and the windows map to the two memories. -/
theorem memoryReadIsLittleEndian : Obligations.MemoryReadIsLittleEndian := by
  refine ⟨fun s addr w ha hwin => ?_, fun s i hpkt hunit => ⟨fun hi => ?_, fun hi => ?_⟩⟩
  · refine ⟨_, perform_read_memory s addr w hwin ha, s.extractLsb'_busLe addr.toNat w, ?_⟩
    rw [s.toNat_busLe]
    exact s.busLe_lt _ _
  · have hbyte := s.busByte_pkt i hi
    exact ⟨hbyte, hbyte ▸ perform_read_byte s _ (Nat.le_add_right_of_le (by decide)) (by omega)⟩
  · have hbyte := s.busByte_unit i hpkt hi
    exact ⟨hbyte, hbyte ▸ perform_read_byte s _ (Nat.le_add_right_of_le (by decide)) (by omega)⟩

end Sys2Proof.Machine
end

section
/-! The emulation-prevention filter over a whole byte sequence (spec/20_memory.md R62): which bytes it removes, and what
RAW_OFF and EPB_COUNT say of them (R64). -/

namespace Sys2Proof.Machine

/-! ## One byte of the filter -/

theorem epbZeros_append (en : Bool) (a b : List Byte) (z : Nat) :
    epbZeros en (a ++ b) z = epbZeros en b (epbZeros en a z) := by
  induction a generalizing z with
  | nil => rfl
  | cons c a ih =>
    simp only [List.cons_append, epbZeros]
    split <;> exact ih _

/-- The filter's count of payload zeros is the number of raw zeros just before: a removed 0x03 ends either run. -/
theorem epbZeros_eq_trailingZeros (en : Bool) (raw : List Byte) : epbZeros en raw 0 = trailingZeros raw := by
  induction raw using List.reverseRecOn with
  | nil => rfl
  | append_singleton raw b ih =>
    rw [epbZeros_append, ih]
    by_cases hb : b = 0x00
    · subst hb
      rw [trailingZeros_zero]
      simp [epbZeros]
    · rw [trailingZeros_data raw b hb]
      simp only [epbZeros, if_neg hb, ite_self]

/-- The filter removes `b`, whose preceding raw bytes are `pre`. -/
def epbRemoves (en : Bool) (pre : List Byte) (b : Byte) : Prop := en = true ∧ 2 ≤ trailingZeros pre ∧ b = 0x03

/-- A removed byte leaves the bytes after it to a filter that starts again. -/
theorem epbFilter_removed {en : Bool} {pre : List Byte} {b : Byte} (post : List Byte) (h : epbRemoves en pre b) :
    epbFilter en (pre ++ b :: post) 0 0 = epbFilter en pre 0 0 ++ epbFilter en post (pre.length + 1) 0 := by
  obtain ⟨hen, hz, hb⟩ := h
  rw [epbFilter_append, epbZeros_eq_trailingZeros]
  simp [epbFilter, hen, hz, hb]

theorem epbFilter_kept {en : Bool} {pre : List Byte} {b : Byte} (post : List Byte) (h : ¬ epbRemoves en pre b) :
    epbFilter en (pre ++ b :: post) 0 0 =
      epbFilter en pre 0 0 ++ (pre.length, b) ::
        epbFilter en post (pre.length + 1) (if b = 0x00 then trailingZeros pre + 1 else 0) := by
  have hcond : (en && decide (2 ≤ trailingZeros pre) && b == 0x03) = false := by
    simpa [epbRemoves, and_assoc] using h
  rw [epbFilter_append, epbZeros_eq_trailingZeros, Nat.zero_add]
  simp only [epbFilter, hcond, Bool.false_eq_true, if_false]

/-! ## The whole sequence -/

/-- A raw byte that the map leaves out is one the filter removes. -/
theorem epbRemoves_of_not_mem {en : Bool} {pre : List Byte} {b : Byte} (post : List Byte)
    (h : pre.length ∉ (epbFilter en (pre ++ b :: post) 0 0).map Prod.fst) : epbRemoves en pre b := by
  by_contra hk
  rw [epbFilter_kept post hk] at h
  simp at h

/-- Settles O18: the laws of the filter's map, and a byte it leaves out split off with the two zeros before it. -/
theorem filterRemovesOnlyPreventionBytes : Obligations.FilterRemovesOnlyPreventionBytes := by
  intro en raw
  refine ⟨epbFilter_rises en raw 0 0, fun c hc => (epbFilter_mem en raw 0 0 c hc).2.2, fun i hi hmiss => ?_⟩
  obtain ⟨pre, b, post, rfl, rfl⟩ : ∃ pre b post, raw = pre ++ b :: post ∧ i = pre.length :=
    ⟨raw.take i, raw[i], raw.drop (i + 1), by simp, by simp; omega⟩
  obtain ⟨hen, hz, rfl⟩ := epbRemoves_of_not_mem post hmiss
  obtain ⟨as, rfl⟩ := trailingZeros_two pre hz
  exact ⟨hen, by simp, by simp, by simp, by simp⟩

/-- The bytes 00 00 03 stand nowhere in `raw`. -/
def preventionFree (raw : List Byte) : Prop :=
  ∀ i : Nat, ¬ (raw[i]? = some 0x00 ∧ raw[i + 1]? = some 0x00 ∧ raw[i + 2]? = some 0x03)

theorem preventionFree.left {as bs : List Byte} (h : preventionFree (as ++ bs)) : preventionFree as := by
  have stays : ∀ {j b}, as[j]? = some b → (as ++ bs)[j]? = some b := fun hj => by
    rw [List.getElem?_append_left (List.getElem?_eq_some_iff.mp hj).1, hj]
  exact fun i ⟨h0, h1, h2⟩ => h i ⟨stays h0, stays h1, stays h2⟩

theorem preventionFree.not_removes {en : Bool} {pre : List Byte} {b : Byte} (h : preventionFree (pre ++ [b])) :
    ¬ epbRemoves en pre b := by
  rintro ⟨_, hz, rfl⟩
  obtain ⟨as, rfl⟩ := trailingZeros_two pre hz
  exact h as.length ⟨by simp, by simp, by simp⟩

theorem epbFilter_preventionFree (en : Bool) (raw : List Byte) (h : preventionFree raw) :
    (epbFilter en raw 0 0).map Prod.snd = raw := by
  induction raw using List.reverseRecOn with
  | nil => rfl
  | append_singleton raw b ih =>
    rw [epbFilter_kept [] h.not_removes]
    simp [epbFilter, ih h.left]

theorem two_le_trailingZeros {bs : List Byte} (h : bs.reverse.take 2 = [0x00, 0x00]) : 2 ≤ trailingZeros bs := by
  have hsplit : bs.reverse = [0x00, 0x00] ++ bs.reverse.drop 2 := by rw [← h, List.take_append_drop]
  rw [trailingZeros, hsplit]
  simp

/-- Settles O19: bytes without 00 00 03 are kept, and the 03 after them starts the filter again. -/
theorem filterRemovesFirstPreventionByte : Obligations.FilterRemovesFirstPreventionByte := by
  intro before after hfree
  have hkept := epbFilter_preventionFree true before hfree
  refine ⟨hkept, fun htail => ?_⟩
  have hremoved : epbRemoves true before 0x03 := ⟨rfl, two_le_trailingZeros htail, rfl⟩
  rw [epbFilter_removed after hremoved, List.map_append, hkept, epbFilter_bytes true after _ 0]

/-! ## RAW_OFF and EPB_COUNT -/

theorem ofNat_toNat_sub (w : Word) (n : Nat) (h : n ≤ w.toNat) : Word.ofNat (w.toNat - n) = w - Word.ofNat n := by
  apply BitVec.eq_of_toNat_eq
  have := w.isLt
  simp only [BitVec.toNat_sub, BitVec.toNat_ofNat]
  omega

theorem Reader.rawOff_inside {r : Reader} {c : Host.Cell} (h : r.payload[r.pos.toNat / 8]? = some c) :
    r.rawOff = c.1 := by
  rw [Reader.rawOff, h]

theorem Reader.rawOff_end {r : Reader} (h : r.plen ≤ r.pos.toNat / 8) : r.rawOff = r.rawLen.toNat := by
  rw [Reader.rawOff, List.getElem?_eq_none h]

/-- The map's offsets before payload byte POS div 8 lie below RAW_OFF, and no other does. -/
theorem State.Inv.map_splits {s : State} (h : s.Inv) :
    (∀ c ∈ s.rd.payload.take (s.rd.pos.toNat / 8), c.1 < s.rd.rawOff) ∧
    (∀ c ∈ s.rd.payload.drop (s.rd.pos.toNat / 8), s.rd.rawOff ≤ c.1) := by
  obtain ⟨hrises, hbelow⟩ := h.map_rises
  by_cases hk : s.rd.pos.toNat / 8 < s.rd.payload.length
  · rw [Reader.rawOff_inside (List.getElem?_eq_getElem hk)]
    rw [← List.take_append_drop (s.rd.pos.toNat / 8) s.rd.payload, List.drop_eq_getElem_cons hk,
      List.pairwise_append, List.pairwise_cons] at hrises
    obtain ⟨_, ⟨hafter, _⟩, hbefore⟩ := hrises
    refine ⟨fun c hc => hbefore c hc _ List.mem_cons_self, fun c hc => ?_⟩
    rw [List.drop_eq_getElem_cons hk] at hc
    rcases List.mem_cons.mp hc with rfl | hc
    · exact le_rfl
    · exact (hafter c hc).le
  · rw [Nat.not_lt] at hk
    rw [Reader.rawOff_end hk, List.drop_eq_nil_of_le hk]
    exact ⟨fun c hc => hbelow c (List.mem_of_mem_take hc), by simp⟩

/-- POS div 8 entries of the map lie below RAW_OFF. -/
theorem State.Inv.below_rawOff {s : State} (h : s.Inv) :
    ((s.rd.payload.map Prod.fst).filter (fun o => decide (o < s.rd.rawOff))).length = s.rd.pos.toNat / 8 := by
  obtain ⟨hbefore, hafter⟩ := h.map_splits
  have hpos : s.rd.pos.toNat / 8 ≤ s.rd.payload.length := by
    have := h.pos_inside
    unfold Reader.plen at this
    omega
  have htake : (s.rd.payload.take (s.rd.pos.toNat / 8)).filter (fun c => decide (c.1 < s.rd.rawOff)) =
      s.rd.payload.take (s.rd.pos.toNat / 8) := List.filter_eq_self.mpr fun c hc => by simpa using hbefore c hc
  have hdrop : (s.rd.payload.drop (s.rd.pos.toNat / 8)).filter (fun c => decide (c.1 < s.rd.rawOff)) = [] :=
    List.filter_eq_nil_iff.mpr fun c hc => by simpa using hafter c hc
  rw [List.filter_map, List.length_map]
  conv_lhs => rw [← List.take_append_drop (s.rd.pos.toNat / 8) s.rd.payload]
  rw [List.filter_append]
  simp only [Function.comp_def, htake, hdrop]
  simp [hpos]

/-- Of the numbers below n, those in a list without repetition and those outside it. -/
theorem length_filter_below_add (l : List Nat) (hl : l.Nodup) (n : Nat) :
    (l.filter (fun o => decide (o < n))).length +
      ((List.range n).filter (fun o => decide (o ∉ l))).length = n := by
  have hperm : (l.filter (fun o => decide (o < n))).Perm ((List.range n).filter (fun o => decide (o ∈ l))) := by
    rw [List.perm_ext_iff_of_nodup (hl.filter _) (List.nodup_range.filter _)]
    intro o
    simp [and_comm]
  have hsplit := List.length_eq_length_filter_add (l := List.range n) (fun o => decide (o ∈ l))
  rw [List.length_range] at hsplit
  simpa [hperm.length_eq] using hsplit.symm

/-- RAW_OFF counts the payload bytes before POS and the raw bytes removed among them. -/
theorem State.Inv.rawOff_eq {s : State} (h : s.Inv) :
    s.rd.pos.toNat / 8 + ((List.range s.rd.rawOff).filter (fun o => decide (o ∉ s.rd.payload.map Prod.fst))).length =
      s.rd.rawOff := by
  have hnodup : (s.rd.payload.map Prod.fst).Nodup :=
    List.pairwise_map.mpr (h.map_rises.1.imp fun hlt => ne_of_lt hlt)
  have hcount := length_filter_below_add _ hnodup s.rd.rawOff
  rwa [h.below_rawOff] at hcount

/-- Settles O20: RAW_OFF splits the map, and the raw bytes below it are payload bytes or removed ones. -/
theorem epbCountCountsRemovedBytes : Obligations.EpbCountCountsRemovedBytes := by
  intro s h
  have hcount := h.rawOff_eq
  refine ⟨fun c hc => ?_, fun hend => ?_, ?_, rfl, ?_⟩
  · have hoff := Reader.rawOff_inside hc
    exact ⟨congrArg Word.ofNat hoff, hoff⟩
  · have hoff := Reader.rawOff_end hend.ge
    have hepb : s.rd.epbCount = s.rd.rawLen.toNat - s.rd.plen := by rw [Reader.epbCount, hoff, hend]
    have hle : s.rd.plen ≤ s.rd.rawLen.toNat := by omega
    refine ⟨?_, ?_, hepb⟩
    · rw [State.readReg, hoff, Word.ofNat, BitVec.ofNat_toNat, BitVec.setWidth_eq]
    · rw [State.readReg, hepb, ofNat_toNat_sub _ _ hle]
  · unfold Reader.epbCount
    omega
  · unfold Reader.epbCount
    omega

end Sys2Proof.Machine
end

section
/-! Decoding and encoding (spec/30_encoding.md R80 to R86): a word as its opcode and operand numbers, what each of R83's checks
answers, and that the decoder and the encoder are inverse to each other. -/

namespace Sys2Proof

/-! ## The two fields of a word -/

theorem opcodeField_toNat (w : Word) : (opcodeField w).toNat = w.toNat / 2 ^ 26 := by
  have := w.isLt
  simp only [opcodeField, BitVec.extractLsb'_toNat, Nat.shiftRight_eq_div_pow]
  omega

theorem operandField_toNat (w : Word) : (operandField w).toNat = w.toNat % 2 ^ 26 := by
  simp [operandField, BitVec.extractLsb'_toNat]

@[simp] theorem opcodeField_encode (i : Instr) : opcodeField (encode i) = i.opcode.code :=
  BitVec.extractLsb'_append_eq_left

@[simp] theorem operandField_encode (i : Instr) : operandField (encode i) = i.operandBits :=
  BitVec.extractLsb'_append_eq_right

theorem opcodeField_append_operandField (w : Word) : opcodeField w ++ operandField w = w := by
  apply BitVec.eq_of_toNat_eq
  rw [BitVec.toNat_append, operandField_toNat, opcodeField_toNat, ← Nat.shiftLeft_add_eq_or_of_lt (by omega),
    Nat.shiftLeft_eq]
  omega

/-! ## The named fields as numbers of the operand field (R84) -/

theorem fieldWidth_eq (w : Word) : fieldWidth w = (operandField w).toNat % 2 ^ 6 := by
  rw [operandField_toNat]
  simp only [fieldWidth, BitVec.extractLsb'_toNat, Nat.shiftRight_zero]
  omega

theorem fieldBytes_eq (w : Word) : fieldBytes w = (operandField w).toNat % 2 ^ 3 := by
  rw [operandField_toNat]
  simp only [fieldBytes, BitVec.extractLsb'_toNat, Nat.shiftRight_zero]
  omega

theorem fieldTwo_toNat (w : Word) : (fieldTwo w).toNat = (operandField w).toNat % 2 ^ 2 := by
  rw [operandField_toNat]
  simp only [fieldTwo, BitVec.extractLsb'_toNat, Nat.shiftRight_zero]
  omega

theorem getLsbD_operandField_toNat (w : Word) (k : Nat) (hk : k < 26) :
    (w.getLsbD k).toNat = (operandField w).toNat / 2 ^ k % 2 := by
  rw [← Nat.toNat_testBit, operandField_toNat, Nat.testBit_mod_two_pow]
  simp [hk, BitVec.testBit_toNat]

@[simp] theorem Codec.field_ofField (v : BitVec 2) : (Codec.ofField v).field = v := by
  revert v; decide

theorem AlignMode.field_of_ofField {v : BitVec 2} {mode : AlignMode} (h : AlignMode.ofField v = some mode) :
    mode.field = v := by
  revert mode v; decide

@[simp] theorem UnitSource.bit_ofBit (b : Bool) : (UnitSource.ofBit b).bit = b := by
  cases b <;> rfl

/-! ## A command's operand bits as a number (R85) -/

theorem toNat_zero_append {m n : Nat} (b : BitVec n) : (0#m ++ b).toNat = b.toNat := by
  simp

@[simp] theorem operandBits_config_toNat (codec : Codec) (inmode : Bool) :
    (Instr.config codec inmode).operandBits.toNat = 4 * inmode.toNat + codec.field.toNat := by
  cases codec <;> cases inmode <;> rfl

@[simp] theorem operandBits_loadUnit_toNat (src : UnitSource) (epb : Bool) :
    (Instr.loadUnit src epb).operandBits.toNat = 2 * src.bit.toNat + epb.toNat := by
  cases src <;> cases epb <;> rfl

@[simp] theorem operandBits_u_toNat (n : Nat) : (Instr.u n).operandBits.toNat = n % 2 ^ 6 :=
  toNat_zero_append _

@[simp] theorem operandBits_align_toNat (mode : AlignMode) : (Instr.align mode).operandBits.toNat = mode.field.toNat :=
  toNat_zero_append _

@[simp] theorem operandBits_su_toNat (n : Nat) : (Instr.su n).operandBits.toNat = n % 2 ^ 6 :=
  toNat_zero_append _

@[simp] theorem operandBits_le_toNat (n : Nat) : (Instr.le n).operandBits.toNat = n % 2 ^ 3 :=
  toNat_zero_append _

@[simp] theorem operandBits_segPacket_toNat (eos eop disc : Bool) :
    (Instr.segPacket eos eop disc).operandBits.toNat = 4 * disc.toNat + 2 * eop.toNat + eos.toNat := by
  cases eos <;> cases eop <;> cases disc <;> rfl

/-- A command's encoding sets no reserved bit (R81). -/
theorem operandBits_lt (i : Instr) : i.operandBits.toNat < 2 ^ i.opcode.format.fieldBits := by
  cases i with
  | config codec inmode => cases codec <;> cases inmode <;> decide
  | loadUnit src epb => cases src <;> cases epb <;> decide
  | segPacket eos eop disc => cases eos <;> cases eop <;> cases disc <;> decide
  | align mode => cases mode <;> decide
  | u n => rw [operandBits_u_toNat]; exact Nat.mod_lt _ (by decide)
  | su n => rw [operandBits_su_toNat]; exact Nat.mod_lt _ (by decide)
  | le n => rw [operandBits_le_toNat]; exact Nat.mod_lt _ (by decide)
  | nop | sreset | ue | se | uvlc | aligned | leb128 | ns | subexp | subexpRef | segNext => decide

/-! ## Reading the operands -/

theorem readOperands_opcode {op : Opcode} {w : Word} {i : Instr} (h : readOperands op w = some i) : i.opcode = op := by
  cases op with
  | align =>
    obtain ⟨mode, _, rfl⟩ := Option.map_eq_some_iff.mp h
    rfl
  | _ => cases h; rfl

/-- The operands of a well-formed command fit their fields, so they are read back from its encoding. -/
theorem readOperands_encode {i : Instr} (h : i.wellFormed = true) : readOperands i.opcode (encode i) = some i := by
  cases i with
  | config codec inmode => cases codec <;> cases inmode <;> rfl
  | loadUnit src epb => cases src <;> cases epb <;> rfl
  | segPacket eos eop disc => cases eos <;> cases eop <;> cases disc <;> rfl
  | align mode => cases mode <;> rfl
  | u n =>
    have hn : n ≤ 32 := by simpa [Instr.wellFormed] using h
    have hfield : fieldWidth (encode (.u n)) = n := by
      rw [fieldWidth_eq, operandField_encode, operandBits_u_toNat]; omega
    rw [Instr.opcode, readOperands, hfield]
  | su n =>
    have hn : 1 ≤ n ∧ n ≤ 32 := by simpa [Instr.wellFormed] using h
    have hfield : fieldWidth (encode (.su n)) = n := by
      rw [fieldWidth_eq, operandField_encode, operandBits_su_toNat]; omega
    rw [Instr.opcode, readOperands, hfield]
  | le n =>
    have hn : 1 ≤ n ∧ n ≤ 4 := by simpa [Instr.wellFormed] using h
    have hfield : fieldBytes (encode (.le n)) = n := by
      rw [fieldBytes_eq, operandField_encode, operandBits_le_toNat]; omega
    rw [Instr.opcode, readOperands, hfield]
  | nop | sreset | ue | se | uvlc | aligned | leb128 | ns | subexp | subexpRef | segNext => rfl

/-- With the reserved bits 0, the operands read from a word hold all of its operand field. -/
theorem operandBits_of_readOperands {op : Opcode} {w : Word} {i : Instr}
    (hclear : (operandField w).toNat < 2 ^ op.format.fieldBits) (h : readOperands op w = some i) :
    i.operandBits = operandField w := by
  apply BitVec.eq_of_toNat_eq
  cases op with
  | config =>
    cases h
    have hv : (operandField w).toNat < 2 ^ 3 := hclear
    rw [operandBits_config_toNat, Codec.field_ofField, fieldTwo_toNat, getLsbD_operandField_toNat w 2 (by decide)]
    omega
  | loadUnit =>
    cases h
    have hv : (operandField w).toNat < 2 ^ 2 := hclear
    rw [operandBits_loadUnit_toNat, UnitSource.bit_ofBit, getLsbD_operandField_toNat w 0 (by decide),
      getLsbD_operandField_toNat w 1 (by decide)]
    omega
  | segPacket =>
    cases h
    have hv : (operandField w).toNat < 2 ^ 3 := hclear
    rw [operandBits_segPacket_toNat, getLsbD_operandField_toNat w 0 (by decide),
      getLsbD_operandField_toNat w 1 (by decide), getLsbD_operandField_toNat w 2 (by decide)]
    omega
  | align =>
    obtain ⟨mode, hmode, rfl⟩ := Option.map_eq_some_iff.mp h
    rw [operandBits_align_toNat, AlignMode.field_of_ofField hmode, fieldTwo_toNat]
    exact Nat.mod_eq_of_lt hclear
  | u =>
    cases h
    rw [operandBits_u_toNat, fieldWidth_eq, Nat.mod_mod]
    exact Nat.mod_eq_of_lt hclear
  | su =>
    cases h
    rw [operandBits_su_toNat, fieldWidth_eq, Nat.mod_mod]
    exact Nat.mod_eq_of_lt hclear
  | le =>
    cases h
    rw [operandBits_le_toNat, fieldBytes_eq, Nat.mod_mod]
    exact Nat.mod_eq_of_lt hclear
  | nop | sreset | ue | se | uvlc | aligned | leb128 | ns | subexp | subexpRef | segNext =>
    cases h
    exact (Nat.lt_one_iff.mp hclear).symm

/-! ## The opcode -/

theorem Opcode.mem_all (op : Opcode) : op ∈ Opcode.all := by
  cases op <;> decide

theorem Opcode.code_injective : Function.Injective Opcode.code := by
  have inj : ∀ a ∈ Opcode.all, ∀ b ∈ Opcode.all, a.code = b.code → a = b := by decide
  exact fun a b => inj a a.mem_all b b.mem_all

theorem Opcode.code_of_ofWord {w : Word} {op : Opcode} (h : Opcode.ofWord w = some op) : op.code = opcodeField w := by
  rw [Opcode.ofWord] at h
  exact eq_of_beq (List.find?_some (p := fun o : Opcode => o.code == opcodeField w) h)

theorem Opcode.ofWord_eq_some_iff {w : Word} {op : Opcode} : Opcode.ofWord w = some op ↔ op.code = opcodeField w := by
  refine ⟨Opcode.code_of_ofWord, fun h => ?_⟩
  obtain ⟨op', hop'⟩ := Option.isSome_iff_exists.mp
    (List.find?_isSome (p := fun o => o.code == opcodeField w).mpr ⟨op, op.mem_all, beq_iff_eq.mpr h⟩)
  rwa [Opcode.code_injective ((Opcode.code_of_ofWord hop').trans h.symm)] at hop'

theorem Opcode.ofWord_eq_none {w : Word} (h : ∀ op : Opcode, op.code ≠ opcodeField w) : Opcode.ofWord w = none :=
  List.find?_eq_none.mpr fun op _ => by simpa using h op

@[simp] theorem Instr.isAux_opcode (i : Instr) : i.opcode.isAux = i.isAux := by
  cases i <;> rfl

/-- The auxiliary opcodes leave no gap (R82). -/
theorem Opcode.exists_aux_code {c : BitVec 6} (h : 0x10 ≤ c.toNat ∧ c.toNat ≤ 0x15) :
    ∃ op : Opcode, op.code = c ∧ op.isAux = true := by
  have listed : ∀ c : BitVec 6, 0x10 ≤ c.toNat ∧ c.toNat ≤ 0x15 → ∃ op ∈ Opcode.all, op.code = c ∧ op.isAux = true := by
    decide
  obtain ⟨op, _, hop⟩ := listed c h
  exact ⟨op, hop⟩

/-! ## R83's checks -/

section
variable {hasAux : Bool} {w : Word} {op : Opcode} {i : Instr}

theorem decode_unlistedOpcode (h : ∀ op : Opcode, op.code ≠ opcodeField w) :
    decode hasAux w = .error .unlistedOpcode := by
  simp only [decode, Opcode.ofWord_eq_none h]

theorem decode_auxAbsent (hop : op.code = opcodeField w) (haux : op.isAux = true) : decode false w = .error .auxAbsent := by
  simp [decode, Opcode.ofWord_eq_some_iff.mpr hop, haux]

/-- Check 2 passes for a command that is present. -/
theorem auxAbsent_eq_false (haux : op.isAux = true → hasAux = true) : (op.isAux && !hasAux) = false := by
  simpa using haux

theorem decode_reservedBit (hop : op.code = opcodeField w) (haux : op.isAux = true → hasAux = true)
    (hset : 2 ^ op.format.fieldBits ≤ (operandField w).toNat) : decode hasAux w = .error .reservedBit := by
  simp [decode, Opcode.ofWord_eq_some_iff.mpr hop, auxAbsent_eq_false haux, hset]

theorem decode_operandConstraint (hop : op.code = opcodeField w) (haux : op.isAux = true → hasAux = true)
    (hclear : (operandField w).toNat < 2 ^ op.format.fieldBits)
    (hbad : ∀ i, readOperands op w = some i → i.wellFormed = false) : decode hasAux w = .error .operandConstraint := by
  cases hr : readOperands op w with
  | none => simp [decode, Opcode.ofWord_eq_some_iff.mpr hop, auxAbsent_eq_false haux, hclear.not_ge, hr]
  | some i => simp [decode, Opcode.ofWord_eq_some_iff.mpr hop, auxAbsent_eq_false haux, hclear.not_ge, hr, hbad i hr]

theorem decode_ok (hop : op.code = opcodeField w) (haux : op.isAux = true → hasAux = true)
    (hclear : (operandField w).toNat < 2 ^ op.format.fieldBits) (hread : readOperands op w = some i)
    (hw : i.wellFormed = true) : decode hasAux w = .ok i := by
  simp [decode, Opcode.ofWord_eq_some_iff.mpr hop, auxAbsent_eq_false haux, hclear.not_ge, hread, hw]

/-- The decoder answers a command only when all four checks pass. -/
theorem checks_of_decode_ok (h : decode hasAux w = .ok i) :
    i.opcode.code = opcodeField w ∧ (i.opcode.isAux = true → hasAux = true) ∧
    (operandField w).toNat < 2 ^ i.opcode.format.fieldBits ∧ readOperands i.opcode w = some i ∧ i.wellFormed = true := by
  by_cases hlisted : ∃ op : Opcode, op.code = opcodeField w
  case neg => cases (decode_unlistedOpcode (not_exists.mp hlisted)).symm.trans h
  obtain ⟨op, hop⟩ := hlisted
  by_cases haux : op.isAux = true → hasAux = true
  case neg =>
    obtain ⟨hisAux, habsent⟩ := Classical.not_imp.mp haux
    obtain rfl := Bool.eq_false_of_not_eq_true habsent
    cases (decode_auxAbsent hop hisAux).symm.trans h
  by_cases hclear : (operandField w).toNat < 2 ^ op.format.fieldBits
  case neg => cases (decode_reservedBit hop haux (Nat.le_of_not_lt hclear)).symm.trans h
  by_cases hbad : ∀ j, readOperands op w = some j → j.wellFormed = false
  case pos => cases (decode_operandConstraint hop haux hclear hbad).symm.trans h
  obtain ⟨j, hread, hw⟩ : ∃ j, readOperands op w = some j ∧ j.wellFormed = true := by simpa using hbad
  cases (decode_ok hop haux hclear hread hw).symm.trans h
  obtain rfl := readOperands_opcode hread
  exact ⟨hop, haux, hclear, hread, hw⟩

end

/-! ## The round trips -/

/-- Settles O1: the fields of an encoding are the command's opcode and operand bits, which pass every check. -/
theorem decodeOfEncodeIsInstruction : Obligations.DecodeOfEncodeIsInstruction := by
  intro hasAux i hw haux
  refine decode_ok (opcodeField_encode i).symm (by simpa using haux) ?_ (readOperands_encode hw) hw
  rw [operandField_encode]
  exact operandBits_lt i

/-- Settles O2: with the reserved bits 0, the opcode and the operands read are all 32 bits of the word. -/
theorem encodeOfDecodeIsWord : Obligations.EncodeOfDecodeIsWord := by
  intro hasAux w i h
  obtain ⟨hop, haux, hclear, hread, hw⟩ := checks_of_decode_ok h
  refine ⟨?_, hw, by simpa using haux⟩
  rw [encode, hop, operandBits_of_readOperands hclear hread]
  exact opcodeField_append_operandField w

theorem decodeTableWord_encode {i : Instr} (h : i.wellFormed = true) : decodeTableWord 32 (encode i).toNat = some i := by
  have hword : Word.ofNat ((encode i).toNat % 2 ^ 32) = encode i := by
    rw [Nat.mod_eq_of_lt (encode i).isLt, Word.ofNat, BitVec.ofNat_toNat, BitVec.setWidth_eq]
  rw [decodeTableWord, hword, decodeOfEncodeIsInstruction true i h fun _ => rfl]

/-- Settles O4: each word is the encoding of its command. -/
theorem writtenWordsDecode : Obligations.WrittenWordsDecode :=
  ⟨decodeTableWord_encode (i := .nop) rfl, decodeTableWord_encode (i := .sreset) rfl,
   decodeTableWord_encode (i := .config .av1 true) rfl, decodeTableWord_encode (i := .loadUnit .unit true) rfl,
   decodeTableWord_encode (i := .u 32) rfl, decodeTableWord_encode (i := .se) rfl,
   decodeTableWord_encode (i := .align .rbsp) rfl, decodeTableWord_encode (i := .le 4) rfl,
   decodeTableWord_encode (i := .subexpRef) rfl, decodeTableWord_encode (i := .segPacket false true true) rfl,
   decodeTableWord_encode (i := .segNext) rfl⟩

/-! ## Illegal words (R86) -/

/-- The opcodes outside R82's ranges are no command's. -/
theorem code_ne_of_unlisted {c : BitVec 6}
    (h : (0x04 ≤ c.toNat ∧ c.toNat ≤ 0x07) ∨ c.toNat = 0x0E ∨ c.toNat = 0x0F ∨ (0x16 ≤ c.toNat ∧ c.toNat ≤ 0x1F) ∨
      0x22 ≤ c.toNat) (op : Opcode) : op.code ≠ c := by
  rintro rfl
  revert h
  cases op <;> decide

/-- A word written as the opcode `op` and an operand number `v` within its format. -/
theorem fields_of_toNat {w : Word} {op : Opcode} {v : Nat} (hw : w.toNat = op.code.toNat * 2 ^ 26 + v)
    (hv : v < 2 ^ op.format.fieldBits) : op.code = opcodeField w ∧ (operandField w).toNat = v := by
  have hbits : 2 ^ op.format.fieldBits ≤ 2 ^ 26 := Nat.pow_le_pow_right (by decide) (by cases op <;> decide)
  refine ⟨BitVec.eq_of_toNat_eq ?_, ?_⟩
  · rw [opcodeField_toNat]; omega
  · rw [operandField_toNat]; omega

/-- U takes at most 32 bits (R82). -/
theorem decode_u_tooWide {hasAux : Bool} {w : Word} {n : Nat} (hw : w.toNat = 0x20000000 + n) (h : 33 ≤ n) (hn : n < 2 ^ 6) :
    decode hasAux w = .error .operandConstraint := by
  obtain ⟨hop, hv⟩ := fields_of_toNat (op := .u) hw hn
  refine decode_operandConstraint hop nofun (hv.trans_lt hn) fun i hi => ?_
  cases hi
  have : 32 < fieldWidth w := by rw [fieldWidth_eq, hv]; omega
  simpa [Instr.wellFormed] using this

/-- SU takes 1 to 32 bits (R82). -/
theorem decode_su_outOfRange {w : Word} {n : Nat} (hw : w.toNat = 0x44000000 + n) (h : n = 0 ∨ 33 ≤ n) (hn : n < 2 ^ 6) :
    decode true w = .error .operandConstraint := by
  obtain ⟨hop, hv⟩ := fields_of_toNat (op := .su) hw hn
  refine decode_operandConstraint hop (fun _ => rfl) (hv.trans_lt hn) fun i hi => ?_
  cases hi
  have : 1 ≤ fieldWidth w → 32 < fieldWidth w := by rw [fieldWidth_eq, hv]; omega
  simpa [Instr.wellFormed] using this

/-- LE takes 1 to 4 bytes (R82). -/
theorem decode_le_outOfRange {w : Word} {n : Nat} (hw : w.toNat = 0x48000000 + n) (h : n = 0 ∨ 5 ≤ n) (hn : n < 2 ^ 3) :
    decode true w = .error .operandConstraint := by
  obtain ⟨hop, hv⟩ := fields_of_toNat (op := .le) hw hn
  refine decode_operandConstraint hop (fun _ => rfl) (hv.trans_lt hn) fun i hi => ?_
  cases hi
  have : 1 ≤ fieldBytes w → 4 < fieldBytes w := by rw [fieldBytes_eq, hv]; omega
  simpa [Instr.wellFormed] using this

/-- ALIGN's mode 3 names no mode (R85). -/
theorem decode_align_reservedMode (hasAux : Bool) : decode hasAux 0x30000003 = .error .operandConstraint := by
  obtain ⟨hop, hv⟩ := fields_of_toNat (w := 0x30000003) (op := .align) (v := 3) rfl (by decide)
  exact decode_operandConstraint hop nofun (hv.trans_lt (by decide)) fun i hi => by cases hi

/-- CONFIG has no `inmode` 1 with VP9 (R82). -/
theorem decode_config_vp9_inmode (hasAux : Bool) : decode hasAux 0x08000006 = .error .operandConstraint := by
  obtain ⟨hop, hv⟩ := fields_of_toNat (w := 0x08000006) (op := .config) (v := 6) rfl (by decide)
  exact decode_operandConstraint hop nofun (hv.trans_lt (by decide)) fun i hi => by cases hi; rfl

/-- Issuing a word that does not decode writes CMD and CMD_STATUS only (spec/60_exceptions.md R264). -/
theorem issue_of_decode_error {s : Machine.State} {w : Word} {e : DecodeError} (h : decode s.params.hasAux w = .error e) :
    Machine.issue w s = .next { s with cmd := w, lastOk := false, lastCause := .illegalCmd } := by
  rw [Machine.issue, h]
  rfl

/-- Settles O3: each kind of illegal word fails its own check, the ones before it passed. -/
theorem reservedEncodingsAreRefused : Obligations.ReservedEncodingsAreRefused := by
  intro hasAux w
  refine ⟨fun h => ?unlisted, fun h => ?aux, fun i _ haux hop hset => ?reserved, fun n h hn => ⟨?u, ?su⟩, fun n h hn => ?le,
    decode_su_outOfRange (n := 0) rfl (.inl rfl) (by decide), decode_le_outOfRange (n := 0) rfl (.inl rfl) (by decide),
    decode_align_reservedMode hasAux, decode_config_vp9_inmode hasAux, fun s e he => issue_of_decode_error he⟩
  case unlisted =>
    rw [← opcodeField_toNat] at h
    exact decode_unlistedOpcode (code_ne_of_unlisted h)
  case aux =>
    rw [← opcodeField_toNat] at h
    obtain ⟨op, hop, haux⟩ := Opcode.exists_aux_code h
    exact decode_auxAbsent hop haux
  case reserved =>
    rw [← opcodeField_toNat, ← opcodeField_toNat, opcodeField_encode] at hop
    rw [← operandField_toNat] at hset
    exact decode_reservedBit (BitVec.eq_of_toNat_eq hop.symm) (by simpa using haux) hset
  case u => exact decode_u_tooWide (by rw [BitVec.toNat_ofNat]; omega) h hn
  case su => exact decode_su_outOfRange (by rw [BitVec.toNat_ofNat]; omega) (.inr h) hn
  case le => exact decode_le_outOfRange (by rw [BitVec.toNat_ofNat]; omega) (.inr h) hn

end Sys2Proof
end

section
/-! The control commands and what a read command may depend on (spec/40_control.md R120 to R128): the next state of NOP, SRESET,
CONFIG and LOAD_UNIT, and the fields no read looks at (R125). -/

namespace Sys2Proof.Machine

/-! ## What a read command depends on -/

/-- `s` with the fields no read command looks at taken from `u` (spec/40_control.md R125). -/
def State.withSession (s u : State) : State :=
  { s with cfg := u.cfg, seg := u.seg, pktLen := u.pktLen, pktMem := u.pktMem, unitMem := u.unitMem }

/-- The frame of a read command looks at the reader only. -/
theorem State.readCommand_withSession (s u : State) (body : List Byte → Nat → ReadOutcome Word) :
    (s.withSession u).readCommand body = (s.readCommand body).withSession u := by
  rcases s.readCommand_cases body with ⟨hv, e⟩ | ⟨hv, he, e⟩ | ⟨hv, he, v, q, hb, e⟩ | ⟨hv, he, c, hb, e⟩ <;> rw [e]
  · exact (s.withSession u).readCommand_noUnit body hv
  · exact (s.withSession u).readCommand_aborted body hv he
  · exact (s.withSession u).readCommand_got body hv he v q hb
  · exact (s.withSession u).readCommand_failed body hv he c hb

/-- A read command with an operand check `bad` in front (spec/43_av1_vp9_codes.md R186, R188, R190). -/
theorem State.guardedRead_withSession (s u : State) (bad : Prop) [Decidable bad] (c : Cause)
    (body : List Byte → Nat → ReadOutcome Word) :
    (if bad then (s.withSession u).refuse c else (s.withSession u).readCommand body) =
      (if bad then s.refuse c else s.readCommand body).withSession u := by
  split
  · rfl
  · exact s.readCommand_withSession u body

/-- The operand checks and the bodies of the reads look at ARG0 to ARG2 only. -/
theorem exec_read_withSession (s t u : State) (i : Instr) (hi : isReadCommand i = true) (h : exec i s = .next t) :
    exec i (s.withSession u) = .next (t.withSession u) := by
  cases i with
  | u | ue | se | uvlc | align | aligned | leb128 | su | le =>
    cases h
    exact congrArg Host.Outcome.next (s.readCommand_withSession u _)
  | ns | subexp | subexpRef =>
    cases h
    exact congrArg Host.Outcome.next (s.guardedRead_withSession u _ _ _)
  | nop | sreset | config | loadUnit | segPacket | segNext => cases hi

/-- Settles O23: the replaced fields are the ones no read command looks at. -/
theorem readsDependOnReaderAndArgumentsOnly : Obligations.ReadsDependOnReaderAndArgumentsOnly := by
  intro s t i cfg seg pm um len hi h
  exact exec_read_withSession s t { s with cfg := cfg, seg := seg, pktMem := pm, unitMem := um, pktLen := len } i hi h

/-! ## NOP -/

/-- NOP names no operand bit, so every other word of its opcode has a reserved bit set (spec/30_encoding.md R83 check 3). -/
theorem decode_nop_reservedBit (hasAux : Bool) {w : Word} (h0 : w ≠ 0) (h : w.toNat < 2 ^ 26) :
    decode hasAux w = .error .reservedBit := by
  have hpos : w.toNat ≠ 0 := fun hz => h0 (BitVec.eq_of_toNat_eq hz)
  refine decode_reservedBit (op := .nop) (BitVec.eq_of_toNat_eq ?opcode) nofun ?set
  case opcode =>
    rw [opcodeField_toNat, Nat.div_eq_of_lt h]
    rfl
  case set =>
    rw [operandField_toNat, Nat.mod_eq_of_lt h]
    exact Nat.pos_of_ne_zero hpos

/-- Settles O14: NOP does nothing but succeed. -/
theorem nopWritesStatusOnly : Obligations.NopWritesStatusOnly := by
  refine ⟨by decide, fun s => ?_, fun hasAux w h0 h => decode_nop_reservedBit hasAux h0 h⟩
  exact ⟨s.succeed, rfl, rfl, s.succeed.cmdStatus_eq⟩

/-! ## SRESET -/

/-- Reset leaves LAST_OK = 1 and LAST_CAUSE = OK, so SRESET's success writes nothing new. -/
theorem exec_sreset (s : State) : exec .sreset s = .next s.softReset := rfl

/-- SRESET gives every register but CMD its reset value (spec/40_control.md R122). -/
theorem State.readReg_softReset (s : State) (r : Reg) (h : r ≠ .cmd) : s.softReset.readReg r = State.reset.readReg r := by
  cases r with
  | cmd => exact absurd rfl h
  | _ => rfl

/-- The host sees the memories' windows through both memories and the parameters alone. -/
theorem State.busByte_eq_of_memories (s t : State) (hpkt : t.pktMem = s.pktMem) (hunit : t.unitMem = s.unitMem)
    (hp : t.params = s.params) (a : Nat) : t.busByte a = s.busByte a := by
  simp only [State.busByte, hp, State.pktByte_congr s t hpkt hp, State.unitByte_congr s t hunit hp]

/-- Settles O15: the next state is the soft reset's, which keeps the memories and the parameters. -/
theorem sresetRestoresResetValues : Obligations.SresetRestoresResetValues := by
  refine ⟨by decide, fun s => ⟨s.softReset, exec_sreset s, s.readReg_softReset, s.softReset_cmd, rfl, ?_,
    s.softReset_params, s.softReset_pending, s.softReset_busData⟩⟩
  exact s.busByte_eq_of_memories s.softReset s.softReset_pktMem s.softReset_unitMem s.softReset_params

/-! ## CONFIG -/

theorem State.unbindUnit_rd_pkt (s : State) (h : s.rd.src = .pkt) : s.unbindUnit.rd = s.rd := by
  rw [State.unbindUnit_rd_eq, if_neg (by rw [h]; decide)]

theorem State.unbindUnit_rd_unit (s : State) (h : s.rd.src = .unit) :
    s.unbindUnit.rd = { s.rd with unitValid := false, payload := [], pos := 0, rawLen := 0 } := by
  rw [State.unbindUnit_rd_eq, if_pos h]

/-- Settles O16: beside CONFIG and the segmenter only the reader changes, which is unbound from UNIT_MEM. -/
theorem configOpensSession : Obligations.ConfigOpensSession := by
  intro s codec inmode
  refine ⟨s.unbindUnit.rd, ?_, s.unbindUnit_rd_pkt, s.unbindUnit_rd_unit⟩
  change Host.Outcome.next (s.configure codec inmode) = _
  rw [State.configure_eq, State.unbindUnit_eq]
  rfl

/-! ## LOAD_UNIT -/

theorem exec_loadUnit_held (s : State) (epb : Bool) (h : s.seg.held = true) :
    exec (.loadUnit .unit epb) s = .next (s.bind .unit 0 s.seg.unitLen epb) := by
  change execLoadUnit .unit epb s = _
  simp [execLoadUnit, h]

theorem exec_loadUnit_noUnit (s : State) (epb : Bool) (h : s.seg.held = false) :
    exec (.loadUnit .unit epb) s = .next (s.refuse .noUnit) := by
  change execLoadUnit .unit epb s = _
  simp [execLoadUnit, h]

theorem exec_loadUnit_range (s : State) (epb : Bool) (h : s.arg0.toNat + s.arg1.toNat ≤ s.params.pktMax) :
    exec (.loadUnit .pkt epb) s = .next (s.bind .pkt s.arg0 s.arg1 epb) := by
  change execLoadUnit .pkt epb s = _
  simp [execLoadUnit, unsigned, h.not_gt]

theorem exec_loadUnit_badArg (s : State) (epb : Bool) (h : s.params.pktMax < s.arg0.toNat + s.arg1.toNat) :
    exec (.loadUnit .pkt epb) s = .next (s.refuse .badArg) := by
  change execLoadUnit .pkt epb s = _
  simp [execLoadUnit, unsigned, h]

/-- Settles O17: with its check passed LOAD_UNIT is `bind`, else a refusal. -/
theorem loadUnitBindsPayload : Obligations.LoadUnitBindsPayload :=
  fun s epb => ⟨fun h => ⟨_, exec_loadUnit_held s epb h, rfl⟩, exec_loadUnit_noUnit s epb,
    fun h => ⟨_, exec_loadUnit_range s epb h, rfl⟩, exec_loadUnit_badArg s epb⟩

end Sys2Proof.Machine
end

section
/-! The common rules of the read commands (spec/41_fixed_width.md R140, R141), and U, ALIGN and ALIGNED by the bits they read
(R142 to R149). -/

namespace Sys2Proof.Machine

/-! ## Refusal, commit or failure -/

@[simp] theorem Reader.bytes_length (r : Reader) : r.bytes.length = r.plen := by simp [Reader.bytes, Reader.plen]

theorem Reader.getElem?_bytes (r : Reader) (i : Nat) : r.bytes[i]? = r.payload[i]?.map Prod.snd := by simp [Reader.bytes]

/-- A readable unit's body that does not fail is committed (R141). -/
theorem State.readCommand_done {s : State} (h : s.readable) {body : List Byte → Nat → ReadOutcome Word} {v : Word} {q : Nat}
    (hb : body s.rd.bytes s.rd.pos.toNat = .got v q) : s.readCommand body = s.readDone v q :=
  s.readCommand_got body h.1 h.2 v q hb

/-- A readable unit's body that fails is recorded (R141; spec/60_exceptions.md R266). -/
theorem State.readCommand_readFailed {s : State} (h : s.readable) {body : List Byte → Nat → ReadOutcome Word} {c : Cause}
    (hb : body s.rd.bytes s.rd.pos.toNat = .failed c) : s.readCommand body = s.readFailed c :=
  s.readCommand_failed body h.1 h.2 c hb

/-- Settles O21: the operand check stands in front of the frame, whose first two checks these are. -/
theorem readRefusals : Obligations.ReadRefusals := by
  intro s i hi
  obtain ⟨body, _, accepted, refused⟩ := exec_read s i hi
  refine ⟨refused, fun ha hv => ?_, fun ha hv he => ?_⟩
  · rw [accepted ha, s.readCommand_noUnit body hv]
    rfl
  · rw [accepted ha, s.readCommand_aborted body hv he]
    rfl

/-- The three ways a read command ends; a committed cursor lies between POS and the payload's end. -/
theorem exec_read_cases {s t : State} {i : Instr} (hi : isReadCommand i = true) (h : exec i s = .next t) :
    (∃ c, t = s.refusedWith c) ∨
    (∃ v q, t = s.readDone v q ∧ (s.rd.pos.toNat ≤ 8 * s.rd.plen → s.rd.pos.toNat ≤ q ∧ q ≤ 8 * s.rd.plen)) ∨
    (s.readable ∧ ∃ c, t = s.readFailed c) := by
  obtain ⟨body, sound, accepted, refused⟩ := exec_read s i hi
  cases ha : s.argsAccepted i
  · cases (refused ha).symm.trans h
    exact .inl ⟨.badArg, rfl⟩
  · cases (accepted ha).symm.trans h
    rcases s.readCommand_cases body with ⟨_, e⟩ | ⟨_, _, e⟩ | ⟨_, _, v, q, hb, e⟩ | ⟨hv, he, c, _, e⟩
    · exact .inl ⟨.noUnit, e⟩
    · exact .inl ⟨.aborted, e⟩
    · refine .inr (.inl ⟨v, q, e, fun hpos => ?_⟩)
      have hq := sound s.rd.bytes s.rd.pos.toNat (by rwa [Reader.bytes_length])
      rwa [hb, Reader.bytes_length] at hq
    · exact .inr (.inr ⟨⟨hv, he⟩, c, e⟩)

/-- Each payload byte has a raw offset of its own (spec/20_memory.md R62). -/
theorem State.Inv.plen_le_rawLen {s : State} (h : s.Inv) : s.rd.plen ≤ s.rd.rawLen.toNat := by
  obtain ⟨hrises, hbelow⟩ := h.map_rises
  have hnodup : (s.rd.payload.map Prod.fst).Nodup := List.pairwise_map.mpr (hrises.imp fun hlt => ne_of_lt hlt)
  have hsub : s.rd.payload.map Prod.fst ⊆ List.range s.rd.rawLen.toNat := fun o ho => by
    obtain ⟨c, hc, rfl⟩ := List.mem_map.mp ho
    exact List.mem_range.mpr (hbelow c hc)
  simpa [Reader.plen] using (hnodup.subperm hsub).length_le

/-- The raw bytes lie inside a memory of at most 2^24 bytes (spec/00_scope.md R9). -/
theorem State.Inv.rawLen_le {s : State} (h : s.Inv) : s.rd.rawLen.toNat ≤ 2 ^ 24 := by
  have hwf := h.params_wf
  obtain ⟨hunit, hpkt⟩ := h.raw_inside
  simp only [Params.wf, Bool.and_eq_true, decide_eq_true_eq] at hwf
  cases hs : s.rd.src with
  | unit => have := hunit hs; omega
  | pkt => have := hpkt hs; omega

/-- Every cursor inside the payload fits POS (spec/10_state.md R27). -/
theorem State.Inv.toNat_cursor {s : State} (h : s.Inv) {q : Nat} (hq : q ≤ 8 * s.rd.plen) : (Word.ofNat q).toNat = q := by
  have hplen := h.plen_le_rawLen
  have hraw := h.rawLen_le
  rw [Word.ofNat, BitVec.toNat_ofNat, Nat.mod_eq_of_lt (by omega)]

/-- Settles O22: only a commit has LAST_OK = 1, and with the invariant its cursor fits POS. -/
theorem readsAreAllOrNothing : Obligations.ReadsAreAllOrNothing := by
  intro s t i hi h
  rcases exec_read_cases hi h with ⟨c, rfl⟩ | ⟨v, q, rfl, hbounds⟩ | ⟨hread, c, rfl⟩
  · exact ⟨Bool.noConfusion, fun _ => .inl rfl⟩
  · refine ⟨fun _ => ⟨q, rfl, fun hinv => ?_⟩, Bool.noConfusion⟩
    obtain ⟨hlow, hhigh⟩ := hbounds hinv.pos_inside
    exact ⟨hlow, hhigh, hinv.toNat_cursor hhigh⟩
  · exact ⟨Bool.noConfusion, fun _ => .inr ⟨hread.1, hread.2, rfl⟩⟩

/-! ## Take -/

/-- A run of bits as the sum of its bits' weights, the first bit's weight the greatest (R142). -/
theorem bitsAt_eq_sum (P : List Byte) (q n : Nat) :
    bitsAt P q n = ((List.range n).map fun i => (bitAt P (q + i)).toNat * 2 ^ (n - 1 - i)).sum := by
  induction n generalizing q with
  | zero => rfl
  | succ n ih =>
    have hweight : ∀ i, n + 1 - 1 - (i + 1) = n - 1 - i := fun i => by omega
    rw [Nat.add_comm n 1, bitsAt_add, bitsAt_one, ih (q + 1), Nat.add_comm 1 n, List.range_succ_eq_map]
    simp only [List.map_cons, List.map_map, List.sum_cons, Function.comp_def, Nat.succ_eq_add_one, hweight]
    simp only [Nat.add_zero, Nat.sub_zero, Nat.add_sub_cancel, Nat.add_assoc, Nat.add_comm 1]

theorem bitAt_inside {P : List Byte} {p : Nat} (h : p / 8 < P.length) : bitAt P p = P[p / 8].getLsbD (7 - p % 8) := by
  rw [bitAt, List.getD_eq_getElem P 0 h]

/-- Settles O24: the run of bits Take yields, written as the sum of its bits' weights. -/
theorem takeYieldsNextBits : Obligations.TakeYieldsNextBits := by
  intro P n q
  refine ⟨fun p h => bitAt_inside h, fun h => ?_, take_overruns P n q⟩
  rw [take_fits P n q h, bitsAt_eq_sum]
  rfl

/-! ## U -/

/-- The eight bits from a byte boundary on are the byte there (spec/00_scope.md R13). -/
theorem bitsAt_byte {P : List Byte} {q : Nat} {b : Byte} (hq : q % 8 = 0) (hb : P[q / 8]? = some b) :
    bitsAt P q 8 = b.toNat := by
  apply Nat.eq_of_testBit_eq
  intro j
  by_cases hj : j < 8
  · have hbit := testBit_bitsAt P q 8 (7 - j) (by omega)
    rw [show 8 - 1 - (7 - j) = j by omega] at hbit
    rw [hbit, bitAt, show (q + (7 - j)) / 8 = q / 8 by omega, show 7 - (q + (7 - j)) % 8 = j by omega,
      List.getD_eq_getElem?_getD, hb]
    rfl
  · have hpow : 2 ^ 8 ≤ 2 ^ j := Nat.pow_le_pow_right (by omega) (by omega)
    rw [Nat.testBit_lt_two_pow (lt_of_lt_of_le (bitsAt_lt P q 8) hpow),
      Nat.testBit_lt_two_pow (lt_of_lt_of_le b.isLt hpow)]

/-- A run of at most 32 bits fits a register. -/
theorem toNat_ofNat_bitsAt (P : List Byte) (q : Nat) {n : Nat} (hn : n ≤ 32) :
    (Word.ofNat (bitsAt P q n)).toNat = bitsAt P q n := by
  rw [Word.ofNat, BitVec.toNat_ofNat, Nat.mod_eq_of_lt]
  exact lt_of_lt_of_le (bitsAt_lt P q n) (Nat.pow_le_pow_right (by omega) hn)

theorem exec_u_fits {s : State} (h : s.readable) {n : Nat} (hn : s.rd.pos.toNat + n ≤ 8 * s.rd.plen) :
    exec (.u n) s = .next (s.readDone (Word.ofNat (bitsAt s.rd.bytes s.rd.pos.toNat n)) (s.rd.pos.toNat + n)) := by
  refine congrArg Host.Outcome.next (s.readCommand_done h ?_)
  rw [take_fits _ _ _ (by rwa [Reader.bytes_length])]
  rfl

theorem exec_u_overruns {s : State} (h : s.readable) {n : Nat} (hn : 8 * s.rd.plen < s.rd.pos.toNat + n) :
    exec (.u n) s = .next (s.readFailed .overrun) := by
  refine congrArg Host.Outcome.next (s.readCommand_readFailed h ?_)
  rw [take_overruns _ _ _ (by rwa [Reader.bytes_length])]
  rfl

/-- Settles O25: U's value is the run of bits at POS, which at a byte boundary is a payload byte. -/
theorem uReadsNextBits : Obligations.UReadsNextBits := by
  intro s n hread hn
  refine ⟨fun hfits => ⟨_, exec_u_fits hread hfits, fun i hi => ?_, ?_⟩, exec_u_overruns hread, fun hq c hc => ?_⟩
  · rw [← BitVec.testBit_toNat, toNat_ofNat_bitsAt _ _ hn, testBit_bitsAt _ _ _ _ hi]
    rfl
  · rw [toNat_ofNat_bitsAt _ _ hn]
    exact bitsAt_lt _ _ _
  · have hinside : s.rd.pos.toNat / 8 < s.rd.plen := (List.getElem?_eq_some_iff.mp hc).1
    have hbyte : s.rd.bytes[s.rd.pos.toNat / 8]? = some c.2 := by rw [Reader.getElem?_bytes, hc]; rfl
    rw [exec_u_fits hread (by omega), bitsAt_byte hq hbyte, Word.ofNat, BitVec.ofNat_toNat]

/-! ## ALIGN -/

/-- Take up to the next byte boundary never overruns: the payload ends at one (R146). -/
theorem take_toBoundary (P : List Byte) {q k : Nat} (hq : q ≤ 8 * P.length) (hk : k < 8) (hb : (q + k) % 8 = 0) :
    take P ((8 - q % 8) % 8) q = .got (bitsAt P q k) (q + k) := by
  rw [show (8 - q % 8) % 8 = k by omega, take_fits P k q (by omega)]

/-- ALIGN without a stop bit. -/
theorem readAlign_noStop (P : List Byte) {mode : AlignMode} (hm : mode ≠ .rbsp) {q k : Nat} (hq : q ≤ 8 * P.length) (hk : k < 8)
    (hb : (q + k) % 8 = 0) :
    readAlign P mode q = if mode ≠ .skip ∧ bitsAt P q k ≠ 0 then .failed .trailingBits else .got k (q + k) := by
  rw [readAlign, if_neg hm, ReadOutcome.andThen_got, if_neg (by simp), take_toBoundary P hq hk hb, ReadOutcome.andThen_got,
    Nat.add_sub_cancel_left]

theorem readAlign_rbsp_end (P : List Byte) {q : Nat} (hq : q = 8 * P.length) :
    readAlign P .rbsp q = .failed .overrun := by
  rw [readAlign, if_pos rfl, take_overruns P 1 q (by omega)]
  rfl

theorem readAlign_rbsp_noStopBit (P : List Byte) {q : Nat} (hq : q < 8 * P.length) (hstop : bitAt P q = false) :
    readAlign P .rbsp q = .failed .trailingBits := by
  rw [readAlign, if_pos rfl, take_fits P 1 q hq, bitsAt_one, hstop]
  rfl

/-- ALIGN rbsp behind its stop bit, with `k` bits left up to the boundary. -/
theorem readAlign_rbsp_stopBit (P : List Byte) {q k : Nat} (hq : q < 8 * P.length) (hstop : bitAt P q = true) (hk : k < 8)
    (hb : (q + 1 + k) % 8 = 0) :
    readAlign P .rbsp q = if bitsAt P (q + 1) k ≠ 0 then .failed .trailingBits else .got (k + 1) (q + 1 + k) := by
  rw [readAlign, if_pos rfl, take_fits P 1 q hq, bitsAt_one, hstop, ReadOutcome.andThen_got, if_neg (by simp),
    take_toBoundary P hq hk hb, ReadOutcome.andThen_got]
  simp only [ne_eq, reduceCtorEq, not_false_eq_true, true_and, show q + 1 + k - q = k + 1 by omega]

theorem exec_align_got {s : State} (h : s.readable) {mode : AlignMode} {v q : Nat}
    (hr : readAlign s.rd.bytes mode s.rd.pos.toNat = .got v q) :
    exec (.align mode) s = .next (s.readDone (Word.ofNat v) q) := by
  refine congrArg Host.Outcome.next (s.readCommand_done h ?_)
  rw [hr]
  rfl

theorem exec_align_failed {s : State} (h : s.readable) {mode : AlignMode} {c : Cause}
    (hr : readAlign s.rd.bytes mode s.rd.pos.toNat = .failed c) : exec (.align mode) s = .next (s.readFailed c) := by
  refine congrArg Host.Outcome.next (s.readCommand_readFailed h ?_)
  rw [hr]
  rfl

/-- A run of bits with a 1 in it is not worth 0. -/
theorem bitsAt_ne_zero {P : List Byte} {q n i : Nat} (hi : i < n) (hone : bitAt P (q + i) = true) : bitsAt P q n ≠ 0 :=
  fun hz => by simp [(bitsAt_eq_zero_iff P q n).mp hz i hi] at hone

/-- Settles O26: the run up to the boundary is worth 0 exactly when its bits are all 0. -/
theorem alignReachesByteBoundary : Obligations.AlignReachesByteBoundary := by
  intro s k hread hpos hk hb
  have hq : s.rd.pos.toNat ≤ 8 * s.rd.bytes.length := by rwa [Reader.bytes_length]
  have outcome {mode : AlignMode} (hm : mode ≠ .rbsp) := readAlign_noStop s.rd.bytes hm hq hk hb
  refine ⟨exec_align_got hread ?skip, fun hzero => exec_align_got hread ?zero, fun ⟨i, hi, hone⟩ =>
    exec_align_failed hread ?one⟩
  case skip => rw [outcome (by decide), if_neg (by simp)]
  case zero =>
    have hz : bitsAt s.rd.bytes s.rd.pos.toNat k = 0 := (bitsAt_eq_zero_iff _ _ _).mpr hzero
    rw [outcome (by decide), if_neg (fun h => h.2 hz)]
  case one => rw [outcome (by decide), if_pos ⟨by decide, bitsAt_ne_zero hi hone⟩]

/-- Settles O27: the stop bit first, then the run behind it as in ALIGN zero. -/
theorem alignRbspChecksTrailingBits : Obligations.AlignRbspChecksTrailingBits := by
  intro s k hread _ hk1 hk8 hb
  obtain ⟨k, rfl⟩ : ∃ j, k = j + 1 := ⟨k - 1, by omega⟩
  have hlen := s.rd.bytes_length
  have behindStop (hlt : s.rd.pos.toNat < 8 * s.rd.plen) (hstop : bitAt s.rd.bytes s.rd.pos.toNat = true) :=
    readAlign_rbsp_stopBit s.rd.bytes (k := k) (by rwa [hlen]) hstop (by omega) (by omega)
  refine ⟨fun hend => exec_align_failed hread ?atEnd, fun hlt hstop hzero => exec_align_got hread ?trailing,
    fun hlt hbad => exec_align_failed hread ?bad⟩
  case atEnd => exact readAlign_rbsp_end _ (by rwa [hlen])
  case trailing =>
    have hz : bitsAt s.rd.bytes (s.rd.pos.toNat + 1) k = 0 :=
      (bitsAt_eq_zero_iff _ _ _).mpr fun i hi => by
        rw [Nat.add_assoc, Nat.add_comm 1]
        exact hzero (i + 1) (by omega) (by omega)
    rw [behindStop hlt hstop, if_neg (not_not.mpr hz), Nat.add_assoc, Nat.add_comm 1]
  case bad =>
    cases hstop : bitAt s.rd.bytes s.rd.pos.toNat with
    | false => exact readAlign_rbsp_noStopBit _ (by rwa [hlen]) hstop
    | true =>
      obtain ⟨i, hi1, hik, hone⟩ := hbad.resolve_left (by simp [hstop])
      obtain ⟨i, rfl⟩ : ∃ j, i = 1 + j := ⟨i - 1, by omega⟩
      rw [← Nat.add_assoc] at hone
      rw [behindStop hlt hstop, if_pos (bitsAt_ne_zero (by omega) hone)]

/-! ## ALIGNED -/

/-- Settles O28: ALIGNED commits POS itself. -/
theorem alignedTestsPosition : Obligations.AlignedTestsPosition := by
  intro s hread
  have hcursor : Word.ofNat s.rd.pos.toNat = s.rd.pos := by rw [Word.ofNat, BitVec.ofNat_toNat, BitVec.setWidth_eq]
  have hdone := s.readCommand_done hread (body := fun _ q => .got (if q % 8 = 0 then 1 else 0) q) rfl
  rw [State.readDone, hcursor] at hdone
  exact congrArg Host.Outcome.next hdone

end Sys2Proof.Machine
end

section
/-! UE, SE and UVLC (spec/42_exp_golomb.md R160 to R170): how the shared run of leading zeros ends, UE's and UVLC's value by the
length of that run, and the codes they invert (spec/30_encoding.md R101, R102). -/

namespace Sys2Proof.Machine

/-! ## The leading zeros -/

/-- A payload that ends inside the leading zeros, before the limit is met (R160). -/
theorem zeroPrefix_end (P : List Byte) (c : Cause) {k limit q : Nat} (hk : k < limit) (hend : q + k = 8 * P.length)
    (hzeros : bitsAre P q (List.replicate k false)) : zeroPrefix P c limit 0 q = .failed .overrun := by
  obtain ⟨r, rfl⟩ : ∃ r, limit = k + (r + 1) := ⟨limit - k - 1, by omega⟩
  rw [zeroPrefix_zeros P c k (r + 1) 0 q hzeros, zeroPrefix, take_overruns P 1 _ (by omega), ReadOutcome.andThen_failed]

/-- The limit ends the run before the bit behind its zeros is looked at (R162). -/
theorem zeroPrefix_limit (P : List Byte) (c : Cause) {limit q : Nat} (hzeros : bitsAre P q (List.replicate limit false)) :
    zeroPrefix P c limit 0 q = .failed c := by
  have hprefix := zeroPrefix_zeros P c limit 0 0 q hzeros
  rwa [zeroPrefix] at hprefix

/-! ## UE and UVLC by the number of leading zeros -/

/-- UE behind at most 31 zeros and a 1 (R161). -/
theorem readUe_prefix (P : List Byte) {k q : Nat} (hk : k ≤ 31) (hprefix : bitsAre P q (List.replicate k false ++ [true])) :
    readUe P q = (take P k (q + (k + 1))).andThen fun suffix q' => .got (2 ^ k - 1 + suffix) q' := by
  rw [readUe, zeroPrefix_codeword P _ k _ q (Nat.lt_succ_of_le hk) hprefix, ReadOutcome.andThen_got]

/-- UVLC behind any number of zeros and a 1: its own limit lies past the payload's end (R167). -/
theorem readUvlc_prefix (P : List Byte) {k q : Nat} (hprefix : bitsAre P q (List.replicate k false ++ [true])) :
    readUvlc P q =
      if 32 ≤ k then .got (2 ^ 32 - 1) (q + (k + 1))
      else (take P k (q + (k + 1))).andThen fun suffix q' => .got (2 ^ k - 1 + suffix) q' := by
  have hinside := bitsAre_length_le P q _ hprefix
  rw [List.length_append, List.length_replicate, List.length_singleton] at hinside
  rw [readUvlc, zeroPrefix_codeword P _ k _ q (by omega) hprefix, ReadOutcome.andThen_got]

/-- UE and UVLC part only at 32 or more zeros (R168). -/
theorem readUvlc_eq_readUe (P : List Byte) {k q : Nat} (hk : k ≤ 31)
    (hprefix : bitsAre P q (List.replicate k false ++ [true])) : readUvlc P q = readUe P q := by
  rw [readUvlc_prefix P hprefix, if_neg (by omega), readUe_prefix P hk hprefix]

theorem readUe_overflows (P : List Byte) {q : Nat} (hzeros : bitsAre P q (List.replicate 32 false)) :
    readUe P q = .failed .egOverflow := by
  rw [readUe, show Config.egMaxLz + 1 = 32 from rfl, zeroPrefix_limit P _ hzeros, ReadOutcome.andThen_failed]

theorem readUe_prefixOverruns (P : List Byte) {k q : Nat} (hk : k ≤ 31) (hend : q + k = 8 * P.length)
    (hzeros : bitsAre P q (List.replicate k false)) : readUe P q = .failed .overrun := by
  rw [readUe, zeroPrefix_end P _ (Nat.lt_succ_of_le hk) hend hzeros, ReadOutcome.andThen_failed]

theorem readUvlc_prefixOverruns (P : List Byte) {k q : Nat} (hend : q + k = 8 * P.length)
    (hzeros : bitsAre P q (List.replicate k false)) : readUvlc P q = .failed .overrun := by
  rw [readUvlc, zeroPrefix_end P _ (by omega) hend hzeros, ReadOutcome.andThen_failed]

theorem readUe_suffixOverruns (P : List Byte) {k q : Nat} (hk : k ≤ 31)
    (hprefix : bitsAre P q (List.replicate k false ++ [true])) (hshort : 8 * P.length < q + (2 * k + 1)) :
    readUe P q = .failed .overrun := by
  rw [readUe_prefix P hk hprefix, take_overruns P k _ (by omega), ReadOutcome.andThen_failed]

/-! ## Codewords -/

/-- A codeword is its zeros, its 1 and its suffix (spec/30_encoding.md R101). -/
theorem bitsAre_ueCodeword (P : List Byte) (q v : Nat) :
    bitsAre P q (ueCodeword v) ↔
      bitsAre P q (List.replicate (Nat.log2 (v + 1)) false ++ [true]) ∧
        bitsAre P (q + (Nat.log2 (v + 1) + 1)) (natBits (Nat.log2 (v + 1)) (v + 1 - 2 ^ Nat.log2 (v + 1))) := by
  rw [ueCodeword, List.append_cons, bitsAre_append, List.length_append, List.length_replicate, List.length_singleton]

theorem log2_succ_le {v : Nat} (hv : v ≤ 2 ^ 32 - 2) : Nat.log2 (v + 1) ≤ 31 :=
  Nat.le_of_lt_succ ((Nat.log2_lt (Nat.succ_ne_zero v)).mpr (by omega))

/-- UE inverts the code of R101 (R169). -/
theorem readUe_codeword (P : List Byte) {q v : Nat} (hv : v ≤ 2 ^ 32 - 2) (hcode : bitsAre P q (ueCodeword v)) :
    readUe P q = .got v (q + (2 * Nat.log2 (v + 1) + 1)) := by
  obtain ⟨hprefix, hsuffix⟩ := (bitsAre_ueCodeword P q v).mp hcode
  have hlow : 2 ^ Nat.log2 (v + 1) ≤ v + 1 := Nat.log2_self_le (Nat.succ_ne_zero v)
  have hhigh : v + 1 < 2 ^ (Nat.log2 (v + 1) + 1) := Nat.lt_log2_self
  rw [readUe_prefix P (log2_succ_le hv) hprefix, take_natBits _ _ _ _ hsuffix, ReadOutcome.andThen_got,
    Nat.mod_eq_of_lt (by rw [pow_succ] at hhigh; omega)]
  have hpos : 0 < 2 ^ Nat.log2 (v + 1) := Nat.two_pow_pos _
  congr 1 <;> omega

theorem readUvlc_codeword (P : List Byte) {q v : Nat} (hv : v ≤ 2 ^ 32 - 2) (hcode : bitsAre P q (ueCodeword v)) :
    readUvlc P q = .got v (q + (2 * Nat.log2 (v + 1) + 1)) := by
  rw [readUvlc_eq_readUe P (log2_succ_le hv) ((bitsAre_ueCodeword P q v).mp hcode).1, readUe_codeword P hv hcode]

/-- SE's zig-zag inverts the code numbers of R102. -/
theorem zigZag_seCodeNum (x : Int) : zigZag (seCodeNum x) = x := by
  unfold zigZag seCodeNum
  by_cases hx : x > 0
  · rw [if_pos hx, if_pos (by omega)]
    omega
  · rw [if_neg hx, if_neg (by omega)]
    omega

/-- The signed range of SE is the code numbers' range (R165). -/
theorem seCodeNum_le {x : Int} (hlow : -(2 ^ 31 - 1) ≤ x) (hhigh : x ≤ 2 ^ 31 - 1) : seCodeNum x ≤ 2 ^ 32 - 2 := by
  unfold seCodeNum
  split <;> omega

/-! ## The three commands -/

theorem exec_ue_got {s : State} (h : s.readable) {v q : Nat} (hr : readUe s.rd.bytes s.rd.pos.toNat = .got v q) :
    exec .ue s = .next (s.readDone (Word.ofNat v) q) := by
  refine congrArg Host.Outcome.next (s.readCommand_done h ?_)
  rw [hr]
  rfl

theorem exec_se_got {s : State} (h : s.readable) {k q : Nat} (hr : readUe s.rd.bytes s.rd.pos.toNat = .got k q) :
    exec .se s = .next (s.readDone (Word.ofInt (zigZag k)) q) := by
  refine congrArg Host.Outcome.next (s.readCommand_done h ?_)
  rw [hr]
  rfl

theorem exec_uvlc_got {s : State} (h : s.readable) {v q : Nat} (hr : readUvlc s.rd.bytes s.rd.pos.toNat = .got v q) :
    exec .uvlc s = .next (s.readDone (Word.ofNat v) q) := by
  refine congrArg Host.Outcome.next (s.readCommand_done h ?_)
  rw [hr]
  rfl

/-- SE has UE's failures (R164). -/
theorem exec_ue_se_failed {s : State} (h : s.readable) {c : Cause} (hr : readUe s.rd.bytes s.rd.pos.toNat = .failed c) :
    exec .ue s = .next (s.readFailed c) ∧ exec .se s = .next (s.readFailed c) := by
  constructor <;>
  · refine congrArg Host.Outcome.next (s.readCommand_readFailed h ?_)
    rw [hr]
    rfl

theorem exec_uvlc_failed {s : State} (h : s.readable) {c : Cause} (hr : readUvlc s.rd.bytes s.rd.pos.toNat = .failed c) :
    exec .uvlc s = .next (s.readFailed c) := by
  refine congrArg Host.Outcome.next (s.readCommand_readFailed h ?_)
  rw [hr]
  rfl

/-- Settles O29: UE inverts the codewords, and SE's zig-zag the code numbers. -/
theorem expGolombRoundTrip : Obligations.ExpGolombRoundTrip := by
  refine ⟨fun s v hread hv hcode => exec_ue_got hread (readUe_codeword _ hv hcode), fun s x hread hlow hhigh hcode => ?_⟩
  have hse := exec_se_got hread (readUe_codeword _ (seCodeNum_le hlow hhigh) hcode)
  rwa [zigZag_seCodeNum] at hse

/-- Settles O30: UVLC reads as UE up to 31 zeros, and from 32 on needs no suffix. -/
theorem uvlcRoundTripAndSaturation : Obligations.UvlcRoundTripAndSaturation := by
  intro s hread
  refine ⟨fun v hv hcode => ⟨exec_ue_got hread (readUe_codeword _ hv hcode), exec_uvlc_got hread (readUvlc_codeword _ hv hcode)⟩,
    fun L hL hprefix => exec_uvlc_got (v := 2 ^ 32 - 1) hread ?_⟩
  rw [readUvlc_prefix _ hprefix, if_pos hL]

/-- Settles O31: the limit, the payload's end in the leading zeros, and its end in the suffix. -/
theorem expGolombFailures : Obligations.ExpGolombFailures := by
  intro s k hread
  have hlen := s.rd.bytes_length
  refine ⟨fun hzeros => exec_ue_se_failed hread (readUe_overflows _ hzeros), fun hend hzeros => ?inPrefix,
    fun hk hprefix hshort => ?inSuffix⟩
  case inPrefix =>
    rw [← hlen] at hend
    exact ⟨exec_uvlc_failed hread (readUvlc_prefixOverruns _ hend hzeros),
      fun hk => exec_ue_se_failed hread (readUe_prefixOverruns _ hk hend hzeros)⟩
  case inSuffix =>
    rw [← hlen] at hshort
    have hue := readUe_suffixOverruns _ hk hprefix hshort
    exact ⟨exec_uvlc_failed hread ((readUvlc_eq_readUe _ hk hprefix).trans hue), exec_ue_se_failed hread hue⟩

end Sys2Proof.Machine
end

section
/-! The auxiliary reads of whole bytes and SU (spec/43_av1_vp9_codes.md R180 to R185): LEB128 by the bytes that stand at POS
(spec/30_encoding.md R108), SU by the run of bits there, LE's overrun. -/

namespace Sys2Proof.Machine

/-! ## A read's value as a register's -/

/-- A readable unit's read that answers a number (R141). -/
theorem State.readCommand_toWord_got {s : State} (h : s.readable) {read : List Byte → Nat → ReadOutcome Nat} {v q : Nat}
    (hr : read s.rd.bytes s.rd.pos.toNat = .got v q) :
    s.readCommand (fun P q => (read P q).toWord) = s.readDone (Word.ofNat v) q :=
  s.readCommand_done h (by rw [hr]; rfl)

theorem State.readCommand_toWord_failed {s : State} (h : s.readable) {read : List Byte → Nat → ReadOutcome Nat} {c : Cause}
    (hr : read s.rd.bytes s.rd.pos.toNat = .failed c) :
    s.readCommand (fun P q => (read P q).toWord) = s.readFailed c :=
  s.readCommand_readFailed h (by rw [hr]; rfl)

/-! ## Bytes in the payload -/

theorem bytesBits_append (as bs : List Byte) : bytesBits (as ++ bs) = bytesBits as ++ bytesBits bs := by
  induction as with
  | nil => rfl
  | cons a as ih => rw [List.cons_append, bytesBits, ih, bytesBits, List.append_assoc]

/-- Of bytes cut off after k bits the first k / 8 stand whole. -/
theorem bitsAre_take_bytesBits {P : List Byte} {q k : Nat} {bs : List Byte} (h : bitsAre P q ((bytesBits bs).take k)) :
    bitsAre P q (bytesBits (bs.take (k / 8))) := by
  rw [← List.take_append_drop (k / 8) bs, bytesBits_append, List.take_append, bitsAre_append,
    List.take_of_length_le (by rw [bytesBits_length, List.length_take]; omega)] at h
  exact h.1

/-- The payload ends inside the i-th group of eight bits. -/
theorem payloadGroup_eq_none {P : List Byte} {q i : Nat} (h : 8 * P.length < q + 8 * i + 8) : payloadGroup P q i = none := by
  rw [payloadGroup, take_overruns P 8 _ h]

/-! ## LEB128 -/

/-- Every byte of a LEB128 form but the last has bit 7 set (spec/30_encoding.md R108). -/
theorem lebBytes_continues (n v i : Nat) (hi : i + 1 < n) : 0x80 ≤ ((lebBytes n v).getD i 0).toNat := by
  induction n generalizing v i with
  | zero => omega
  | succ n ih =>
    obtain ⟨n, rfl⟩ : ∃ m, n = m + 1 := ⟨n - 1, by omega⟩
    cases i with
    | zero =>
      simp only [lebBytes, List.getD_cons_zero, BitVec.toNat_ofNat]
      omega
    | succ i => exact ih (v / 128) i (by omega)

/-- Where bytes with bit 7 set stand, LEB128 collects them and goes on behind them. -/
theorem lebRead_continues {P : List Byte} {q : Nat} {bs : List Byte} (hlen : bs.length ≤ 8)
    (hbits : bitsAre P q (bytesBits bs)) (hset : ∀ i, i < bs.length → 0x80 ≤ (bs.getD i 0).toNat) :
    lebRead (payloadGroup P q) =
      lebLoop (payloadGroup P q) (8 - bs.length) bs.length
        ((List.range bs.length).map fun i => (bs.getD i 0).toNat % 128 * 2 ^ (7 * i)).sum := by
  have h := lebLoop_continues (payloadGroup P q) (fun i => bs.getD i 0) bs.length 8 0 0 hlen fun i hi => by
    rw [Nat.zero_add, payloadGroup_bytesBits P q bs hbits i hi, List.getD_eq_getElem bs 0 hi]
    exact ⟨rfl, by simpa only [List.getD_eq_getElem bs 0 hi] using hset i hi⟩
  simpa only [lebRead, Nat.zero_add] using h

/-- A value that was found is answered, or refused above 2^32 - 1 (R180, R181). -/
theorem readLeb128_found {P : List Byte} {q v n : Nat} (h : lebRead (payloadGroup P q) = some (v, n)) :
    readLeb128 P q = if v > 2 ^ 32 - 1 then .failed .leb128Overflow else .got v (q + 8 * n) := by
  rw [readLeb128, h]

theorem lebRead_lebBytes {P : List Byte} {q n v : Nat} (h1 : 1 ≤ n) (h8 : n ≤ 8) (hv : v < 2 ^ (7 * n))
    (hbits : bitsAre P q (bytesBits (lebBytes n v))) : lebRead (payloadGroup P q) = some (v, n) := by
  have h := lebLoop_lebBytes (payloadGroup P q) n v 8 0 0 h1 h8 hv fun i hi => by
    rw [Nat.zero_add, payloadGroup_bytesBits P q _ hbits i hi]
  simpa [lebRead] using h

/-- Cut off inside a LEB128 form, all whole bytes before the cut go on (R181). -/
theorem readLeb128_overruns {P : List Byte} {q n v k : Nat} (h8 : n ≤ 8) (hk : k < 8 * n) (hend : q + k = 8 * P.length)
    (hbits : bitsAre P q ((bytesBits (lebBytes n v)).take k)) : readLeb128 P q = .failed .overrun := by
  have hlen : ((lebBytes n v).take (k / 8)).length = k / 8 := by rw [List.length_take, lebBytes_length]; omega
  have hread := lebRead_continues (by omega) (bitsAre_take_bytesBits hbits) fun i hi => by
    rw [hlen] at hi
    rw [List.getD_eq_getElem?_getD, List.getElem?_take_of_lt hi, ← List.getD_eq_getElem?_getD]
    exact lebBytes_continues n v i (by omega)
  obtain ⟨left, hleft⟩ : ∃ l, 8 - k / 8 = l + 1 := ⟨8 - k / 8 - 1, by omega⟩
  rw [hlen, hleft, lebLoop, payloadGroup_eq_none (by omega)] at hread
  rw [readLeb128, hread]

/-- LEB128 of a value that was found. -/
theorem exec_leb128_found {s : State} (h : s.readable) {v n : Nat}
    (hfound : lebRead (payloadGroup s.rd.bytes s.rd.pos.toNat) = some (v, n)) :
    (v ≤ 2 ^ 32 - 1 → exec .leb128 s = .next (s.readDone (Word.ofNat v) (s.rd.pos.toNat + 8 * n))) ∧
    (2 ^ 32 - 1 < v → exec .leb128 s = .next (s.readFailed .leb128Overflow)) := by
  have hread := readLeb128_found hfound
  constructor <;> intro hv <;> refine congrArg Host.Outcome.next ?_
  · exact s.readCommand_toWord_got h (read := readLeb128) (hread.trans (if_neg (by omega)))
  · exact s.readCommand_toWord_failed h (read := readLeb128) (hread.trans (if_pos hv))

/-- Settles O32: each form's bytes are found, the eighth byte ends a value, and a cut leaves only bytes that go on. -/
theorem leb128RoundTrip : Obligations.Leb128RoundTrip := by
  intro s hread
  refine ⟨fun n v h1 h8 hv => ⟨fun hbits => exec_leb128_found hread (lebRead_lebBytes h1 h8 hv hbits),
    fun k hk hend hbits => congrArg Host.Outcome.next ?cut⟩, fun bs v hlen hset hv hbits => ?eight⟩
  case cut =>
    rw [← Reader.bytes_length] at hend
    exact State.readCommand_toWord_failed hread (read := readLeb128) (readLeb128_overruns h8 hk hend hbits)
  case eight =>
    have hfound := lebRead_continues (by omega) hbits fun i hi => by
      rw [List.getD_eq_getElem bs 0 hi]
      exact hset _ (List.getElem_mem hi)
    rw [hlen, ← hv] at hfound
    exact exec_leb128_found hread hfound

/-! ## SU -/

/-- A field read as two's complement is its bit vector's integer (spec/00_scope.md R11). -/
theorem signedField_toNat {n : Nat} (hn : 1 ≤ n) (x : BitVec n) : signedField n x.toNat = x.toInt := by
  obtain ⟨n, rfl⟩ : ∃ m, n = m + 1 := ⟨n - 1, by omega⟩
  have hhalf : x.toNat < 2 ^ n ↔ 2 * x.toNat < 2 ^ (n + 1) := by rw [pow_succ]; omega
  simp only [signedField, BitVec.toInt_eq_toNat_cond, Nat.add_sub_cancel, hhalf, Nat.cast_pow, Nat.cast_ofNat]

/-- A run of bits as a bit vector of its length, the first bit the most significant (spec/00_scope.md R13). -/
theorem getLsbD_ofNat_bitsAt (P : List Byte) (q : Nat) {n i : Nat} (hi : i < n) :
    (BitVec.ofNat n (bitsAt P q n)).getLsbD (n - 1 - i) = bitAt P (q + i) := by
  rw [BitVec.getLsbD_ofNat, testBit_bitsAt P q n i hi, decide_eq_true (by omega), Bool.true_and]

/-- Settles O33: SU's value is the run of bits at POS, as a number of that many bits. -/
theorem suSignExtends : Obligations.SuSignExtends := by
  intro s n hread h1 _
  rw [← Reader.bytes_length]
  refine ⟨fun hfits => ⟨BitVec.ofNat n (bitsAt s.rd.bytes s.rd.pos.toNat n),
    congrArg Host.Outcome.next (s.readCommand_done hread ?_), fun i hi => getLsbD_ofNat_bitsAt _ _ hi⟩,
    fun hshort => congrArg Host.Outcome.next (s.readCommand_readFailed hread ?_)⟩
  · have hvalue : (BitVec.ofNat n (bitsAt s.rd.bytes s.rd.pos.toNat n)).toNat = bitsAt s.rd.bytes s.rd.pos.toNat n := by
      rw [BitVec.toNat_ofNat, Nat.mod_eq_of_lt (bitsAt_lt _ _ _)]
    rw [take_fits _ _ _ hfits, ReadOutcome.andThen_got, BitVec.signExtend, ← signedField_toNat h1, hvalue]
  · rw [take_overruns _ _ _ hshort, ReadOutcome.andThen_failed]

/-! ## LE -/

/-- Whole bytes are read up to the one that does not fit (R184). -/
theorem readLe_overruns (P : List Byte) {n : Nat} (i t q : Nat) (h1 : 1 ≤ n) (hshort : 8 * P.length < q + 8 * n) :
    readLe P n i t q = .failed .overrun := by
  induction n generalizing i t q with
  | zero => omega
  | succ n ih =>
    rw [readLe]
    rcases take_cases P 8 q with ⟨hfits, e⟩ | ⟨_, e⟩ <;> rw [e]
    · exact ih (i + 1) _ (q + 8) (by omega) (by omega)
    · rfl

/-- Settles O34: LE of bytes that stand at POS, and of bytes that do not fit. -/
theorem leRoundTrip : Obligations.LeRoundTrip := by
  intro s n hread h1 _
  refine ⟨fun v hv hbits => congrArg Host.Outcome.next ?_, fun hshort => congrArg Host.Outcome.next ?_⟩
  · have h := readLe_leBytes s.rd.bytes n 0 0 s.rd.pos.toNat v hv hbits
    rw [Nat.mul_zero, pow_zero, Nat.mul_one, Nat.zero_add] at h
    exact s.readCommand_toWord_got hread (read := fun P q => readLe P n 0 0 q) h
  · rw [← Reader.bytes_length] at hshort
    exact s.readCommand_toWord_failed hread (read := fun P q => readLe P n 0 0 q) (readLe_overruns _ 0 0 _ h1 hshort)

end Sys2Proof.Machine
end

section
/-! The bit-level codes of the auxiliary reads (spec/43_av1_vp9_codes.md R186 to R191): what it means that a read inverts a
codeword and overruns inside it, how such reads compose, NS, SUBEXP and SUBEXP_REF, and the recentring of R190. -/

namespace Sys2Proof.Machine

/-! ## Reads that invert a code -/

/-- The read from bit q on inverts the code: where `code` stands it answers `v` and consumes it, and where the payload ends
inside `code` it overruns. -/
structure ReadOutcome.Decodes {α : Type} (P : List Byte) (q : Nat) (code : List Bool) (v : α) (r : ReadOutcome α) : Prop where
  whole : bitsAre P q code → r = .got v (q + code.length)
  cut : ∀ k, k < code.length → q + k = 8 * P.length → bitsAre P q (code.take k) → r = .failed .overrun

theorem ReadOutcome.Decodes.of_got {α : Type} (P : List Byte) (q : Nat) (v : α) : (ReadOutcome.got v q).Decodes P q [] v :=
  ⟨fun _ => rfl, fun _ hk => absurd hk (Nat.not_lt_zero _)⟩

/-- Past the payload's end no codeword stands, and none is cut off with an answer other than OVERRUN. -/
theorem ReadOutcome.Decodes.of_pastEnd {α : Type} {P : List Byte} {q : Nat} (hq : 8 * P.length < q) (code : List Bool) (v : α) :
    (ReadOutcome.failed .overrun : ReadOutcome α).Decodes P q code v :=
  ⟨fun h => by have := bitsAre_length_le P q code h; omega, fun _ _ _ _ => rfl⟩

theorem decodes_take (P : List Byte) (q n v : Nat) : (take P n q).Decodes P q (natBits n v) (v % 2 ^ n) where
  whole h := by rw [natBits_length, take_natBits P q n v h]
  cut k hk hend _ := by
    rw [natBits_length] at hk
    exact take_overruns P n q (by omega)

/-- Codes compose as the reads do. -/
theorem ReadOutcome.Decodes.andThen {α β : Type} {P : List Byte} {q : Nat} {c₁ c₂ : List Bool} {v : α} {w : β}
    {r : ReadOutcome α} {f : α → Nat → ReadOutcome β} (hr : r.Decodes P q c₁ v)
    (hf : (f v (q + c₁.length)).Decodes P (q + c₁.length) c₂ w) : (r.andThen f).Decodes P q (c₁ ++ c₂) w := by
  obtain ⟨hwhole₁, hcut₁⟩ := hr
  obtain ⟨hwhole₂, hcut₂⟩ := hf
  refine ⟨fun hbits => ?whole, fun k hk hend hbits => ?cut⟩
  case whole =>
    obtain ⟨hbits₁, hbits₂⟩ := (bitsAre_append P q c₁ c₂).mp hbits
    rw [hwhole₁ hbits₁, ReadOutcome.andThen_got, hwhole₂ hbits₂, List.length_append, Nat.add_assoc]
  case cut =>
    rw [List.length_append] at hk
    rw [List.take_append, bitsAre_append] at hbits
    obtain ⟨hbits₁, hbits₂⟩ := hbits
    by_cases hk₁ : k < c₁.length
    · rw [hcut₁ k hk₁ hend hbits₁, ReadOutcome.andThen_failed]
    · rw [List.take_of_length_le (by omega)] at hbits₁ hbits₂
      rw [hwhole₁ hbits₁, ReadOutcome.andThen_got, hcut₂ (k - c₁.length) (by omega) (by omega) hbits₂]

/-- A value computed from what a read answers has the read's code. -/
theorem ReadOutcome.Decodes.map {α β : Type} {P : List Byte} {q : Nat} {code : List Bool} {v : α} {r : ReadOutcome α}
    (g : α → β) (hr : r.Decodes P q code v) : (r.andThen fun v q' => .got (g v) q').Decodes P q code (g v) := by
  have h := hr.andThen (f := fun v q' => .got (g v) q') (ReadOutcome.Decodes.of_got P _ (g v))
  rwa [List.append_nil] at h

/-- A single bit of a code. -/
theorem decodes_bit (P : List Byte) (q : Nat) (b : Bool) : (take P 1 q).Decodes P q [b] b.toNat := by
  have h := decodes_take P q 1 b.toNat
  cases b <;> exact h

/-- A read command whose read inverts the code at POS: committed where the codeword stands, OVERRUN where it is cut off. -/
theorem State.readCommand_decodes {s : State} (h : s.readable) {body : List Byte → Nat → ReadOutcome Word} {code : List Bool}
    {v : Word} (hb : (body s.rd.bytes s.rd.pos.toNat).Decodes s.rd.bytes s.rd.pos.toNat code v) :
    (bitsAre s.rd.bytes s.rd.pos.toNat code → s.readCommand body = s.readDone v (s.rd.pos.toNat + code.length)) ∧
    (∀ k, k < code.length → s.rd.pos.toNat + k = 8 * s.rd.plen → bitsAre s.rd.bytes s.rd.pos.toNat (code.take k) →
      s.readCommand body = s.readFailed .overrun) := by
  obtain ⟨hwhole, hcut⟩ := hb
  rw [Reader.bytes_length] at hcut
  exact ⟨fun hbits => s.readCommand_done h (hwhole hbits),
    fun k hk hend hbits => s.readCommand_readFailed h (hcut k hk hend hbits)⟩

/-! ## NS -/

/-- The last bit of a fixed-width number apart from the others. -/
theorem natBits_succ_eq_append (n v : Nat) : natBits (n + 1) v = natBits n (v / 2) ++ [v.testBit 0] := by
  induction n with
  | zero => rfl
  | succ n ih => rw [natBits, ih, natBits, Nat.testBit_succ, List.cons_append]

/-- NS inverts the code of R112: both lengths of codeword begin with the same Take (R186). -/
theorem decodes_readNs (P : List Byte) (q : Nat) {n v : Nat} (hv : v < n) :
    (readNs P n q).Decodes P q (nsCodeword n v) v := by
  unfold readNs nsCodeword
  have hlow : 2 ^ Nat.log2 n ≤ n := Nat.log2_self_le (by omega)
  have hhigh : n < 2 ^ (Nat.log2 n + 1) := Nat.lt_log2_self
  simp only [Nat.add_sub_cancel]
  obtain ⟨m, hm⟩ : ∃ m, m = 2 ^ (Nat.log2 n + 1) - n := ⟨_, rfl⟩
  rw [← hm]
  rw [pow_succ] at hm hhigh
  by_cases hshort : v < m
  · have hfirst := decodes_take P q (Nat.log2 n) v
    rw [Nat.mod_eq_of_lt (by omega)] at hfirst
    rw [if_pos hshort, ← List.append_nil (natBits _ v)]
    refine hfirst.andThen ?_
    rw [if_pos hshort]
    exact ReadOutcome.Decodes.of_got _ _ _
  · have hfirst := decodes_take P q (Nat.log2 n) ((v + m) / 2)
    rw [Nat.mod_eq_of_lt (by omega)] at hfirst
    rw [if_neg hshort, natBits_succ_eq_append]
    refine hfirst.andThen ?_
    rw [if_neg (by omega)]
    have hlast := (decodes_bit P (q + (natBits (Nat.log2 n) ((v + m) / 2)).length) ((v + m).testBit 0)).map
      fun e => 2 * ((v + m) / 2) - m + e
    have hvalue : 2 * ((v + m) / 2) - m + ((v + m).testBit 0).toNat = v := by
      rw [Nat.toNat_testBit]
      omega
    rwa [hvalue] at hlast

/-! ## SUBEXP -/

/-- The width of round i of R188, `b2`. -/
def subexpWidth (i : Nat) : Nat := if i > 0 then 3 + i - 1 else 3

/-- Where the values of round i of R188 begin, `mk`. -/
def subexpBase (i : Nat) : Nat := if i > 0 then 2 ^ (i + 2) else 0

theorem subexpBase_succ (i : Nat) : subexpBase (i + 1) = subexpBase i + 2 ^ subexpWidth i := by
  cases i with
  | zero => rfl
  | succ i =>
    simp only [subexpBase, subexpWidth, Nat.succ_pos, if_true, gt_iff_lt, show 3 + (i + 1) - 1 = i + 3 by omega, pow_succ]
    omega

/-- The values that round i can end at (R189). -/
theorem two_pow_le_subexpBase_add (i : Nat) : 2 ^ (i + 4) ≤ subexpBase i + 3 * 2 ^ subexpWidth i := by
  cases i with
  | zero => decide
  | succ i =>
    simp only [subexpBase, subexpWidth, Nat.succ_pos, if_true, gt_iff_lt, show 3 + (i + 1) - 1 = i + 3 by omega, pow_succ]
    omega

theorem subexpLoop_succ (P : List Byte) (numSyms rounds i mk q : Nat) :
    subexpLoop P numSyms (rounds + 1) i mk q =
      if numSyms ≤ mk + 3 * 2 ^ subexpWidth i then (readNs P (numSyms - mk) q).andThen fun v q' => .got (v + mk) q'
      else
        (take P 1 q).andThen fun more q1 =>
          if more = 1 then subexpLoop P numSyms rounds (i + 1) (mk + 2 ^ subexpWidth i) q1
          else (take P (subexpWidth i) q1).andThen fun v q2 => .got (v + mk) q2 := rfl

theorem subexpCode_succ (numSyms v rounds i mk : Nat) :
    subexpCode numSyms v (rounds + 1) i mk =
      if numSyms ≤ mk + 3 * 2 ^ subexpWidth i then nsCodeword (numSyms - mk) (v - mk)
      else if v < mk + 2 ^ subexpWidth i then false :: natBits (subexpWidth i) (v - mk)
      else true :: subexpCode numSyms v rounds (i + 1) (mk + 2 ^ subexpWidth i) := rfl

/-- From round i on the loop inverts the code: `more` further rounds are enough for the code, and the loop's own bound is
not met inside the payload. -/
theorem decodes_subexpLoop (P : List Byte) {numSyms v : Nat} (hv : v < numSyms) (rounds more i q : Nat)
    (hfuel : 8 * P.length < q + rounds) (hbase : subexpBase i ≤ v) (hmore : numSyms ≤ 2 ^ (more + i + 4)) :
    (subexpLoop P numSyms rounds i (subexpBase i) q).Decodes P q (subexpCode numSyms v (more + 1) i (subexpBase i)) v := by
  induction rounds generalizing more i q with
  | zero => exact ReadOutcome.Decodes.of_pastEnd hfuel _ v
  | succ rounds ih =>
    rw [subexpLoop_succ, subexpCode_succ]
    by_cases hlast : numSyms ≤ subexpBase i + 3 * 2 ^ subexpWidth i
    · rw [if_pos hlast, if_pos hlast]
      have h := (decodes_readNs P q (n := numSyms - subexpBase i) (v := v - subexpBase i) (by omega)).map (· + subexpBase i)
      rwa [Nat.sub_add_cancel hbase] at h
    · rw [if_neg hlast, if_neg hlast]
      by_cases hhere : v < subexpBase i + 2 ^ subexpWidth i
      · rw [if_pos hhere]
        refine (decodes_bit P q false).andThen ?_
        have h := (decodes_take P (q + 1) (subexpWidth i) (v - subexpBase i)).map (· + subexpBase i)
        rwa [Nat.mod_eq_of_lt (by omega), Nat.sub_add_cancel hbase] at h
      · rw [if_neg hhere, ← subexpBase_succ]
        have hround := two_pow_le_subexpBase_add i
        obtain ⟨n, rfl⟩ : ∃ n, more = n + 1 := Nat.exists_eq_succ_of_ne_zero fun h0 => by
          rw [h0, Nat.zero_add] at hmore
          omega
        refine (decodes_bit P q true).andThen ?_
        exact ih n (i + 1) (q + 1) (by omega) (by rw [subexpBase_succ]; omega) (by rwa [← Nat.add_assoc, Nat.add_right_comm n])

/-- SUBEXP inverts the code of R112 for every 32-bit number of symbols (R189). -/
theorem decodes_readSubexp (P : List Byte) (q : Nat) {numSyms v : Nat} (hv : v < numSyms) (hsyms : numSyms ≤ 2 ^ 32) :
    (readSubexp P numSyms q).Decodes P q (subexpCodeword numSyms v) v :=
  decodes_subexpLoop P hv _ 28 0 q (by omega) (Nat.zero_le v) hsyms

/-! ## The recentring -/

/-- Up to `2c` the odd deltas go below `c` and the even ones to `c` and above; the rest stay (R191). -/
theorem inverseRecenter_cases (c v : Int) :
    (2 * c < v ∧ inverseRecenter c v = v) ∨
    (v ≤ 2 * c ∧ v % 2 = 1 ∧ inverseRecenter c v = c - (v + 1) / 2) ∨
    (v ≤ 2 * c ∧ v % 2 = 0 ∧ inverseRecenter c v = c + v / 2) := by
  unfold inverseRecenter
  by_cases hfar : v > 2 * c
  · exact .inl ⟨hfar, if_pos hfar⟩
  · rw [if_neg hfar]
    by_cases hodd : v % 2 = 1
    · exact .inr (.inl ⟨by omega, hodd, if_pos hodd⟩)
    · exact .inr (.inr ⟨by omega, by omega, if_neg hodd⟩)

theorem inverseRecenter_zero {c : Int} (hc : 0 ≤ c) : inverseRecenter c 0 = c := by
  rcases inverseRecenter_cases c 0 with ⟨_, e⟩ | ⟨_, _, e⟩ | ⟨_, _, e⟩ <;> omega

/-- Around a centre in the lower half of `[0, mx)` the values stay in `[0, mx)`. -/
theorem inverseRecenter_bounds {c v mx : Int} (hc : 0 ≤ c) (hhalf : 2 * c ≤ mx) (hv : 0 ≤ v) (hmx : v < mx) :
    0 ≤ inverseRecenter c v ∧ inverseRecenter c v < mx := by
  rcases inverseRecenter_cases c v with ⟨_, e⟩ | ⟨_, _, e⟩ | ⟨_, _, e⟩ <;> omega

/-- The three ranges of values are disjoint. -/
theorem inverseRecenter_injective {c v w : Int} (hv : 0 ≤ v) (hw : 0 ≤ w)
    (h : inverseRecenter c v = inverseRecenter c w) : v = w := by
  rcases inverseRecenter_cases c v with ⟨_, ev⟩ | ⟨_, _, ev⟩ | ⟨_, _, ev⟩ <;>
    rcases inverseRecenter_cases c w with ⟨_, ew⟩ | ⟨_, _, ew⟩ | ⟨_, _, ew⟩ <;> omega

/-- The recentring is R191's around a centre in the lower half of the range, counted from the range's low end or, for a
reference in the upper half, from its high end (R190). -/
theorem recenter_cases {low r mx : Int} (hlow : low ≤ r) (hhigh : r < low + mx) :
    ∃ c, 0 ≤ c ∧ 2 * c ≤ mx ∧
      ((r = low + c ∧ ∀ v, recenter low mx r v = low + inverseRecenter c v) ∨
      (r = low + mx - 1 - c ∧ ∀ v, recenter low mx r v = low + mx - 1 - inverseRecenter c v)) := by
  by_cases hhalf : 2 * (r - low) ≤ mx
  · refine ⟨r - low, by omega, hhalf, .inl ⟨by omega, fun v => ?_⟩⟩
    rw [recenter, if_pos hhalf, Int.add_comm]
  · refine ⟨mx - 1 - (r - low), by omega, by omega, .inr ⟨by omega, fun v => ?_⟩⟩
    rw [recenter, if_neg hhalf]
    omega

/-- Settles O38: counting from either end, R191's recentring is one to one onto the range. -/
theorem recenterIsPermutation : Obligations.RecenterIsPermutation := by
  intro low r mx hlow hhigh
  obtain ⟨c, hc, hhalf, hrecenter⟩ := recenter_cases hlow hhigh
  refine ⟨?zero, fun v hv => ?bounds, fun v w _ _ h => ?injective⟩
  case zero =>
    have := inverseRecenter_zero hc
    rcases hrecenter with ⟨_, e⟩ | ⟨_, e⟩ <;> rw [e] <;> omega
  case bounds =>
    have := inverseRecenter_bounds hc hhalf (Int.natCast_nonneg v) (by omega)
    rcases hrecenter with ⟨_, e⟩ | ⟨_, e⟩ <;> rw [e] <;> omega
  case injective =>
    have heq : inverseRecenter c v = inverseRecenter c w := by
      rcases hrecenter with ⟨_, e⟩ | ⟨_, e⟩ <;> rw [e, e] at h <;> omega
    exact Int.natCast_inj.mp (inverseRecenter_injective (Int.natCast_nonneg v) (Int.natCast_nonneg w) heq)

/-! ## The three commands -/

theorem exec_ns {s : State} (h : unsigned s.arg0 ≠ 0) :
    exec .ns s = .next (s.readCommand fun P q => (readNs P (unsigned s.arg0) q).toWord) :=
  congrArg Host.Outcome.next (if_neg h)

theorem exec_subexp {s : State} (h : unsigned s.arg0 ≠ 0) :
    exec .subexp s = .next (s.readCommand fun P q => (readSubexp P (unsigned s.arg0) q).toWord) :=
  congrArg Host.Outcome.next (if_neg h)

/-- SUBEXP_REF with its operands as integers. -/
theorem exec_subexpRef {s : State} {mx : Nat} (hmx : s.arg1.toInt - s.arg0.toInt = mx) (hpos : 0 < mx) :
    exec .subexpRef s =
      .next (s.readCommand fun P q =>
        (readSubexp P mx q).andThen fun v q' => .got (Word.ofInt (recenter s.arg0.toInt mx s.arg2.toInt v)) q') := by
  refine congrArg Host.Outcome.next ?_
  simp only [signed_eq_toInt, hmx]
  rw [if_neg (by omega), Int.toNat_natCast]

/-- Settles O35: NS inverts the codewords of R112. -/
theorem nsRoundTrip : Obligations.NsRoundTrip := by
  intro s v hread hv
  have h := State.readCommand_decodes hread (body := fun P q => (readNs P (unsigned s.arg0) q).toWord)
    ((decodes_readNs _ _ hv).map Word.ofNat)
  rw [exec_ns (by unfold unsigned; omega)]
  simpa only [Host.Outcome.next.injEq] using h

/-- Settles O36: the loop's rounds are the code's. -/
theorem subexpRoundTrip : Obligations.SubexpRoundTrip := by
  intro s v hread hv
  have h := State.readCommand_decodes hread (body := fun P q => (readSubexp P (unsigned s.arg0) q).toWord)
    ((decodes_readSubexp _ _ hv s.arg0.isLt.le).map Word.ofNat)
  rw [exec_subexp (by unfold unsigned; omega)]
  simpa only [Host.Outcome.next.injEq] using h

/-- The formula of R190 with R191's InverseRecenter written out. -/
theorem recenter_natCast (low r : Int) (mx v : Nat) :
    recenter low mx r v =
      let rr : Int := r - low
      let away : Int → Int := fun c =>
        if (v : Int) > 2 * c then v else if v % 2 = 1 then c - (v + 1) / 2 else c + v / 2
      (if 2 * rr ≤ mx then away rr else mx - 1 - away (mx - 1 - rr)) + low := by
  have hodd : (v : Int) % 2 = 1 ↔ v % 2 = 1 := by omega
  simp only [recenter, inverseRecenter, hodd]

/-- Settles O37: the delta is SUBEXP's value for a range of at most 32 bits, recentred. -/
theorem subexpRefDecodesDelta : Obligations.SubexpRefDecodesDelta := by
  intro s v mx hread hmx hv
  have hrange : mx ≤ 2 ^ 32 := by
    have := s.arg0.le_toInt
    have := s.arg1.toInt_lt
    omega
  have h := State.readCommand_decodes hread
    (body := fun P q =>
      (readSubexp P mx q).andThen fun v q' => .got (Word.ofInt (recenter s.arg0.toInt mx s.arg2.toInt v)) q')
    ((decodes_readSubexp _ _ hv hrange).map fun v : Nat => Word.ofInt (recenter s.arg0.toInt mx s.arg2.toInt v))
  rw [exec_subexpRef hmx (by omega)]
  simpa only [Host.Outcome.next.injEq, recenter_natCast] using h

end Sys2Proof.Machine
end

section
/-! SEG_PACKET and SEG_NEXT as whole commands (spec/44_segmenter_nal.md R200 to R205, R210, R213 to R215): their refusals and the
packet they accept, what SEG_NEXT leaves alone and stores, the packet that is one unit, and the invariants of R215. -/

namespace Sys2Proof.Machine

/-! ## SEG_PACKET -/

/-- SEG_PACKET by its four cases (R201). -/
theorem exec_segPacket (s : State) (eos eop disc : Bool) :
    exec (.segPacket eos eop disc) s =
      .next (if s.cfg.valid = false then s.refuse .notConfigured
        else if s.params.pktMax < s.pktLen.toNat then s.refuse .pktTooLong
        else if s.seg.active = true ∧ disc = false then s.refuse .segBusy
        else State.succeed
          (if s.cfg.codec = .vp9 then (s.acceptPacket eos eop disc).parseSuperframeIndex
          else s.acceptPacket eos eop disc)) := by
  have hcfg : (s.acceptPacket eos eop disc).cfg = s.cfg := by rw [State.acceptPacket_eq]
  show execSegPacket eos eop disc s = _
  unfold execSegPacket
  simp only [hcfg]
  cases s.cfg.valid <;> cases s.seg.active <;> cases disc <;> rfl

/-- Settles O40: each refusal is a case of its own. -/
theorem segPacketRefusals : Obligations.SegPacketRefusals := by
  intro s eos eop disc
  simp only [exec_segPacket]
  refine ⟨fun hv => ?_, fun hv hlen => ?_, fun hv hlen ha hd => ?_⟩
  · rw [if_pos hv]; rfl
  · rw [if_neg (by simp [hv]), if_pos hlen]; rfl
  · rw [if_neg (by simp [hv]), if_neg hlen.not_gt, if_pos ⟨ha, hd⟩]; rfl

/-- An accepted packet's state: R201's, but for the registers of a superframe index, which are 0 outside VP9. -/
theorem exec_segPacket_accepts {s : State} (eos eop disc : Bool) (hv : s.cfg.valid = true)
    (hlen : s.pktLen.toNat ≤ s.params.pktMax) (hidle : s.seg.active = false ∨ disc = true) :
    ∃ count indexSize sizes,
      exec (.segPacket eos eop disc) s =
        .next { s with
          rd := (s.acceptPacket eos eop disc).rd
          seg := { (s.acceptPacket eos eop disc).seg with
            sfCount := count, sfIndexSize := indexSize, sfSize := sizes }
          lastOk := true, lastCause := .ok } ∧
      (s.cfg.codec ≠ .vp9 → count = 0 ∧ indexSize = 0 ∧ sizes = Vector.replicate 8 0) := by
  have hbusy : ¬ (s.seg.active = true ∧ disc = false) := by
    rcases hidle with h | h <;> simp [h]
  have hframe := s.acceptPacket_eq eos eop disc
  have hsf : (s.acceptPacket eos eop disc).seg.sfCount = 0 ∧ (s.acceptPacket eos eop disc).seg.sfIndexSize = 0 ∧
      (s.acceptPacket eos eop disc).seg.sfSize = Vector.replicate 8 0 := ⟨rfl, rfl, rfl⟩
  rw [exec_segPacket, if_neg (by simp [hv]), if_neg hlen.not_gt, if_neg hbusy]
  generalize s.acceptPacket eos eop disc = p at hframe hsf ⊢
  by_cases hc : s.cfg.codec = .vp9
  · have hparse := p.parseSuperframeIndex_eq
    generalize p.parseSuperframeIndex = q at hparse ⊢
    refine ⟨q.seg.sfCount, q.seg.sfIndexSize, q.seg.sfSize, ?_, fun h => absurd hc h⟩
    rw [if_pos hc, hparse, hframe]; rfl
  · refine ⟨p.seg.sfCount, p.seg.sfIndexSize, p.seg.sfSize, ?_, fun _ => hsf⟩
    rw [if_neg hc, hframe]; rfl

/-- Settles O39: with `disc` the packet is accepted after R202's flush, without it the carried state stays. -/
theorem segPacketAcceptsPacket : Obligations.SegPacketAcceptsPacket := by
  intro s eos eop disc hv hlen hidle
  obtain ⟨count, indexSize, sizes, he, hsf⟩ := exec_segPacket_accepts eos eop disc hv hlen hidle
  have hcount : (s.acceptPacket eos eop disc).seg.unitCount = s.seg.unitCount := by
    cases disc <;> simp [State.acceptPacket]
  refine ⟨_, he, rfl, rfl, rfl, rfl, rfl, rfl, rfl, rfl, hcount, fun hc => ?sf, fun hd => ?kept, fun hd => ?flushed⟩
  case sf =>
    obtain ⟨rfl, rfl, rfl⟩ := hsf hc
    exact ⟨rfl, rfl, fun i hi => by simp⟩
  case kept => subst hd; exact ⟨rfl, rfl, rfl, rfl, rfl, rfl⟩
  case flushed =>
    subst hd
    exact ⟨rfl, rfl, rfl, rfl, rfl, s.unbindUnit_rd_pkt, s.unbindUnit_rd_unit⟩

/-! ## SEG_NEXT: its frame and its endings -/

/-- Settles O41: with no active packet SEG_NEXT is the release and NEED_DATA. -/
theorem segNextWithoutPacket : Obligations.SegNextWithoutPacket := by
  intro s
  refine ⟨fun hv => ?_, fun hv ha => ?_⟩
  · rw [exec_segNext, if_pos hv]; rfl
  · rw [exec_segNext, if_neg (by simp [hv]), if_pos ha, ← State.release_rd, State.release_eq]; rfl

/-- Settles O44: a mode ends in one of three ways from the released state, in which no unit is held. -/
theorem segNextFrame : Obligations.SegNextFrame := by
  intro s t hv h
  obtain ⟨hf, hends⟩ := segNext_ends s t hv h
  have hrd : t.rd = s.readerAfterRelease := by rw [hf]; exact s.release_rd
  have hframe : t = { s with
      rd := t.rd, seg := t.seg, unitMem := t.unitMem, result := t.result, lastOk := t.lastOk
      lastCause := t.lastCause } := by
    have h1 := hf
    rw [State.release_eq] at h1
    rw [h1]; rfl
  refine ⟨hframe, ?_, ?_, ?_, ?_, hrd, ?cause, ?ends⟩
  case cause =>
    rcases hends with ⟨_, _, _, _, _, e1, e2⟩ | ⟨_, _, _, _, _, _, _, e1, e2⟩ | ⟨_, _, _, _, _, _, e, _⟩
    · rw [e1, e2]
    · rw [e1, e2]
    · exact e
  case ends =>
    have hheld : s.release.seg.held = false := by rw [State.release_eq]
    simp only [hheld, State.release_result, State.release_seg_unitCount] at hends
    rcases hends with ⟨e1, e2, e3, e4, e5, _⟩ | ⟨e1, e2, _, e3, e4, e5, e6, _⟩ | ⟨e1, e2, _, e3, e4, e5, _⟩
    · exact .inl ⟨e1, e2, e3, e4, e5⟩
    · exact .inr (.inl ⟨e1, e2, e3, e4, e5, e6⟩)
    · exact .inr (.inr ⟨e1, e2, e3, e4, e5⟩)
  all_goals rw [hf, State.release_eq]; rfl

/-! ## SEG_NEXT: what it stores -/

theorem State.release_unitLen (s : State) :
    s.release.seg.unitLen.toNat = if s.seg.held then 0 else s.seg.unitLen.toNat := by
  rw [State.release_eq]
  cases s.seg.held <;> rfl

/-- A mode that runs with no unit held stores the unit it collects, and nothing when it abandons a packet. -/
theorem State.Inv.modeNext_keeps {s : State} (h : s.Inv) (hh : s.seg.held = false) :
    SegKeeps s s.modeNext ∧
    (s.modeNext.seg.result = .error → s.modeNext.seg.cause ≠ .unitTooLong → s.modeNext.unitMem = s.unitMem) := by
  have hc : s.Collecting := ⟨h.unitMax_lt, h.unitLen_bound, fun hu => h.len_idle hu hh⟩
  rcases s.modeNext_cases with ⟨_, e⟩ | ⟨hb, hm⟩
  · rw [e]
    obtain ⟨_, _, hcause, _⟩ := nalScan_ends (s.pktLen.toNat - s.seg.pktPos.toNat) s
    exact ⟨nalScan_keeps _ s hc, fun he hn => absurd (hcause he) hn⟩
  · exact ⟨hm.keeps hc (h.len_idle (h.scanner_idle hb).1 hh), fun he _ => hm.stored he⟩

/-- Settles O43: the mode's bytes, counted from UNIT_LEN after the release. -/
theorem segNextStoresTheUnitOnly : Obligations.SegNextStoresTheUnitOnly := by
  intro s t h he
  have same : t.unitMem = s.unitMem → t.params = s.params → ∀ i, t.unitByte i = s.unitByte i :=
    State.unitByte_congr s t
  rcases exec_segNext_cases he with rfl | ⟨_, rfl | rfl⟩
  · exact ⟨fun i _ => same rfl rfl i, fun _ i _ => same rfl rfl i, fun _ _ => rfl⟩
  · have hb := same (by simp) (by simp)
    exact ⟨fun i _ => hb i, fun _ i _ => hb i, fun _ _ => by simp⟩
  · obtain ⟨hk, hm⟩ := h.release.modeNext_keeps (by rw [State.release_eq])
    have hb : ∀ i, s.release.unitByte i = s.unitByte i :=
      State.unitByte_congr s s.release s.release_unitMem s.release_params
    refine ⟨fun i hi => ?_, fun hn i hi => ?_, fun hr hc => ?_⟩
    · rw [hk.below i (by rw [State.release_unitLen]; exact hi), hb]
    · rw [hk.above hn i hi, hb]
    · rw [hm hr hc, State.release_unitMem]

/-! ## The whole packet as one unit -/

/-- The two modes that take a packet whole (R210; spec/46_segmenter_vp9.md R244). -/
def State.takesWholePacket (s : State) : Prop :=
  ((s.cfg.codec = .h264 ∨ s.cfg.codec = .h265) ∧ s.cfg.inmode = true) ∨ (s.cfg.codec = .vp9 ∧ s.seg.sfCount = 0)

theorem State.modeNext_wholePacket {s : State}
    (hmode : s.takesWholePacket) : s.modeNext = s.wholePacketNext := by
  unfold State.modeNext
  rcases hmode with ⟨hc | hc, hi⟩ | ⟨hc, h0⟩
  · rw [hc, hi]; rfl
  · rw [hc, hi]; rfl
  · rw [hc]
    simp only
    rw [State.vp9Next, if_pos h0]; rfl

theorem segNext_wholePacket {s : State} (hv : s.cfg.valid = true) (ha : s.seg.active = true)
    (hmode : s.takesWholePacket) : exec .segNext s = .next s.release.wholePacketNext := by
  rw [exec_segNext, if_neg (by simp [hv]), if_neg (by simp [ha]),
    State.modeNext_wholePacket (by simpa [State.takesWholePacket] using hmode)]

/-- The packet used up, before the whole-packet unit is stored or reported missing (R210). -/
def State.usePacket (s : State) : State := { s with seg := { s.seg with pktPos := s.pktLen, active := false } }

/-- The whole packet by its three cases (R210). -/
theorem State.wholePacketNext_eq (s : State) :
    s.wholePacketNext =
      if s.pktLen.toNat = 0 then s.usePacket.needData
      else if s.params.unitMax < s.pktLen.toNat then s.usePacket.dropLongUnit
      else (s.usePacket.copyUnit 0 s.pktLen.toNat).emitUnit 0 := rfl

/-- Settles O49: the three cases, from the released state. -/
theorem wholePacketIsOneUnit : Obligations.WholePacketIsOneUnit := by
  intro s hv ha hmode
  obtain ⟨_, hlen, hparams, hcfg, hmem, hresult, _, hcount, hheld, hbyte⟩ := s.release_keeps
  obtain ⟨hends, hactive⟩ := s.release.wholePacketNext_mode
  have hpos : s.release.wholePacketNext.seg.pktPos = s.pktLen := by
    rw [State.wholePacketNext_eq, ← hlen]
    split
    · rfl
    · split <;> rfl
  refine ⟨_, segNext_wholePacket hv ha hmode, hactive, hpos, fun h0 => ?empty, fun hsome hfit => ?fits,
    fun hlong => ?long, ?again⟩
  case empty =>
    rw [State.wholePacketNext_eq, if_pos (by rw [hlen, h0]; rfl)]
    exact ⟨rfl, rfl, rfl, hresult, hmem⟩
  case fits =>
    rw [State.wholePacketNext_eq, if_neg (by rw [hlen]; omega), if_neg (by rw [hlen, hparams]; omega)]
    have hword : Word.ofNat s.release.pktLen.toNat = s.pktLen := by simp
    refine ⟨rfl, rfl, rfl, rfl, hword, hword, rfl, congrArg (· + 1) hcount, fun i hi => ?_⟩
    have hcopy := State.copyUnit_unitByte 0 s.release.pktLen.toNat s.release.usePacket
      (by rw [hlen]; exact hparams ▸ hfit) i
    rw [if_pos (by rw [hlen]; exact hi), Nat.zero_add] at hcopy
    exact hcopy.trans (hbyte i)
  case long =>
    rw [State.wholePacketNext_eq, if_neg (by rw [hlen]; omega), if_pos (by rw [hlen, hparams]; exact hlong)]
    exact ⟨rfl, rfl, rfl, rfl, hheld, rfl, hresult, hcount, hmem⟩
  case again =>
    have hv' : s.release.wholePacketNext.cfg.valid = true := by
      rw [hends.ends.frame]; simpa [State.withUnit] using hv
    refine ⟨_, ?_, State.needData_seg_result s.release.wholePacketNext.release⟩
    rw [exec_segNext, if_neg (by simp [hv']), if_pos hactive]

/-! ## The segmenter's invariants -/

/-- The invariants of R215 that a host cannot break by writing PKT_LEN. -/
structure State.SegInvariants (s : State) : Prop where
  unitLen_bound : s.seg.unitLen.toNat ≤ s.params.unitMax
  bound_held : s.rd.unitValid = true → s.rd.src = .unit → s.seg.held = true
  info_held : s.seg.held = false → s.seg.unitInfo = 0
  len_outside : s.byteStream = true → s.seg.inUnit = false → s.seg.held = false → s.seg.unitLen = 0
  len_elsewhere : s.byteStream = false → s.seg.held = false → s.seg.unitLen = 0

theorem State.Inv.segInvariants {s : State} (h : s.Inv) : s.SegInvariants where
  unitLen_bound := h.unitLen_bound
  bound_held := h.bound_held
  info_held := h.info_held
  len_outside := fun _ => h.len_idle
  len_elsewhere := fun hb => h.len_idle (h.scanner_idle hb).1

/-- CONFIG leaves no unit held, collected or bound from UNIT_MEM, CONFIG vp9 with inmode 1 (log 14) included. -/
theorem State.configure_segInvariants (s : State) (codec : Codec) (inmode : Bool) :
    (s.configure codec inmode).SegInvariants := by
  rw [State.configure_eq]
  exact
    { unitLen_bound := Nat.zero_le _
      bound_held := fun hv hs => absurd hs (s.unbindUnit_not_bound hv)
      info_held := fun _ => rfl
      len_outside := fun _ _ _ => rfl
      len_elsewhere := fun _ _ => rfl }

/-- A read command leaves the session, the segmenter and the binding as they are. -/
theorem exec_read_keeps_session {s t : State} {i : Instr} (hi : isReadCommand i = true) (he : exec i s = .next t) :
    t.params = s.params ∧ t.cfg = s.cfg ∧ t.pktLen = s.pktLen ∧ t.seg = s.seg ∧ t.rd.unitValid = s.rd.unitValid ∧
    t.rd.src = s.rd.src := by
  rcases exec_read_cases hi he with ⟨c, rfl⟩ | ⟨v, q, rfl, _⟩ | ⟨_, c, rfl⟩ <;>
    exact ⟨rfl, rfl, rfl, rfl, rfl, rfl⟩

theorem exec_keeps_segInvariants {s t : State} {i : Instr} (h : s.Inv) (he : exec i s = .next t) : t.SegInvariants := by
  have read : isReadCommand i = true → t.SegInvariants := fun hi => by
    obtain ⟨hparams, hcfg, _, hseg, hvalid, hsrc⟩ := exec_read_keeps_session hi he
    have hstream : t.byteStream = s.byteStream := by simp only [State.byteStream, hcfg]
    have hs := h.segInvariants
    exact
      { unitLen_bound := by rw [hseg, hparams]; exact hs.unitLen_bound
        bound_held := by rw [hseg, hvalid, hsrc]; exact hs.bound_held
        info_held := by rw [hseg]; exact hs.info_held
        len_outside := by rw [hseg, hstream]; exact hs.len_outside
        len_elsewhere := by rw [hseg, hstream]; exact hs.len_elsewhere }
  cases i with
  | config codec inmode => cases he; exact s.configure_segInvariants codec inmode
  | nop | sreset | loadUnit | segPacket | segNext => exact (exec_keeps_inv h _ rfl he).segInvariants
  | u | ue | se | uvlc | align | aligned | leb128 | su | le | ns | subexp | subexpRef => exact read rfl

/-- SEG_NEXT moves PKT_POS inside the packet (R206, R210; spec/45_segmenter_obu.md R222; spec/46_segmenter_vp9.md R243). -/
theorem State.modeNext_position (s : State) (h : s.seg.pktPos.toNat ≤ s.pktLen.toNat) :
    s.modeNext.seg.pktPos.toNat ≤ s.pktLen.toNat := by
  rcases s.modeNext_cases with ⟨_, e⟩ | ⟨_, hm⟩
  · rw [e]
    obtain ⟨_, hpos, _⟩ := nalScan_ends (s.pktLen.toNat - s.seg.pktPos.toNat) s
    exact hpos h
  · exact hm.position h

theorem segNext_keeps_pktPosInside {s t : State} (h : s.pktPosInside) (he : exec .segNext s = .next t) : t.pktPosInside := by
  rw [exec_segNext] at he
  injection he with he
  subst he
  split
  · exact h
  · split
    · rename_i ha
      intro hactive
      rw [State.needData_seg_active, State.release_seg_active, ha] at hactive
      cases hactive
    · rename_i ha
      have hpos := s.release.modeNext_position (by simpa using h (by simpa using ha))
      have hlen : s.release.modeNext.pktLen = s.release.pktLen := by rw [s.release.modeNext_ends.frame]; rfl
      exact fun _ => hlen ▸ hpos

/-- Every command keeps PKT_POS inside an active packet. -/
theorem exec_keeps_pktPosInside {s t : State} {i : Instr} (h : s.pktPosInside) (he : exec i s = .next t) :
    t.pktPosInside := by
  have same : t.seg = s.seg → t.pktLen = s.pktLen → t.pktPosInside := fun hseg hlen => by
    unfold State.pktPosInside
    rw [hseg, hlen]
    exact h
  cases i with
  | nop => cases he; exact h
  | sreset => cases he; exact fun ha => Bool.noConfusion ha
  | config codec inmode =>
    cases he
    rw [State.configure_eq]
    exact fun ha => Bool.noConfusion ha
  | loadUnit src epb =>
    rcases exec_loadUnit_cases he with ⟨c, _, rfl⟩ | ⟨_, _, rfl⟩ | ⟨_, _, rfl⟩ <;> exact h
  | segPacket eos eop disc =>
    rcases exec_segPacket_cases he with ⟨c, _, rfl⟩ | ⟨_, rfl | rfl⟩
    · exact h
    · exact fun _ => Nat.zero_le _
    · rw [State.parseSuperframeIndex_eq]
      exact fun _ => Nat.zero_le _
  | segNext => exact segNext_keeps_pktPosInside h he
  | u | ue | se | uvlc | align | aligned | leb128 | su | le | ns | subexp | subexpRef =>
    obtain ⟨_, _, hlen, hseg, _⟩ := exec_read_keeps_session rfl he
    exact same hseg hlen

/-- Settles O58: five of the invariants follow from the model's, PKT_POS's is kept by each command. -/
theorem commandsKeepSegmenterInvariants : Obligations.CommandsKeepSegmenterInvariants := by
  intro s t i h he
  have hs := exec_keeps_segInvariants h he
  exact ⟨hs.unitLen_bound, fun hp => exec_keeps_pktPosInside hp he, hs.bound_held, hs.info_held, hs.len_outside,
    hs.len_elsewhere⟩

end Sys2Proof.Machine
end

section
/-! The byte-stream mode of SEG_NEXT (spec/44_segmenter_nal.md R206 to R209): from the command to the unit that is collected, and
the ways the unit ends there: at a start code, at the packet's end, and where it outgrows UNIT_MAX. -/

namespace Sys2Proof.Machine

/-! ## Runs of bytes -/

theorem trailingZeros_append_replicate (bs : List Byte) (k : Nat) :
    trailingZeros (bs ++ List.replicate k 0x00) = trailingZeros bs + k := by
  induction k with
  | zero => simp
  | succ k ih => rw [List.replicate_succ', ← List.append_assoc, trailingZeros_zero, ih, Nat.add_assoc]

/-- A start code ends with 0x01, so zeros complete none. -/
theorem startCodeFree_zeros {bs : List Byte} (h : startCodeFree bs) (k : Nat) :
    startCodeFree (bs ++ List.replicate k 0x00) := by
  intro i hi hp
  obtain ⟨r, hr⟩ := hp
  have hone : (bs ++ List.replicate k 0x00)[i + 2]? = some 0x01 := by
    rw [← List.getElem?_drop, ← hr]; rfl
  by_cases hin : i + 2 < bs.length
  · refine h i (by omega) (List.prefix_of_prefix_length_le ⟨r, hr⟩ ?_ ?_)
    · rw [List.drop_append_of_le_length (by omega)]
      exact List.prefix_append _ _
    · rw [List.length_drop]
      show 3 ≤ _
      omega
  · rw [List.getElem?_append_right (by omega), List.getElem?_replicate] at hone
    split at hone <;> simp at hone

theorem Word.eq_ofNat {x : Word} {n : Nat} (h : x.toNat = n) : x = Word.ofNat n := by
  rw [← h]; simp

/-! ## From SEG_NEXT to the collected unit -/

/-- Held-back zeros belong to `w` when they cannot reach past it. -/
theorem State.zc_le_of_ahead {t : State} {w rest : List Byte} (h : t.ahead (w ++ rest))
    (hrest : 2 ≤ w.length ∨ rest.head? ≠ some 0x00) : t.seg.zc.val ≤ w.length := by
  have hz := t.seg.zc.isLt
  by_contra hlt
  have hzero : (w ++ rest)[w.length]? = some 0x00 := by
    rw [← List.getElem?_take_of_lt (by omega : w.length < t.seg.zc.val), h.1, List.getElem?_replicate, if_pos (by omega)]
  rw [List.getElem?_append_right le_rfl, Nat.sub_self, ← List.head?_eq_getElem?] at hzero
  rcases hrest with hw | hne
  · omega
  · exact hne hzero

/-- The scanner of SEG_NEXT from `s` has come to `u`: `lead` dropped, `c ++ w` collected, `rest` still to come. -/
structure State.Collected (s u : State) (c lead w rest : List Byte) : Prop where
  unit : u.InUnit c w
  frame : u = s.release.withCollected u
  packet : u.packetHas rest
  pos : u.seg.pktPos.toNat + rest.length = s.seg.pktPos.toNat + ((lead ++ w ++ rest).length - s.seg.zc.val)

theorem State.Collected.keeps {s u : State} {c lead w rest : List Byte} (h : s.Collected u c lead w rest) :
    u.params = s.params ∧ u.seg.active = s.seg.active ∧ u.seg.flags = s.seg.flags ∧ u.seg.held = false ∧
    u.result = s.result ∧ u.seg.unitCount = s.seg.unitCount := by
  rw [h.frame, State.release_eq]
  exact ⟨rfl, rfl, rfl, rfl, rfl, rfl⟩

/-- PKT_POS once the last byte is consumed. -/
theorem State.Collected.pos_byte {s u : State} {c lead w : List Byte} {b : Byte} (h : s.Collected u c lead w [b]) :
    u.consumeByte.2.seg.pktPos = s.scannedTo (lead ++ w ++ [b]) := by
  obtain ⟨hlt, _⟩ := State.packetHas_head h.packet
  exact Word.eq_ofNat ((u.consumeByte_pos hlt).trans h.pos)

theorem State.Collected.pos_end {s u : State} {c lead w : List Byte} (h : s.Collected u c lead w []) :
    u.seg.pktPos = s.scannedTo (lead ++ w) := by
  have hpos := h.pos
  rw [List.append_nil] at hpos
  exact Word.eq_ofNat hpos

/-- SEG_NEXT collects the bytes of a unit that fit and hold no start code. -/
theorem segNext_collects {s : State} {c lead w rest : List Byte} (h : s.Inv) (hv : s.cfg.valid = true)
    (hbs : s.byteStream = true) (ha : s.seg.active = true) (ho : s.unitOpens c lead)
    (hs : s.scanHolds (lead ++ w ++ rest)) (hrest : 2 ≤ w.length ∨ rest.head? ≠ some 0x00) (hf : startCodeFree w)
    (hfit : (c ++ w).length ≤ s.params.unitMax + min 2 (trailingZeros w)) :
    ∃ u left, exec .segNext s = .next (nalScan (left + rest.length) u) ∧
      left + (lead ++ w ++ rest).length = s.seg.zc.val + (s.pktLen.toNat - s.seg.pktPos.toNat) ∧
      s.Collected u c lead w rest := by
  rw [List.append_assoc] at hs ⊢
  obtain ⟨t, left, e1, hleft, r⟩ := segNext_leads s c lead (w ++ rest) h.unitMax_lt hv hbs ha ho hs
  have hz := State.zc_le_of_ahead r.ahead hrest
  have hparams : t.params = s.params := by rw [r.frame]; exact s.release_params
  obtain ⟨u, e2, hu, fu, hp, hpos⟩ := nalScan_collects t c w rest left (hparams ▸ h.unitMax_lt) r.unit r.ahead hz hf
    (.inl (hparams ▸ hfit))
  refine ⟨u, left, by rw [e1, e2], hleft, hu, State.withCollected_trans r.frame fu, hp, ?_⟩
  have hstart := r.pos
  rw [State.release_seg_pktPos, List.length_append] at hstart
  rw [List.append_assoc]
  omega

/-! ## The unit's last byte -/

theorem nalScan_unit (left : Nat) (s t : State) (b : Byte) (h : s.seg.pktPos.toNat < s.pktLen.toNat)
    (hb : s.pktByte s.seg.pktPos.toNat = b) (e : scanByte b s.consumeByte.2 = (.unit, t)) :
    nalScan (left + 1) s = t.emitUnit 0 := by
  have hc : s.consumeByte.1 = b := hb
  rw [nalScan, if_neg (by omega), hc, e]

theorem nalScan_overflow (left : Nat) (s t : State) (b : Byte) (h : s.seg.pktPos.toNat < s.pktLen.toNat)
    (hb : s.pktByte s.seg.pktPos.toNat = b) (e : scanByte b s.consumeByte.2 = (.overflow, t)) :
    nalScan (left + 1) s = t.segFail .unitTooLong := by
  have hc : s.consumeByte.1 = b := hb
  rw [nalScan, if_neg (by omega), hc, e]

/-- UNIT_MEM holds what is collected, up to UNIT_LEN. -/
theorem State.InUnit.unitHolds {u : State} {c w v : List Byte} (h : u.InUnit c w) (hv : v <+: c ++ w)
    (hlen : v.length ≤ u.seg.unitLen.toNat) : u.unitHolds v := by
  intro i hi
  obtain ⟨r, hr⟩ := hv
  rw [h.bytes i (by omega), ← hr, List.getD_eq_getElem?_getD, List.getElem?_append_left hi, List.getElem?_eq_getElem hi]
  rfl

/-- Settles O45: the unit and two zeros are collected, and 0x01 completes the start code. -/
theorem nalUnitBetweenStartCodes : Obligations.NalUnitBetweenStartCodes := by
  intro s c lead w h hv hbs ha ho hne hmax hf hs
  have hcode : lead ++ w ++ startCode = lead ++ (w ++ List.replicate 2 0x00) ++ [0x01] := by simp [startCode]
  have htz := trailingZeros_append_replicate w 2
  have hlen : (c ++ (w ++ List.replicate 2 0x00)).length = (c ++ w).length + 2 := by simp; omega
  rw [hcode] at hs ⊢
  obtain ⟨u, left, e, _, hu⟩ := segNext_collects h hv hbs ha ho hs (.inr (by simp)) hf (by rw [hlen, htz]; omega)
  obtain ⟨_, hactive, _⟩ := hu.keeps
  obtain ⟨hlt, hb⟩ := State.packetHas_head hu.packet
  have hzc : u.seg.zc.val = 2 := by rw [hu.unit.count, htz]; omega
  have hunit : u.seg.unitLen.toNat = (c ++ w).length := by
    have := hu.unit.len
    omega
  have hsome : 0 < u.seg.unitLen.toNat := by rw [hunit]; exact List.length_pos_iff.mpr hne
  have hscan := scanByte_startCode u.consumeByte.2 (Fin.ext hzc)
  rw [if_pos ⟨hu.unit.inUnit, hsome⟩] at hscan
  have hholds : u.unitHolds (c ++ w) :=
    hu.unit.unitHolds (by rw [← List.append_assoc]; exact List.prefix_append _ _) hunit.ge
  rw [List.length_singleton, nalScan_unit left u _ 0x01 hlt hb hscan] at e
  exact ⟨_, e, rfl, rfl, hholds, Word.eq_ofNat hunit, Word.eq_ofNat hunit, rfl, hu.pos_byte, hactive.trans ha,
    hu.unit.inUnit, rfl, rfl⟩

/-! ## The packet's end -/

/-- The unit that ends with its packet, the held-back zeros stored (R208). -/
theorem State.InUnit.close {u : State} {c w : List Byte} (h : u.InUnit c w)
    (hend : u.seg.flags.eop = true ∨ u.seg.flags.eos = true) (hm : u.params.unitMax < 2 ^ 32)
    (hfit : (c ++ w).length ≤ u.params.unitMax) :
    ∃ m : State, u.endOfPacket = (if m.seg.unitLen.toNat > 0 then m.emitUnit 0 else m.needData) ∧
      m.seg.inUnit = false ∧ m.seg.zc = 0 ∧ m.seg.held = u.seg.held ∧ m.seg.unitLen.toNat = (c ++ w).length ∧
      m.unitHolds (c ++ w) := by
  have hlen := h.len
  have hroom : u.closeUnit.seg.unitLen.toNat + u.seg.zc.val ≤ u.closeUnit.params.unitMax := by
    show u.seg.unitLen.toNat + _ ≤ u.params.unitMax
    omega
  have hframe := State.appendZeros_frame u.seg.zc.val u.closeUnit
  refine ⟨u.closeUnit.appendZeros u.seg.zc.val, ?_, ?_, ?_, ?_, ?_, fun i hi => ?_⟩
  · rw [State.endOfPacket_close u hend h.inUnit, if_neg (by omega)]
  · rw [hframe]; rfl
  · rw [hframe]; rfl
  · rw [hframe]; rfl
  · exact (State.appendZeros_len u.seg.zc.val u.closeUnit hm hroom).trans hlen
  · have hget : (c ++ w).getD i 0 = (c ++ w)[i] := List.getD_eq_getElem _ _ hi
    rw [State.appendZeros_unitByte u.seg.zc.val u.closeUnit hm hroom, ← hget]
    show (if u.seg.unitLen.toNat ≤ i ∧ i < u.seg.unitLen.toNat + u.seg.zc.val then 0 else u.unitByte i) = _
    by_cases hzero : u.seg.unitLen.toNat ≤ i
    · rw [if_pos (by omega), h.zeros i hzero hi]
    · rw [if_neg (by omega), h.bytes i (by omega)]

/-- The first part of O46: a unit is open when its packet ends. -/
theorem segNext_unitAtPacketEnd {s : State} {c lead w : List Byte} (h : s.Inv) (hv : s.cfg.valid = true)
    (hbs : s.byteStream = true) (ha : s.seg.active = true) (ho : s.unitOpens c lead)
    (hfit : (c ++ w).length ≤ s.params.unitMax + min 2 (trailingZeros w)) (hf : startCodeFree w)
    (hs : s.scanHolds (lead ++ w)) (hend : s.scanEndsWith (lead ++ w)) :
    ∃ u : State, exec .segNext s = .next u.endOfPacket ∧ s.Collected u c lead w [] := by
  rw [← List.append_nil (lead ++ w)] at hs
  obtain ⟨u, left, e, hleft, hu⟩ := segNext_collects h hv hbs ha ho hs (.inr (by simp)) hf hfit
  have h0 : left = 0 := by
    rw [List.append_nil, hend] at hleft
    omega
  subst h0
  exact ⟨u, e, hu⟩

/-- The second part of O46: no unit is open and the packet opens none. -/
theorem segNext_packetWithoutUnit {s : State} {pre : List Byte} (hv : s.cfg.valid = true) (hbs : s.byteStream = true)
    (ha : s.seg.active = true) (hu : s.seg.inUnit = false) (hf : startCodeFree pre) (hs : s.scanHolds pre)
    (hend : s.scanEndsWith pre) :
    ∃ u : State, exec .segNext s = .next u.endOfPacket ∧
      u = { s.release with seg := { s.release.seg with zc := u.seg.zc, pktPos := u.seg.pktPos } } ∧
      u.seg.pktPos = s.scannedTo pre ∧ u.seg.zc.val = min 2 (trailingZeros pre) := by
  have hz := s.seg.zc.isLt
  obtain ⟨htake, hpacket⟩ := State.scanHolds_release hs
  rw [State.release_seg_zc] at htake hpacket
  have hpre : List.replicate s.seg.zc.val 0x00 ++ pre.drop s.seg.zc.val = pre := by
    rw [← htake]; exact List.take_append_drop _ _
  have hdrop : (pre.drop s.seg.zc.val).length = s.pktLen.toNat - s.seg.pktPos.toNat := by
    have : pre.length = _ := hend
    rw [List.length_drop]; omega
  obtain ⟨u, e, hframe, hpos, hzc⟩ := nalScan_outside (pre.drop s.seg.zc.val) s.release
    (List.replicate s.seg.zc.val 0x00) 0 (by simpa using hu)
    (by rw [State.release_seg_zc, trailingZeros_replicate]; omega) (by rw [hpre]; exact hf) hpacket
  rw [hpre] at hzc
  rw [Nat.zero_add, hdrop] at e
  refine ⟨u, by rw [segNext_scans s hv hbs ha, e, nalScan], hframe, Word.eq_ofNat ?_, hzc⟩
  rw [hpos, State.release_seg_pktPos, List.length_drop]

/-- Settles O46: what EndOfPacket makes of the unit that is open, and of none. -/
theorem nalUnitAtPacketEnd : Obligations.NalUnitAtPacketEnd := by
  refine ⟨fun s c lead w h hv hbs ha ho hfit hf hs hend => ?_, fun s pre h hv hbs ha hu hf hs hend => ?_⟩
  · obtain ⟨u, e, hu⟩ := segNext_unitAtPacketEnd h hv hbs ha ho hfit hf hs hend
    obtain ⟨hparams, _, hflags, hheld, _⟩ := hu.keeps
    obtain ⟨_, hinactive, hpos, _⟩ := u.endOfPacket_ends
    refine ⟨_, e, hinactive, hpos.trans hu.pos_end, fun hlast hmax => ?_, fun heop heos => ?_⟩
    · obtain ⟨m, hm, hin, hzc, hmheld, hlen, hholds⟩ :=
        hu.unit.close (hflags ▸ hlast) (hparams ▸ h.unitMax_lt) (hparams ▸ hmax)
      by_cases hne : c ++ w = []
      · have h0 : m.seg.unitLen.toNat = 0 := by rw [hlen, hne]; rfl
        rw [hm, if_neg (by omega)]
        exact ⟨rfl, hin, hzc, fun hn => absurd hne hn, fun _ => ⟨rfl, hmheld.trans hheld, BitVec.eq_of_toNat_eq h0⟩⟩
      · rw [hm, if_pos (by rw [hlen]; exact List.length_pos_iff.mpr hne)]
        exact ⟨rfl, hin, hzc, fun _ => ⟨rfl, hholds, Word.eq_ofNat hlen⟩, fun hn => absurd hn hne⟩
    · rw [State.endOfPacket_carry u (hflags ▸ heop) (hflags ▸ heos)]
      exact ⟨rfl, rfl, hheld, hu.unit.inUnit, hu.unit.count, hu.unit.len,
        hu.unit.unitHolds (List.take_prefix _ _) (List.length_take_le _ _)⟩
  · obtain ⟨u, e, hframe, hpos, hzc⟩ := segNext_packetWithoutUnit hv hbs ha hu hf hs hend
    have hflags : u.seg.flags = s.seg.flags := by rw [hframe, State.release_seg_flags]
    have hin : u.seg.inUnit = false := by rw [hframe, ← hu, State.release_seg_inUnit]
    have hheld : u.seg.held = false := by rw [hframe, State.release_eq]
    have hlen : u.seg.unitLen = 0 := by
      rw [hframe]
      exact h.release.len_idle (by simpa using hu) (by rw [State.release_eq])
    have hmem : u.unitMem = s.unitMem := by rw [hframe, State.release_unitMem]
    have hresult : u.result = s.result := by rw [hframe, State.release_result]
    have hcount : u.seg.unitCount = s.seg.unitCount := by rw [hframe, State.release_seg_unitCount]
    rw [← hflags]
    by_cases hlast : u.seg.flags.eop = true ∨ u.seg.flags.eos = true
    · rw [if_pos hlast]
      rw [State.endOfPacket_idle u hlast hin] at e
      exact ⟨_, e, rfl, rfl, rfl, hpos, hin, hheld, hlen, hmem, hresult, hcount, rfl⟩
    · rw [if_neg hlast]
      obtain ⟨heop, heos⟩ : u.seg.flags.eop = false ∧ u.seg.flags.eos = false := by simpa using hlast
      rw [State.endOfPacket_carry u heop heos] at e
      exact ⟨_, e, rfl, rfl, rfl, hpos, hin, hheld, hlen, hmem, hresult, hcount, hzc⟩

/-! ## A unit that outgrows UNIT_MAX -/

/-- A full unit with up to two zeros held back behind it. -/
theorem segNext_fills {s : State} {c lead w rest : List Byte} {k : Nat} (h : s.Inv) (hv : s.cfg.valid = true)
    (hbs : s.byteStream = true) (ha : s.seg.active = true) (ho : s.unitOpens c lead)
    (hfull : (c ++ w).length = s.params.unitMax) (hk : k ≤ 2) (hf : startCodeFree w)
    (hs : s.scanHolds (lead ++ (w ++ List.replicate k 0x00) ++ rest)) (hrest : k = 2 ∨ rest.head? ≠ some 0x00) :
    ∃ u left, exec .segNext s = .next (nalScan (left + rest.length) u) ∧
      left + (lead ++ (w ++ List.replicate k 0x00) ++ rest).length =
        s.seg.zc.val + (s.pktLen.toNat - s.seg.pktPos.toNat) ∧
      s.Collected u c lead (w ++ List.replicate k 0x00) rest ∧
      u.seg.unitLen.toNat + u.seg.zc.val = u.params.unitMax + k := by
  have htz := trailingZeros_append_replicate w k
  have hlen : (c ++ (w ++ List.replicate k 0x00)).length = s.params.unitMax + k := by
    rw [← hfull]; simp; omega
  obtain ⟨u, left, e, hleft, hu⟩ := segNext_collects h hv hbs ha ho hs
    (hrest.imp (fun hk2 => by simp [hk2]) id) (startCodeFree_zeros hf k) (by rw [hlen, htz]; omega)
  obtain ⟨hparams, _⟩ := hu.keeps
  exact ⟨u, left, e, hleft, hu, by rw [hu.unit.len, hlen, hparams]⟩

/-- What Overflow and its error leave (R207). -/
theorem unitDropped_scanOverflow {s m : State} (hheld : m.seg.held = false) (hresult : m.result = s.result)
    (hcount : m.seg.unitCount = s.seg.unitCount) : unitDropped s (m.scanOverflow.segFail .unitTooLong) :=
  ⟨rfl, rfl, rfl, rfl, rfl, rfl, hheld, hresult, hcount⟩

/-- A data byte behind a full unit and the zeros held back (R207). -/
theorem State.Collected.overflow_data {s u : State} {c lead w : List Byte} {b : Byte} (hu : s.Collected u c lead w [b])
    (hfull : u.params.unitMax ≤ u.seg.unitLen.toNat + u.seg.zc.val) (hb : b ≠ 0x00) (hf : startCodeFree (w ++ [b]))
    (left : Nat) :
    nalScan (left + 1) u = (u.consumeByte.2.setZc 0).scanOverflow.segFail .unitTooLong := by
  obtain ⟨hlt, hbyte⟩ := State.packetHas_head hu.packet
  have hcode : ¬ (b = 0x01 ∧ u.consumeByte.2.seg.zc = 2) := by
    rintro ⟨h1, hz⟩
    have hzc : u.seg.zc.val = 2 := congrArg Fin.val hz
    have hcount := hu.unit.count
    exact startCodeFree_data hf (by omega) h1
  have hscan := scanByte_data b u.consumeByte.2 hb hcode
  have hin : u.consumeByte.2.seg.inUnit = true := hu.unit.inUnit
  have hover : u.consumeByte.2.seg.unitLen.toNat + u.consumeByte.2.seg.zc.val + 1 > u.consumeByte.2.params.unitMax :=
    Nat.lt_succ_of_le hfull
  rw [if_pos hin, if_pos hover] at hscan
  exact nalScan_overflow left u _ b hlt hbyte hscan

/-- A third zero behind a full unit (R207). -/
theorem State.Collected.overflow_zero {s u : State} {c lead w : List Byte} (hu : s.Collected u c lead w [0x00])
    (hfull : u.params.unitMax ≤ u.seg.unitLen.toNat) (hz : u.seg.zc = 2) (left : Nat) :
    nalScan (left + 1) u = u.consumeByte.2.scanOverflow.segFail .unitTooLong := by
  obtain ⟨hlt, hbyte⟩ := State.packetHas_head hu.packet
  have hscan := scanByte_zero u.consumeByte.2 hz
  have hin : u.consumeByte.2.seg.inUnit = true := hu.unit.inUnit
  have hover : u.consumeByte.2.seg.unitLen.toNat + 1 > u.consumeByte.2.params.unitMax := Nat.lt_succ_of_le hfull
  rw [if_pos hin, if_pos hover] at hscan
  exact nalScan_overflow left u _ 0x00 hlt hbyte hscan

/-- Settles O47: the three places where a full unit takes one byte more. -/
theorem nalUnitTooLongIsDropped : Obligations.NalUnitTooLongIsDropped := by
  intro s c lead w h hv hbs ha ho hfull
  refine ⟨fun k b hk hb hf hs => ?data, fun hf => ⟨fun hs => ?zero, fun k hk1 hk hlast hs hend => ?packetEnd⟩⟩
  case data =>
    have hbytes : lead ++ w ++ List.replicate k 0x00 ++ [b] = lead ++ (w ++ List.replicate k 0x00) ++ [b] := by simp
    rw [hbytes] at hs ⊢
    obtain ⟨u, left, e, _, hu, hlen⟩ := segNext_fills h hv hbs ha ho hfull hk
      (startCodeFree_left (startCodeFree_left hf)) hs (.inr (by simpa using hb))
    obtain ⟨_, hactive, _, hheld, hresult, hcount⟩ := hu.keeps
    rw [List.length_singleton, hu.overflow_data (by omega) hb hf left] at e
    exact ⟨_, e, unitDropped_scanOverflow hheld hresult hcount, hactive.trans ha, rfl, hu.pos_byte⟩
  case zero =>
    have hbytes : lead ++ w ++ [0x00, 0x00, 0x00] = lead ++ (w ++ List.replicate 2 0x00) ++ [0x00] := by simp
    rw [hbytes] at hs ⊢
    obtain ⟨u, left, e, _, hu, hlen⟩ := segNext_fills h hv hbs ha ho hfull le_rfl hf hs (.inl rfl)
    obtain ⟨_, hactive, _, hheld, hresult, hcount⟩ := hu.keeps
    have hzc : u.seg.zc.val = 2 := by rw [hu.unit.count, trailingZeros_append_replicate]; omega
    rw [List.length_singleton, hu.overflow_zero (by omega) (Fin.ext hzc) left] at e
    exact ⟨_, e, unitDropped_scanOverflow hheld hresult hcount, hactive.trans ha, Fin.ext hzc, hu.pos_byte⟩
  case packetEnd =>
    have hbytes : lead ++ w ++ List.replicate k 0x00 = lead ++ (w ++ List.replicate k 0x00) ++ [] := by simp
    rw [hbytes] at hs hend ⊢
    obtain ⟨u, left, e, hleft, hu, hlen⟩ := segNext_fills h hv hbs ha ho hfull hk hf hs (.inr (by simp))
    obtain ⟨_, _, hflags, hheld, hresult, hcount⟩ := hu.keeps
    have h0 : left = 0 := by
      rw [hend] at hleft
      omega
    subst h0
    rw [show nalScan (0 + [].length) u = u.endOfPacket from rfl,
      State.endOfPacket_close u (hflags ▸ hlast) hu.unit.inUnit, if_pos (by omega)] at e
    refine ⟨_, e, ⟨rfl, rfl, rfl, rfl, rfl, rfl, hheld, hresult, hcount⟩, rfl, rfl, ?_⟩
    rw [List.append_nil]
    exact hu.pos_end

/-! ## A split start code -/

/-- Settles O48: the carried bytes are the unit of O45 with none to come, and O43 says that no byte is stored. -/
theorem splitStartCodeEndsUnit : Obligations.SplitStartCodeEndsUnit := by
  intro s h hv hbs ha hheld hin hsome hlen hcode
  have hz := s.seg.zc.isLt
  have hc : (s.unitBytes s.seg.unitLen.toNat).length = s.seg.unitLen.toNat := s.unitBytes_length _
  have hopens : s.unitOpens (s.unitBytes s.seg.unitLen.toNat) [] :=
    ⟨0, .inl ⟨hin, by rw [hheld, hc]; rfl, fun i hi => by simp [State.unitBytes], .inr rfl, rfl⟩⟩
  have hzeros : ∀ z : Fin 3, startCode.take z.val = List.replicate z.val 0x00 := by decide
  obtain ⟨t, he, h1, h2, _, h4, h5, h6, h7, h8, h9, h10, _⟩ :=
    nalUnitBetweenStartCodes s (s.unitBytes s.seg.unitLen.toNat) [] [] h hv hbs ha hopens
      (List.length_pos_iff.mp (by rw [List.append_nil, hc]; exact hsome))
      (by rw [List.append_nil, hc]; exact h.unitLen_bound)
      (by unfold startCodeFree; decide)
      ⟨hzeros s.seg.zc, by show 3 ≤ _; omega, hcode⟩
  rw [List.append_nil, hc] at h4 h5
  have hword : Word.ofNat s.seg.unitLen.toNat = s.seg.unitLen := by simp
  obtain ⟨hbelow, habove, _⟩ := segNextStoresTheUnitOnly s t h he
  refine ⟨t, he, h1, h2, h4.trans hword, fun i => ?_, h5.trans hword, h6, h8, h9, h10, h7⟩
  by_cases hi : i < s.seg.unitLen.toNat
  · exact hbelow i (by rw [hheld]; exact hi)
  · exact habove (by rw [h1]; decide) i (by rw [h4, hword]; omega)

end Sys2Proof.Machine
end

section
/-! The AV1 modes of SEG_NEXT (spec/45_segmenter_obu.md R220 to R231): what a header, a size field and an `obu_length` at PKT_POS
are parsed as, and what SEG_NEXT makes of the parsed OBU or of the parse's failure. -/

namespace Sys2Proof.Machine

/-! ## Bytes of the packet -/

/-- Bytes that stand in the packet one run after the other. -/
theorem State.pktHolds_append {s : State} {start : Nat} {as bs : List Byte} (h : s.pktHolds start (as ++ bs)) :
    s.pktHolds start as ∧ s.pktHolds (start + as.length) bs := by
  obtain ⟨hmax, hb⟩ := h
  have hlen := List.length_append (as := as) (bs := bs)
  refine ⟨⟨by omega, fun i hi => ?_⟩, ⟨by omega, fun i hi => ?_⟩⟩
  · rw [hb i (by omega), List.getElem_append_left hi]
  · rw [Nat.add_assoc, hb (as.length + i) (by omega), List.getElem_append_right (by omega)]
    simp

theorem State.pktHolds_take {s : State} {start : Nat} {bs : List Byte} (n : Nat) (h : s.pktHolds start bs) :
    s.pktHolds start (bs.take n) := by
  rw [← List.take_append_drop n bs] at h
  exact (State.pktHolds_append h).1

/-- The release leaves the OBU at PKT_POS where it is. -/
theorem State.release_obuAt {s : State} {start stop : Nat} (h : s.obuAt start stop) : s.release.obuAt start stop := by
  rw [State.release_eq]; exact h

theorem State.release_parseObu (s : State) (start stop : Nat) :
    s.release.parseObu start stop = s.parseObu start stop := by
  rw [State.release_eq]; rfl

theorem State.release_readPktLeb (s : State) (start stop : Nat) :
    s.release.readPktLeb start stop = s.readPktLeb start stop := by
  rw [State.release_eq]; rfl

/-! ## The header -/

theorem getLsbD_eq_decide {n : Nat} (b : BitVec n) (i : Nat) : b.getLsbD i = decide (b.toNat / 2 ^ i % 2 = 1) :=
  Nat.testBit_eq_decide_div_mod_eq

theorem getLsbD_of_toNat {n i : Nat} {b : BitVec n} {v : Bool} (h : b.toNat / 2 ^ i % 2 = v.toNat) : b.getLsbD i = v := by
  rw [getLsbD_eq_decide, h]
  cases v <;> rfl

theorem extractLsb'_toNat_eq {n : Nat} (b : BitVec n) (i k : Nat) :
    (b.extractLsb' i k).toNat = b.toNat / 2 ^ i % 2 ^ k := by
  rw [BitVec.extractLsb'_toNat, Nat.shiftRight_eq_div_pow]

/-- Bit 7, the forbidden bit (R223). -/
theorem Byte.getLsbD_seven (b : Byte) : b.getLsbD 7 = decide (0x80 ≤ b.toNat) := by
  have := b.isLt
  rw [getLsbD_eq_decide, decide_eq_decide]
  omega

/-- The `obu_type` field of a header byte without the forbidden bit (spec/30_encoding.md R105). -/
theorem Byte.obuType_toNat {b : Byte} (h : b.toNat < 0x80) : (b.extractLsb' 3 4).toNat = b.toNat / 8 := by
  rw [extractLsb'_toNat_eq]
  omega

theorem State.parseObuHeader_empty (s : State) (start : Nat) : s.parseObuHeader start start = .error .obuTrunc :=
  if_pos le_rfl

theorem State.parseObuHeader_forbidden {s : State} {start stop : Nat} (hlt : start < stop)
    (hf : 0x80 ≤ (s.pktByte start).toNat) : s.parseObuHeader start stop = .error .obuForbidden := by
  rw [State.parseObuHeader, if_neg (by omega)]
  simp only
  rw [Byte.getLsbD_seven, if_pos (by simpa using hf)]

theorem State.parseObuHeader_type {s : State} {start stop : Nat} (hlt : start < stop)
    (hf : (s.pktByte start).toNat < 0x80) (ht : (s.pktByte start).toNat / 8 ∉ s.params.obuValidTypes) :
    s.parseObuHeader start stop = .error .obuType := by
  rw [State.parseObuHeader, if_neg (by omega)]
  simp only
  rw [Byte.getLsbD_seven, if_neg (by simpa using hf), Byte.obuType_toNat hf, if_pos (by simpa using ht)]

/-- The extension byte lies at or past the end (R229). -/
theorem State.parseObuHeader_truncated {s : State} {start : Nat} (hf : (s.pktByte start).toNat < 0x80)
    (ht : (s.pktByte start).toNat / 8 ∈ s.params.obuValidTypes) (he : (s.pktByte start).toNat / 4 % 2 = 1) :
    s.parseObuHeader start (start + 1) = .error .obuTrunc := by
  rw [State.parseObuHeader, if_neg (by omega)]
  simp only
  rw [Byte.getLsbD_seven, if_neg (by simpa using hf), Byte.obuType_toNat hf, if_neg (by simpa using ht),
    getLsbD_eq_decide, if_pos (by simpa using he), if_pos le_rfl]

/-- The header fields that `obuHeaderBytes` writes (spec/30_encoding.md R105, R106); without an extension byte its fields are
0 (R223). -/
def obuHeaderOf (ty : Nat) (hasSize rsv : Bool) (ext : Option Byte) : ObuHeader where
  obuType := ty
  ext := ext.isSome
  hasSize := hasSize
  rsv := rsv
  temporalId := (ext.getD 0).toNat / 32
  spatialId := (ext.getD 0).toNat / 8 % 4
  extRsv := (ext.getD 0).toNat % 8

theorem obuHeaderBytes_length (ty : Nat) (hasSize rsv : Bool) (ext : Option Byte) :
    (obuHeaderBytes ty hasSize rsv ext).length = 1 + ext.isSome.toNat := by
  cases ext <;> rfl

theorem obuHeaderBytes_length_le (ty : Nat) (hasSize rsv : Bool) (ext : Option Byte) :
    1 ≤ (obuHeaderBytes ty hasSize rsv ext).length ∧ (obuHeaderBytes ty hasSize rsv ext).length ≤ 2 := by
  have := ext.isSome.toNat_le
  rw [obuHeaderBytes_length]
  omega

/-- The first header byte as a number (spec/30_encoding.md R105). -/
theorem State.toNat_pktByte_obuHeader {s : State} {start ty : Nat} {hasSize rsv : Bool} {ext : Option Byte} (hty : ty < 16)
    (hh : s.pktHolds start (obuHeaderBytes ty hasSize rsv ext)) :
    (s.pktByte start).toNat = 8 * ty + 4 * ext.isSome.toNat + 2 * hasSize.toNat + rsv.toNat := by
  have hb : s.pktByte start = _ := hh.2 0 (obuHeaderBytes_length_le ty hasSize rsv ext).1
  rw [hb]
  simp only [obuHeaderBytes, List.getElem_cons_zero, toNat_append_eq_add, BitVec.toNat_ofBool, BitVec.toNat_ofNat]
  omega

/-- A header of an accepted type inside its bounds is parsed as the fields it was written from (R223). -/
theorem State.parseObuHeader_obuHeaderBytes {s : State} {start stop ty : Nat} {hasSize rsv : Bool} {ext : Option Byte}
    (hty : ty < 16) (hvalid : ty ∈ s.params.obuValidTypes) (hh : s.pktHolds start (obuHeaderBytes ty hasSize rsv ext))
    (hfit : start + (obuHeaderBytes ty hasSize rsv ext).length ≤ stop) :
    s.parseObuHeader start stop =
      .ok (obuHeaderOf ty hasSize rsv ext, (obuHeaderBytes ty hasSize rsv ext).length) := by
  have hb := State.toNat_pktByte_obuHeader hty hh
  have hlen := (obuHeaderBytes_length_le ty hasSize rsv ext).1
  have hrsv := rsv.toNat_le
  have hsize := hasSize.toNat_le
  have hext := ext.isSome.toNat_le
  have hf : (s.pktByte start).toNat < 0x80 := by omega
  have htype : (s.pktByte start).toNat / 8 = ty := by omega
  have h0 : (s.pktByte start).getLsbD 0 = rsv := getLsbD_of_toNat (by omega)
  have h1 : (s.pktByte start).getLsbD 1 = hasSize := getLsbD_of_toNat (by omega)
  have h2 : (s.pktByte start).getLsbD 2 = ext.isSome := getLsbD_of_toNat (by omega)
  rw [State.parseObuHeader, if_neg (by omega)]
  simp only
  rw [Byte.getLsbD_seven, if_neg (by simpa using hf), Byte.obuType_toNat hf, htype, if_neg (by simpa using hvalid), h0,
    h1, h2]
  cases ext with
  | none => rfl
  | some b1 =>
    have hb1 : s.pktByte (start + 1) = b1 := hh.2 1 (by simp [obuHeaderBytes])
    have hlt : start + 1 < stop := hfit
    have := b1.isLt
    rw [if_pos Option.isSome_some, if_neg (by omega), hb1, extractLsb'_toNat_eq, extractLsb'_toNat_eq, extractLsb'_toNat_eq,
      Nat.mod_eq_of_lt (by omega : b1.toNat / 2 ^ 5 < 2 ^ 3), pow_zero, Nat.div_one]
    rfl

/-- UNIT_INFO as a sum of its fields, each inside its width (spec/10_state.md R42). -/
theorem ObuHeader.unitInfo_eq {h : ObuHeader} {hl : Nat} (hty : h.obuType < 2 ^ 4) (htid : h.temporalId < 2 ^ 3)
    (hsid : h.spatialId < 2 ^ 2) (hrsv : h.extRsv < 2 ^ 3) (hhl : hl < 2 ^ 8) :
    h.unitInfo hl =
      Word.ofNat (h.obuType + 2 ^ 4 * h.ext.toNat + 2 ^ 5 * h.hasSize.toNat + 2 ^ 6 * h.rsv.toNat +
        2 ^ 7 * h.temporalId + 2 ^ 10 * h.spatialId + 2 ^ 12 * h.extRsv + 2 ^ 16 * hl) := by
  apply BitVec.eq_of_toNat_eq
  have := h.rsv.toNat_le
  have := h.hasSize.toNat_le
  have := h.ext.toNat_le
  simp only [ObuHeader.unitInfo, toNat_append_eq_add, BitVec.toNat_ofBool, BitVec.toNat_ofNat, Nat.mod_eq_of_lt hty,
    Nat.mod_eq_of_lt htid, Nat.mod_eq_of_lt hsid, Nat.mod_eq_of_lt hrsv, Nat.mod_eq_of_lt hhl]
  omega

theorem unitInfo_obuHeaderOf {ty hl : Nat} (hasSize rsv : Bool) (ext : Option Byte) (hty : ty < 16) (hhl : hl < 2 ^ 8) :
    (obuHeaderOf ty hasSize rsv ext).unitInfo hl =
      Word.ofNat (ty + 2 ^ 4 * ext.isSome.toNat + 2 ^ 5 * hasSize.toNat + 2 ^ 6 * rsv.toNat +
        2 ^ 7 * ((ext.getD 0).toNat / 32) + 2 ^ 10 * ((ext.getD 0).toNat / 8 % 4) +
        2 ^ 12 * ((ext.getD 0).toNat % 8) + 2 ^ 16 * hl) :=
  ObuHeader.unitInfo_eq hty (Nat.div_lt_of_lt_mul (ext.getD 0).isLt) (Nat.mod_lt _ (by decide)) (Nat.mod_lt _ (by decide))
    hhl

/-! ## The parse of an OBU -/

/-- A failing header check ends the parse with its cause (R223). -/
theorem State.parseObu_badHeader {s : State} {start stop : Nat} {c : Cause} (h : s.parseObuHeader start stop = .error c) :
    s.parseObu start stop = .error c := by
  rw [State.parseObu, h]

section
variable {s : State} {start stop ty : Nat} {rsv : Bool} {ext : Option Byte}

/-- An OBU without a size field takes all its bounds leave (R222, R226). -/
theorem State.parseObu_withoutSize (hty : ty < 16) (hvalid : ty ∈ s.params.obuValidTypes)
    (hh : s.pktHolds start (obuHeaderBytes ty false rsv ext))
    (hfit : start + (obuHeaderBytes ty false rsv ext).length ≤ stop) :
    s.parseObu start stop =
      .ok (obuHeaderOf ty false rsv ext, (obuHeaderBytes ty false rsv ext).length,
        stop - (start + (obuHeaderBytes ty false rsv ext).length)) := by
  rw [State.parseObu, State.parseObuHeader_obuHeaderBytes hty hvalid hh hfit]
  rfl

/-- A size field that gives no value (R224). -/
theorem State.parseObu_badSize (hty : ty < 16) (hvalid : ty ∈ s.params.obuValidTypes)
    (hh : s.pktHolds start (obuHeaderBytes ty true rsv ext))
    (hfit : start + (obuHeaderBytes ty true rsv ext).length ≤ stop)
    (hbad : s.badLeb (start + (obuHeaderBytes ty true rsv ext).length) stop) :
    s.parseObu start stop = .error .obuLeb128 := by
  rw [State.parseObu, State.parseObuHeader_obuHeaderBytes hty hvalid hh hfit]
  simp only [obuHeaderOf, if_true, State.readPktLeb_badLeb s _ _ hbad]

/-- A size field that gives a value: the size either fits the bounds or is OBU_SIZE (R222, R226). -/
theorem State.parseObu_withSize {n size : Nat} (hty : ty < 16) (hvalid : ty ∈ s.params.obuValidTypes)
    (hh : s.pktHolds start (obuHeaderBytes ty true rsv ext)) (h1 : 1 ≤ n) (h8 : n ≤ 8) (hsize : size < 2 ^ (7 * n))
    (hword : size ≤ 2 ^ 32 - 1)
    (hleb : s.pktHolds (start + (obuHeaderBytes ty true rsv ext).length) (lebBytes n size))
    (hfit : start + ((obuHeaderBytes ty true rsv ext).length + n) ≤ stop) :
    s.parseObu start stop =
      if start + ((obuHeaderBytes ty true rsv ext).length + n) + size > stop then .error .obuSize
      else .ok (obuHeaderOf ty true rsv ext, (obuHeaderBytes ty true rsv ext).length + n, size) := by
  have hread := s.readPktLeb_lebBytes _ stop n size h1 h8 hsize hword (by omega) hleb.2
  rw [State.parseObu, State.parseObuHeader_obuHeaderBytes hty hvalid hh (by omega)]
  simp only [hread]
  rfl

end

/-! ## SEG_NEXT on the parsed OBU -/

/-- What SEG_NEXT makes of a parsed OBU (R225): PKT_POS moves to `next`, the packet stays active, and the payload is emitted
with its UNIT_INFO, or skipped when longer than UNIT_MAX. -/
def State.TakesObu (s t : State) (next : Nat) (payload : List Byte) (info : Word) : Prop :=
  t.seg.active = true ∧ t.seg.pktPos = Word.ofNat next ∧
  (payload.length ≤ s.params.unitMax →
    t.seg.result = .unit ∧ t.seg.unitLen = Word.ofNat payload.length ∧ t.unitHolds payload ∧ t.seg.unitInfo = info) ∧
  (s.params.unitMax < payload.length →
    t.seg.result = .error ∧ t.seg.cause = .unitTooLong ∧ t.seg.unitLen = 0 ∧ t.unitMem = s.unitMem)

/-- An active packet's SEG_NEXT runs the session's mode from the released state (spec/44_segmenter_nal.md R204). -/
theorem segNext_modeNext {s : State} (hv : s.cfg.valid = true) (ha : s.seg.active = true) :
    exec .segNext s = .next s.release.modeNext := by
  rw [exec_segNext, if_neg (by simp [hv]), if_neg (by simp [ha])]

/-- A packet abandoned after the release (R228). -/
theorem packetAbandoned_abandon (s : State) (c : Cause) : packetAbandoned s (s.release.abandon c) c := by
  obtain ⟨_, hlen, _, _, hmem, hresult, _, hcount, hheld, _⟩ := s.release_keeps
  exact ⟨hlen, rfl, rfl, hheld, rfl, rfl, rfl, rfl, hresult, hcount, hmem⟩

section
variable {s : State} {start stop : Nat}

/-- SEG_NEXT takes the OBU that is parsed; the next one begins behind its payload, or in Annex B behind what `obu_length`
covers (R222, R226). -/
theorem State.takesObu_of_parseObu {h : ObuHeader} {hl : Nat} {payload : List Byte} (hc : s.cfg.codec = .av1)
    (ha : s.seg.active = true) (hlt : s.seg.pktPos.toNat < s.pktLen.toNat) (hat : s.obuAt start stop)
    (hp : s.parseObu start stop = .ok (h, hl, payload.length)) (hb : s.pktHolds (start + hl) payload) :
    s.TakesObu s.release.modeNext (if s.cfg.inmode then stop else start + hl + payload.length) payload (h.unitInfo hl) := by
  obtain ⟨hpos, hlen, hparams, hcfg, hmem, _, hactive, _, _, hbyte⟩ := s.release_keeps
  rw [s.release.modeNext_obuAt start stop (hcfg ▸ hc) (by rwa [hpos, hlen]) (State.release_obuAt hat),
    State.release_parseObu, hp, hcfg]
  simp only
  obtain ⟨hact, hnext, hfits, hlong⟩ := s.release.copyOrSkip_spec (start + hl) payload.length
    (if s.cfg.inmode then stop else start + hl + payload.length) h hl
  rw [hparams] at hfits hlong
  refine ⟨by rw [hact, hactive, ha], hnext, fun hmax => ?_, fun hmax => ?_⟩
  · obtain ⟨hresult, hunit, hinfo, hcopied⟩ := hfits hmax
    exact ⟨hresult, hunit, fun i hi => by rw [hcopied i hi, hbyte, hb.2 i hi], hinfo⟩
  · obtain ⟨hresult, hcause, hunit, hstored⟩ := hlong hmax
    exact ⟨hresult, hcause, hunit, hstored.trans hmem⟩

/-- An `obu_length` inside the packet and the bytes it covers (R226). -/
theorem State.obuAt_annexB {nl len : Nat} (hi : s.cfg.inmode = true) (h1 : 1 ≤ nl) (h8 : nl ≤ 8) (hlen : len < 2 ^ (7 * nl))
    (hb : s.pktHolds s.seg.pktPos.toNat (lebBytes nl len)) (hfit : s.seg.pktPos.toNat + nl + len ≤ s.pktLen.toNat) :
    s.obuAt (s.seg.pktPos.toNat + nl) (s.seg.pktPos.toNat + nl + len) := by
  refine .inr ⟨hi, Nat.le_add_right _ _, hfit, nl, h1, h8, rfl, ?_⟩
  rw [Nat.add_sub_cancel_left]
  exact ⟨hlen, hb⟩

/-- An OBU that is not empty begins inside the packet. -/
theorem State.pktPos_lt_of_obuAt (hat : s.obuAt start stop) (hlt : start < stop) :
    s.seg.pktPos.toNat < s.pktLen.toNat := by
  rcases hat with ⟨_, rfl, rfl⟩ | ⟨_, _, hstop, nl, hnl, _, rfl, _⟩
  · exact hlt
  · omega

/-- SEG_NEXT abandons the packet with the cause that ends the parse (R228). -/
theorem packetAbandoned_of_parseObu {c : Cause} (hc : s.cfg.codec = .av1)
    (hlt : s.seg.pktPos.toNat < s.pktLen.toNat) (hat : s.obuAt start stop) (hp : s.parseObu start stop = .error c) :
    packetAbandoned s s.release.modeNext c := by
  obtain ⟨hpos, hlen, _, hcfg, _⟩ := s.release_keeps
  rw [s.release.modeNext_obuAt start stop (hcfg ▸ hc) (by rwa [hpos, hlen]) (State.release_obuAt hat),
    State.release_parseObu, hp]
  exact packetAbandoned_abandon s c

end

/-! ## OBUs that are taken -/

/-- Settles O50: the size field gives the payload's length, and the next OBU begins right behind it. -/
theorem obuWithSizeIsEmitted : Obligations.ObuWithSizeIsEmitted := by
  intro s ty n rsv ext payload hv hc hi ha hty hvalid h1 h8 hsize hholds hfit
  obtain ⟨hleading, hpayload⟩ := State.pktHolds_append hholds
  obtain ⟨hheader, hleb⟩ := State.pktHolds_append hleading
  rw [List.length_append, lebBytes_length] at hpayload
  have hhdr := obuHeaderBytes_length_le ty true rsv ext
  have hword := s.pktLen.isLt
  have hp := State.parseObu_withSize (stop := s.pktLen.toNat) hty hvalid hheader h1 h8 hsize (by omega) hleb (by omega)
  rw [if_neg (by omega)] at hp
  have ht := State.takesObu_of_parseObu hc ha (by omega) (.inl ⟨hi, rfl, rfl⟩) hp hpayload
  rw [unitInfo_obuHeaderOf true rsv ext hty (by omega), hi, if_neg Bool.false_ne_true, Nat.add_assoc] at ht
  exact ⟨_, segNext_modeNext hv ha, ht⟩

/-- Settles O51: what the bounds leave behind the header is the payload, so both modes go on at the OBU's end. -/
theorem obuWithoutSizeTakesRest : Obligations.ObuWithoutSizeTakesRest := by
  intro s start ty rsv ext payload hv hc ha hty hvalid hat hholds
  obtain ⟨hheader, hpayload⟩ := State.pktHolds_append hholds
  have hhdr := obuHeaderBytes_length_le ty false rsv ext
  have hp := State.parseObu_withoutSize hty hvalid hheader (Nat.add_le_add_left (Nat.le_add_right _ payload.length) start)
  rw [← Nat.add_assoc, Nat.add_sub_cancel_left] at hp
  rw [← Nat.add_assoc] at hat ⊢
  have ht := State.takesObu_of_parseObu hc ha (State.pktPos_lt_of_obuAt hat (by omega)) hat hp hpayload
  rw [unitInfo_obuHeaderOf false rsv ext hty (by omega), ite_self] at ht
  exact ⟨_, segNext_modeNext hv ha, ht⟩

/-- Settles O52: `obu_length` gives the bounds, the size field the payload inside them. -/
theorem annexBObuIsEmitted : Obligations.AnnexBObuIsEmitted := by
  intro s ty nl n size rsv ext body hv hc hi ha hty hvalid h1 h8 hsize hword hl1 hl8 hlen hholds hfit
  obtain ⟨hleading, hbody⟩ := State.pktHolds_append hholds
  obtain ⟨hleading, hleb⟩ := State.pktHolds_append hleading
  obtain ⟨hlength, hheader⟩ := State.pktHolds_append hleading
  simp only [List.length_append, lebBytes_length, ← Nat.add_assoc] at hbody hleb hheader
  have hhdr := obuHeaderBytes_length_le ty true rsv ext
  have hat := State.obuAt_annexB hi hl1 hl8 hlen hlength (by omega)
  have hlt := State.pktPos_lt_of_obuAt hat (by omega)
  have hp := State.parseObu_withSize hty hvalid hheader h1 h8 hsize hword hleb
    (Nat.add_le_add_left (Nat.le_add_right _ body.length) _)
  refine ⟨_, segNext_modeNext hv ha, fun hle => ?fits, fun hgt => ?exceeds⟩
  case fits =>
    have htake : (body.take size).length = size := List.length_take_of_le hle
    rw [if_neg (by omega)] at hp
    have ht := State.takesObu_of_parseObu (payload := body.take size) hc ha hlt hat (by rw [htake]; exact hp)
      (by rw [← Nat.add_assoc]; exact State.pktHolds_take size hbody)
    rw [unitInfo_obuHeaderOf true rsv ext hty (by omega), hi, if_pos rfl, State.TakesObu, htake] at ht
    simpa only [Nat.add_assoc, Bool.toNat_true, Nat.mul_one] using ht
  case exceeds =>
    rw [if_pos (by omega)] at hp
    exact packetAbandoned_of_parseObu hc hlt hat hp

/-! ## OBUs that abandon the packet -/

/-- Both modes end a packet that is used up (R222, R226). -/
theorem State.modeNext_packetEnd {s : State} (hc : s.cfg.codec = .av1) (hend : s.pktLen.toNat ≤ s.seg.pktPos.toNat) :
    s.modeNext = s.obuPacketEnd := by
  unfold State.modeNext
  rw [hc]
  cases s.cfg.inmode <;> exact if_pos hend

/-- What the packet's end changes, the release with it (spec/44_segmenter_nal.md R204). -/
theorem State.release_obuPacketEnd (s : State) :
    s.release.obuPacketEnd =
      { s with
        rd := s.readerAfterRelease
        seg := { s.seg with
          result := .needData, cause := .ok, active := false, held := false
          unitLen := if s.seg.held then 0 else s.seg.unitLen
          unitInfo := if s.seg.held then 0 else s.seg.unitInfo }
        lastOk := true, lastCause := .ok } := by
  rw [← s.release_rd, State.release_eq]
  rfl

/-- The mode of an Annex B session (spec/44_segmenter_nal.md R200). -/
theorem State.release_modeNext_annexB {s : State} (hc : s.cfg.codec = .av1) (hi : s.cfg.inmode = true) :
    s.release.modeNext = s.release.annexBNext := by
  obtain ⟨_, _, _, hcfg, _⟩ := s.release_keeps
  rw [State.modeNext, hcfg, hc, hi]
  rfl

/-- An `obu_length` that gives no value (R224, R226). -/
theorem packetAbandoned_of_badLength {s : State} (hc : s.cfg.codec = .av1) (hi : s.cfg.inmode = true)
    (hlt : s.seg.pktPos.toNat < s.pktLen.toNat) (hbad : s.badLeb s.seg.pktPos.toNat s.pktLen.toNat) :
    packetAbandoned s s.release.modeNext .obuLeb128 := by
  obtain ⟨hpos, hlen, _⟩ := s.release_keeps
  have hread := s.readPktLeb_badLeb _ _ hbad
  rw [State.release_modeNext_annexB hc hi, State.annexBNext, hpos, hlen, State.release_readPktLeb]
  simp only [hread]
  rw [if_neg (by omega)]
  exact packetAbandoned_abandon s _

/-- An `obu_length` past the packet's end (R226). -/
theorem packetAbandoned_of_longLength {s : State} {nl len : Nat} (hc : s.cfg.codec = .av1) (hi : s.cfg.inmode = true)
    (hlt : s.seg.pktPos.toNat < s.pktLen.toNat)
    (hread : s.readPktLeb s.seg.pktPos.toNat s.pktLen.toNat = .ok (len, nl))
    (hlong : s.pktLen.toNat < s.seg.pktPos.toNat + (nl + len)) : packetAbandoned s s.release.modeNext .obuSize := by
  obtain ⟨hpos, hlen, _⟩ := s.release_keeps
  rw [State.release_modeNext_annexB hc hi, State.annexBNext, hpos, hlen, State.release_readPktLeb]
  simp only [hread]
  rw [if_neg (by omega), if_pos (by omega)]
  exact packetAbandoned_abandon s _

/-- Settles O53: the packet's end, each way the OBU fails to parse, and each way `obu_length` does. -/
theorem badObuAbandonsPacket : Obligations.BadObuAbandonsPacket := by
  intro s hv hc ha
  obtain ⟨hpos, hlen, _, hcfg, _⟩ := s.release_keeps
  have hnext := segNext_modeNext hv ha
  refine ⟨fun hend => ?packetEnd, fun hlt => ⟨_, hnext, fun start stop hat => ?obu, fun hi => ?annexB⟩⟩
  case packetEnd =>
    rw [hnext, State.modeNext_packetEnd (hcfg ▸ hc) (by rwa [hpos, hlen]), State.release_obuPacketEnd]
  case obu =>
    have abandons : ∀ c, s.parseObu start stop = .error c → packetAbandoned s s.release.modeNext c :=
      fun _ => packetAbandoned_of_parseObu hc hlt hat
    refine ⟨fun hempty => ?empty, fun hin hf => ?forbidden, fun hin hf ht => ?type, fun hone hf ht he => ?truncated,
      fun ty rsv ext hty hvalid hheader hfit => ⟨fun hbad => ?badSize, fun n size h1 h8 hsize hword hleb hin hlong => ?long⟩⟩
    case empty =>
      subst hempty
      exact abandons _ (State.parseObu_badHeader (s.parseObuHeader_empty start))
    case forbidden => exact abandons _ (State.parseObu_badHeader (State.parseObuHeader_forbidden hin hf))
    case type => exact abandons _ (State.parseObu_badHeader (State.parseObuHeader_type hin hf ht))
    case truncated =>
      subst hone
      exact abandons _ (State.parseObu_badHeader (State.parseObuHeader_truncated hf ht he))
    case badSize => exact abandons _ (State.parseObu_badSize hty hvalid hheader hfit hbad)
    case long =>
      have hp := State.parseObu_withSize hty hvalid hheader h1 h8 hsize hword hleb hin
      rw [if_pos (by omega)] at hp
      exact abandons _ hp
  case annexB =>
    exact ⟨packetAbandoned_of_badLength hc hi hlt, fun nl len h1 h8 hsize hword hleb hin =>
      packetAbandoned_of_longLength hc hi hlt (s.readPktLeb_lebBytes _ _ nl len h1 h8 hsize hword hin hleb.2)⟩

end Sys2Proof.Machine
end

section
/-! The VP9 superframe (spec/46_segmenter_vp9.md R240 to R247): which packets carry a trusted index, what SEG_PACKET
takes from it, and what SEG_NEXT makes of each frame it lists. -/

namespace Sys2Proof.Machine

/-! ## The marker byte -/

/-- R111's marker of an index of `n` sizes in `mag` bytes each. -/
def indexMarker (mag n : Nat) : Byte := 0b110#3 ++ BitVec.ofNat 2 (mag - 1) ++ BitVec.ofNat 3 (n - 1)

theorem superframeIndex_eq (mag : Nat) (sizes : List Nat) :
    superframeIndex mag sizes =
      [indexMarker mag sizes.length] ++ sizes.flatMap (leBytes mag) ++ [indexMarker mag sizes.length] := rfl

theorem Byte.isMarker_iff (b : Byte) : b &&& 0xE0 = 0xC0 ↔ b.toNat / 2 ^ 5 = 0b110 := by
  revert b; decide

/-- R111's field ranges: 1 to 4 bytes per size, 1 to 8 sizes. -/
structure IndexShape (mag n : Nat) : Prop where
  mag_pos : 1 ≤ mag
  mag_le : mag ≤ 4
  count_pos : 1 ≤ n
  count_le : n ≤ 8

section
variable {mag n : Nat}

theorem indexMarker_toNat (hshape : IndexShape mag n) : (indexMarker mag n).toNat = 0xC0 + 8 * (mag - 1) + (n - 1) := by
  obtain ⟨h1, h4, hn1, hn8⟩ := hshape
  rw [indexMarker, toNat_append_add, toNat_append_add, BitVec.toNat_ofNat, BitVec.toNat_ofNat, BitVec.toNat_ofNat]
  omega

theorem indexMarker_isMarker (hshape : IndexShape mag n) : (indexMarker mag n).toNat / 2 ^ 5 = 0b110 := by
  rw [indexMarker_toNat hshape]
  obtain ⟨h1, h4, hn1, hn8⟩ := hshape
  omega

theorem markerFrames_indexMarker (hshape : IndexShape mag n) : markerFrames (indexMarker mag n) = n := by
  rw [markerFrames, extractLsb'_toNat_eq, indexMarker_toNat hshape]
  obtain ⟨_, h4, hn1, hn8⟩ := hshape
  omega

theorem markerMag_indexMarker (hshape : IndexShape mag n) : markerMag (indexMarker mag n) = mag := by
  rw [markerMag, extractLsb'_toNat_eq, indexMarker_toNat hshape]
  obtain ⟨h1, h4, _, hn8⟩ := hshape
  omega

theorem markerIndexSize_indexMarker (hshape : IndexShape mag n) : markerIndexSize (indexMarker mag n) = 2 + mag * n := by
  rw [markerIndexSize, markerMag_indexMarker hshape, markerFrames_indexMarker hshape]

end

/-! ## The sizes -/

theorem flatMap_leBytes_length (mag : Nat) (sizes : List Nat) :
    (sizes.flatMap (leBytes mag)).length = mag * sizes.length := by
  induction sizes with
  | nil => rfl
  | cons x xs ih => rw [List.flatMap_cons, List.length_append, leBytes_length, ih, List.length_cons]; ring

/-- In a run of little-endian sizes the i-th stands `i * mag` bytes in. -/
theorem State.pktHolds_leBytes_of_flatMap {s : State} {mag start : Nat} {sizes : List Nat}
    (h : s.pktHolds start (sizes.flatMap (leBytes mag))) (i : Nat) (hi : i < sizes.length) :
    s.pktHolds (start + i * mag) (leBytes mag sizes[i]) := by
  induction sizes generalizing start i with
  | nil => simp at hi
  | cons x xs ih =>
    obtain ⟨hfirst, hrest⟩ := State.pktHolds_append h
    rw [leBytes_length] at hrest
    cases i with
    | zero => simpa using hfirst
    | succ i =>
      rw [show start + (i + 1) * mag = start + mag + i * mag by ring]
      exact ih hrest i (by simpa using hi)

/-- Reading back a little-endian number (R241). -/
theorem State.pktLe_leBytes {s : State} {start n v : Nat} (hv : v < 2 ^ (8 * n)) (h : s.pktHolds start (leBytes n v)) :
    s.pktLe start n = v := by
  have hdigits : ∀ k, k ≤ n → s.pktLe start k = v % 2 ^ (8 * k) := fun k hk => by
    induction k with
    | zero => simp [State.pktLe, Nat.mod_one]
    | succ k ih =>
      have hin : k < (leBytes n v).length := by rw [leBytes_length]; exact hk
      rw [State.pktLe, ih (Nat.le_of_succ_le hk), h.2 k hin, leBytes_getElem, Nat.mul_succ, pow_add, Nat.mod_mul]
      exact congrArg _ (Nat.mul_comm _ _)
  rw [hdigits n le_rfl, Nat.mod_eq_of_lt hv]

/-! ## The trusted index -/

/-- R241's tests: the packet ends in a marker byte, has room for the index it announces, and repeats it where the index
begins. -/
theorem State.superframeMarker_eq_some_iff {s : State} {m : Byte} :
    s.superframeMarker = some m ↔
      s.pktLen.toNat ≠ 0 ∧ s.pktByte (s.pktLen.toNat - 1) = m ∧ m.toNat / 2 ^ 5 = 0b110 ∧
      markerIndexSize m ≤ s.pktLen.toNat ∧ s.pktByte (s.pktLen.toNat - markerIndexSize m) = m := by
  simp only [State.superframeMarker, ← Byte.isMarker_iff]
  constructor
  · intro h
    split_ifs at h with h0 hmark hroom hfirst
    obtain rfl := Option.some.inj h
    exact ⟨h0, rfl, not_not.mp hmark, Nat.le_of_not_lt hroom, not_not.mp hfirst⟩
  · rintro ⟨h0, rfl, hmark, hroom, hfirst⟩
    rw [if_neg h0, if_neg (not_not.mpr hmark), if_neg hroom.not_gt, if_neg (not_not.mpr hfirst)]

/-- The parser sees PKT_MEM and PKT_LEN alone, which accepting a packet leaves as they are. -/
theorem State.acceptPacket_index (s : State) (eos eop disc : Bool) :
    (s.acceptPacket eos eop disc).superframeMarker = s.superframeMarker ∧
    ∀ m i, (s.acceptPacket eos eop disc).frameSize m i = s.frameSize m i := by
  have hbyte : ∀ i, (s.acceptPacket eos eop disc).pktByte i = s.pktByte i := fun i =>
    State.pktByte_congr s _ (by rw [State.acceptPacket_eq]) (by rw [State.acceptPacket_eq]) i
  have hlen : (s.acceptPacket eos eop disc).pktLen = s.pktLen := by rw [State.acceptPacket_eq]
  have hle : ∀ start n, (s.acceptPacket eos eop disc).pktLe start n = s.pktLe start n := fun start n => by
    induction n with
    | zero => rfl
    | succ n ih => rw [State.pktLe, State.pktLe, ih, hbyte]
  exact ⟨by simp only [State.superframeMarker, hbyte, hlen], fun m i => by simp only [State.frameSize, hle, hlen]⟩

/-- An accepted VP9 packet without a trusted index, and one with it (R241). -/
theorem exec_segPacket_vp9 {s : State} (eos eop disc : Bool) (hv : s.cfg.valid = true) (hc : s.cfg.codec = .vp9)
    (hidle : s.seg.active = false ∨ disc = true) (hlen : s.pktLen.toNat ≤ s.params.pktMax) :
    ∃ t, exec (.segPacket eos eop disc) s = .next t ∧
      (s.superframeMarker = none → noIndex t) ∧
      ∀ m, s.superframeMarker = some m →
        t.seg.sfCount = Word.ofNat (markerFrames m) ∧ t.seg.sfIndexSize = Word.ofNat (markerIndexSize m) ∧
        ∀ i, (h : i < 8) → t.seg.sfSize[i] = s.frameSize m i := by
  have hbusy : ¬ (s.seg.active = true ∧ disc = false) := by
    rcases hidle with h | h <;> simp [h]
  obtain ⟨hmarker, hsize⟩ := s.acceptPacket_index eos eop disc
  refine ⟨_, exec_segPacket s eos eop disc, fun hnone => ?_, fun m hm => ?_⟩ <;>
    rw [if_neg (by simp [hv]), if_neg hlen.not_gt, if_neg hbusy, if_pos hc]
  · rw [State.parseSuperframeIndex, hmarker, hnone]
    exact ⟨rfl, rfl, fun i hi => by simp [State.acceptPacket]⟩
  · rw [← hmarker] at hm
    refine ⟨?_, ?_, fun i hi => ?_⟩
    · rw [State.parseSuperframeIndex, hm]; rfl
    · rw [State.parseSuperframeIndex, hm]; rfl
    · rw [← hsize]
      exact State.parseSuperframeIndex_sfSize _ m hm i hi

section
variable {s : State} {mag dataLen : Nat} {sizes : List Nat}

/-- An index at the packet's end is trusted. -/
theorem State.superframeMarker_superframeIndex (hshape : IndexShape mag sizes.length)
    (hlen : s.pktLen.toNat = dataLen + (2 + mag * sizes.length)) (hholds : s.pktHolds dataLen (superframeIndex mag sizes)) :
    s.superframeMarker = some (indexMarker mag sizes.length) := by
  rw [superframeIndex_eq] at hholds
  obtain ⟨hfront, hlast⟩ := State.pktHolds_append hholds
  obtain ⟨hfirst, _⟩ := State.pktHolds_append hfront
  have hfirst := hfirst.2 0 Nat.one_pos
  have hlast := hlast.2 0 Nat.one_pos
  rw [List.length_append, flatMap_leBytes_length] at hlast
  rw [State.superframeMarker_eq_some_iff, markerIndexSize_indexMarker hshape, hlen]
  refine ⟨by omega, ?_, indexMarker_isMarker hshape, by omega, ?_⟩
  · rwa [show dataLen + (2 + mag * sizes.length) - 1 =
      dataLen + ([indexMarker mag sizes.length].length + mag * sizes.length) + 0 by rw [List.length_singleton]; omega]
  · rwa [Nat.add_sub_cancel]

/-- Each listed size is read back; beyond them the registers are 0 (R247; spec/10_state.md R44). -/
theorem State.frameSize_superframeIndex (hshape : IndexShape mag sizes.length)
    (hfit : ∀ x ∈ sizes, x < 2 ^ (8 * mag)) (hlen : s.pktLen.toNat = dataLen + (2 + mag * sizes.length))
    (hholds : s.pktHolds dataLen (superframeIndex mag sizes)) (i : Nat) :
    s.frameSize (indexMarker mag sizes.length) i = Word.ofNat (sizes.getD i 0) := by
  rw [State.frameSize, markerFrames_indexMarker hshape, markerMag_indexMarker hshape,
    markerIndexSize_indexMarker hshape, hlen, Nat.add_sub_cancel]
  by_cases hi : i < sizes.length
  · rw [superframeIndex_eq] at hholds
    obtain ⟨_, hsizes⟩ := State.pktHolds_append (State.pktHolds_append hholds).1
    rw [List.length_singleton] at hsizes
    rw [if_pos hi, State.pktLe_leBytes (hfit _ (List.getElem_mem hi)) (State.pktHolds_leBytes_of_flatMap hsizes i hi),
      List.getD_eq_getElem _ _ hi]
  · rw [if_neg hi, List.getD_eq_default _ _ (Nat.le_of_not_lt hi)]; rfl

end

/-- Settles O54: SEG_PACKET sets the SF_* registers from the marker R241's tests leave, and each of the four packets
fails one of the tests. -/
theorem superframeIndexRoundTrip : Obligations.SuperframeIndexRoundTrip := by
  intro s eos eop disc hv hc hidle hlen
  obtain ⟨t, he, hnone, hsome⟩ := exec_segPacket_vp9 eos eop disc hv hc hidle hlen
  have untrusted : (∀ m, s.superframeMarker ≠ some m) → noIndex t := fun h =>
    hnone (Option.eq_none_iff_forall_ne_some.mpr h)
  simp only [ne_eq, State.superframeMarker_eq_some_iff] at untrusted
  refine ⟨t, he, fun hempty => ?empty, fun htrailer => ?trailer, fun mag sizes h1 h4 hn1 hn8 hfit =>
    have hshape : IndexShape mag sizes.length := ⟨h1, h4, hn1, hn8⟩
    ⟨fun dataLen hsize hholds => ?index, fun hmarker hbad => ?mismatch⟩⟩
  case empty =>
    refine untrusted fun m ⟨h0, _⟩ => h0 ?_
    rw [hempty]; rfl
  case trailer =>
    refine untrusted fun m ⟨_, hlast, hmark, _⟩ => htrailer ?_
    rw [hlast]; exact hmark
  case index =>
    obtain ⟨hcount, hindexSize, hsizes⟩ := hsome _ (State.superframeMarker_superframeIndex hshape hsize hholds)
    rw [markerFrames_indexMarker hshape] at hcount
    rw [markerIndexSize_indexMarker hshape] at hindexSize
    exact ⟨hcount, hindexSize, fun i hi =>
      (hsizes i hi).trans (State.frameSize_superframeIndex hshape hfit hsize hholds i)⟩
  case mismatch =>
    refine untrusted fun m ⟨_, hlast, _, hroom, hfirst⟩ => ?_
    have hm : m = indexMarker mag sizes.length := hlast.symm.trans hmarker
    have hindexSize : markerIndexSize m = 2 + mag * sizes.length := by
      rw [hm, markerIndexSize_indexMarker hshape]
    rw [hindexSize] at hroom hfirst
    rcases hbad with hshort | hdiffers
    · omega
    · exact hdiffers (hfirst.trans hlast.symm)

/-! ## The listed frames -/

/-- UNIT_INFO of frame i: FRAME_IDX = i and IN_SF (R243). -/
theorem frameInfo_eq {i : Nat} (hi : i < 16) : frameInfo i = Word.ofNat (i + 16) := by
  refine Word.eq_ofNat ?_
  rw [frameInfo, toNat_append_add, toNat_append_add, BitVec.toNat_ofNat, BitVec.toNat_ofNat, BitVec.toNat_ofNat]
  omega

theorem Segmenter.frameBytes_of_listed {g : Segmenter} {i : Nat} {w : Word} (h : g.sfSize.toList[i]? = some w) :
    i < 8 ∧ g.frameBytes i = w.toNat := by
  obtain ⟨hi, hw⟩ := List.getElem?_eq_some_iff.mp h
  rw [Vector.length_toList] at hi
  exact ⟨hi, by rw [Segmenter.frameBytes, dif_pos hi, ← hw, Vector.getElem_toList]⟩

/-- The segmenter past a listed frame that ends at packet offset `next` (R243). -/
def State.passFrame (next : Nat) (s : State) : State :=
  { s with seg := { s.seg with sfNext := s.seg.sfNext + 1, sfBase := Word.ofNat next, pktPos := Word.ofNat next } }

section
variable {s : State}

/-- VP9's SEG_NEXT of a packet with an index runs R243's steps from the released state. -/
theorem segNext_vp9Next (hv : s.cfg.valid = true) (hc : s.cfg.codec = .vp9) (ha : s.seg.active = true) :
    exec .segNext s = .next s.release.vp9Next := by
  rw [segNext_modeNext hv ha, State.modeNext, State.release_cfg, hc]

/-- Every listed frame is emitted: the packet is used up. -/
theorem State.vp9Next_end (h0 : s.seg.sfCount ≠ 0) (hend : s.seg.sfNext = s.seg.sfCount) :
    s.vp9Next = s.usePacket.needData := by
  rw [State.vp9Next, if_neg h0, if_pos hend]; rfl

/-- The next listed frame of `sz` bytes, by its three cases (R243, R245). -/
theorem State.vp9Next_frame {sz : Nat} (h0 : s.seg.sfCount ≠ 0) (hnext : s.seg.sfNext ≠ s.seg.sfCount)
    (hsz : s.seg.frameBytes s.seg.sfNext.toNat = sz) :
    s.vp9Next =
      if s.pktLen.toNat < s.seg.sfBase.toNat + sz + s.seg.sfIndexSize.toNat then s.abandon .sfSize
      else if s.params.unitMax < sz then (s.passFrame (s.seg.sfBase.toNat + sz)).dropLongUnit
      else ((s.passFrame (s.seg.sfBase.toNat + sz)).copyUnit s.seg.sfBase.toNat sz).emitUnit
        (frameInfo s.seg.sfNext.toNat) := by
  subst hsz
  rw [State.vp9Next, if_neg h0, if_neg hnext]; rfl

end

/-- Settles O55: R243's cases, from the released state. -/
theorem superframeFramesAreEmittedInOrder : Obligations.SuperframeFramesAreEmittedInOrder := by
  intro s sz _ hv hc ha h0
  obtain ⟨_, hlen, hparams, _, _, _, hactive, _, _, hbyte⟩ := s.release_keeps
  have h0' : s.release.seg.sfCount ≠ 0 := by rwa [State.release_seg_sfCount]
  refine ⟨_, segNext_vp9Next hv hc ha, fun hend => ?finished, fun hnext hlisted hword => ?frame⟩
  case finished =>
    rw [State.vp9Next_end h0' (by simpa using hend)]
    exact ⟨rfl, rfl, hlen⟩
  case frame =>
    rw [← s.release_seg_sfSize, ← s.release_seg_sfNext] at hlisted
    obtain ⟨hi, hbytes⟩ := Segmenter.frameBytes_of_listed hlisted
    rw [State.release_seg_sfNext] at hi
    rw [BitVec.toNat_ofNat, Nat.mod_eq_of_lt hword] at hbytes
    have hmode := State.vp9Next_frame h0' (by simpa using hnext) hbytes
    rw [hlen, hparams, State.release_seg_sfBase, State.release_seg_sfIndexSize, State.release_seg_sfNext] at hmode
    rw [hmode]
    refine ⟨fun hbad => ?badSize, fun hinside => ?inside⟩
    case badSize =>
      rw [if_pos hbad]
      exact packetAbandoned_abandon s _
    case inside =>
      rw [if_neg hinside.not_gt]
      by_cases hlong : s.params.unitMax < sz
      · rw [if_pos hlong]
        exact ⟨congrArg (· + 1) s.release_seg_sfNext, rfl, rfl, hactive.trans ha, fun hfit => absurd hlong hfit.not_gt,
          fun _ => ⟨rfl, rfl, rfl⟩⟩
      · rw [if_neg hlong]
        refine ⟨congrArg (· + 1) s.release_seg_sfNext, rfl, rfl, hactive.trans ha, fun hfit =>
          ⟨rfl, rfl, frameInfo_eq (by omega), fun i hin => ?_⟩, fun h => absurd h hlong⟩
        have hcopy := State.copyUnit_unitByte s.seg.sfBase.toNat sz (s.release.passFrame (s.seg.sfBase.toNat + sz))
          (hparams ▸ hfit) i
        rw [if_pos hin] at hcopy
        exact hcopy.trans (hbyte _)

end Sys2Proof.Machine
end

section
/-! The errors' own guarantees (spec/60_exceptions.md): no command reads the status a refusal writes (R264, R268), and every
access ends in a next state (R260, R273 to R275). -/

namespace Sys2Proof.Machine

/-! ## A refused state under the operations that leave CMD_STATUS alone -/

theorem State.unbindUnit_refuse (c : Cause) (s : State) : (s.refuse c).unbindUnit = s.unbindUnit.refuse c := by
  have hrd : (s.refuse c).unbindUnit.rd = s.unbindUnit.rd := by rw [State.unbindUnit_rd_eq, State.unbindUnit_rd_eq]; rfl
  rw [State.unbindUnit_eq, State.unbindUnit_eq s, hrd]
  rfl

theorem State.release_refuse (c : Cause) (s : State) : (s.refuse c).release = s.release.refuse c := by
  rw [State.release_eq, State.release_eq, State.unbindUnit_refuse]
  rfl

theorem State.streamFlush_refuse (c : Cause) (s : State) : (s.refuse c).streamFlush = s.streamFlush.refuse c := by
  rw [State.streamFlush, State.unbindUnit_refuse]
  rfl

theorem State.acceptPacket_refuse (c : Cause) (s : State) (eos eop disc : Bool) :
    (s.refuse c).acceptPacket eos eop disc = (s.acceptPacket eos eop disc).refuse c := by
  cases disc
  · rfl
  · simp only [State.acceptPacket, if_true, State.streamFlush_refuse]
    rfl

theorem State.pktLe_refuse (c : Cause) (s : State) (start n : Nat) : (s.refuse c).pktLe start n = s.pktLe start n := by
  induction n with
  | zero => rfl
  | succ n ih =>
    rw [State.pktLe, State.pktLe, ih]
    rfl

theorem State.parseSuperframeIndex_refuse (c : Cause) (s : State) :
    (s.refuse c).parseSuperframeIndex = s.parseSuperframeIndex.refuse c := by
  have hmarker : (s.refuse c).superframeMarker = s.superframeMarker := rfl
  have hsize : ∀ m i, (s.refuse c).frameSize m i = s.frameSize m i := fun m i => by
    simp only [State.frameSize, State.pktLe_refuse, State.refuse_pktLen]
  simp only [State.parseSuperframeIndex, hmarker, hsize]
  split <;> rfl

theorem State.appendZeros_refuse (c : Cause) (n : Nat) (s : State) :
    (s.refuse c).appendZeros n = (s.appendZeros n).refuse c := by
  induction n generalizing s with
  | zero => rfl
  | succ n ih => exact ih (s.appendByte 0)

/-- The scanner looks at the segmenter and at UNIT_MAX only (spec/44_segmenter_nal.md R207). -/
theorem scanByte_refuse (c : Cause) (b : Byte) (s : State) :
    scanByte b (s.refuse c) = Prod.map id (State.refuse c) (scanByte b s) := by
  by_cases hb : b = 0x00
  · subst hb
    by_cases hz : s.seg.zc = 2
    · rw [scanByte_zero s hz, scanByte_zero (s.refuse c) hz, apply_ite (Prod.map _ _), apply_ite (Prod.map _ _)]
      rfl
    · rw [scanByte_count s hz, scanByte_count (s.refuse c) hz]
      rfl
  · by_cases h1 : b = 0x01 ∧ s.seg.zc = 2
    · obtain ⟨rfl, hz⟩ := h1
      rw [scanByte_startCode s hz, scanByte_startCode (s.refuse c) hz, apply_ite (Prod.map _ _)]
      rfl
    · have hzeros : ((s.refuse c).setZc 0).appendZeros s.seg.zc.val = ((s.setZc 0).appendZeros s.seg.zc.val).refuse c :=
        (s.setZc 0).appendZeros_refuse c _
      rw [scanByte_data b s hb h1, scanByte_data b (s.refuse c) hb h1, apply_ite (Prod.map _ _), apply_ite (Prod.map _ _),
        State.refuse_seg, hzeros]
      rfl

/-! ## A refused state under the operations that end a command -/

theorem State.endOfPacket_of_refuse (c : Cause) (s : State) : (s.refuse c).endOfPacket = s.endOfPacket := by
  by_cases he : s.seg.flags.eop = true ∨ s.seg.flags.eos = true
  · cases hu : s.seg.inUnit
    · rw [s.endOfPacket_idle he hu, (s.refuse c).endOfPacket_idle he hu]
      rfl
    · have hzeros : (s.refuse c).closeUnit.appendZeros s.seg.zc.val = (s.closeUnit.appendZeros s.seg.zc.val).refuse c :=
        s.closeUnit.appendZeros_refuse c _
      rw [s.endOfPacket_close he hu, (s.refuse c).endOfPacket_close he hu]
      simp only [State.refuse_seg, State.refuse_params, hzeros]
      rfl
  · rw [not_or, Bool.not_eq_true, Bool.not_eq_true] at he
    rw [s.endOfPacket_carry he.1 he.2, (s.refuse c).endOfPacket_carry he.1 he.2]
    rfl

/-- The byte-stream scan ends with the same state, whatever CMD_STATUS held when it began. -/
theorem nalScan_of_refuse (c : Cause) (left : Nat) (s : State) : nalScan left (s.refuse c) = nalScan left s := by
  induction left generalizing s with
  | zero => exact s.endOfPacket_of_refuse c
  | succ left ih =>
    have hbyte : scanByte (s.refuse c).consumeByte.1 (s.refuse c).consumeByte.2 =
        Prod.map id (State.refuse c) (scanByte s.consumeByte.1 s.consumeByte.2) :=
      scanByte_refuse c s.consumeByte.1 s.consumeByte.2
    rw [nalScan, nalScan, hbyte, s.endOfPacket_of_refuse c]
    generalize scanByte s.consumeByte.1 s.consumeByte.2 = r
    obtain ⟨result, t⟩ := r
    cases result with
    | none => exact if_congr Iff.rfl rfl (ih t)
    | unit => rfl
    | overflow => rfl

/-- Each mode's result writes CMD_STATUS, and no mode reads it. -/
theorem State.modeNext_of_refuse (c : Cause) (s : State) : (s.refuse c).modeNext = s.modeNext := by
  have hscan : (s.refuse c).nalByteStreamNext = s.nalByteStreamNext := nalScan_of_refuse c _ s
  have hwhole : (s.refuse c).lengthPrefixedNext = s.lengthPrefixedNext := rfl
  have hvp9 : (s.refuse c).vp9Next = s.vp9Next := rfl
  have hobu : (s.refuse c).obuNext = s.obuNext := rfl
  have hannexB : (s.refuse c).annexBNext = s.annexBNext := rfl
  simp only [State.modeNext, State.refuse_cfg, hscan, hwhole, hvp9, hobu, hannexB]

/-! ## Every command -/

theorem exec_config_of_refuse (c : Cause) (s : State) (codec : Codec) (inmode : Bool) :
    exec (.config codec inmode) (s.refuse c) = exec (.config codec inmode) s := by
  change Host.Outcome.next ((s.refuse c).configure codec inmode) = .next (s.configure codec inmode)
  rw [State.configure_eq, State.configure_eq, State.unbindUnit_refuse]
  rfl

theorem exec_segPacket_of_refuse (c : Cause) (s : State) (eos eop disc : Bool) :
    exec (.segPacket eos eop disc) (s.refuse c) = exec (.segPacket eos eop disc) s := by
  rw [exec_segPacket, exec_segPacket, State.acceptPacket_refuse, State.parseSuperframeIndex_refuse, State.refuse_cfg,
    ← apply_ite (State.refuse c)]
  rfl

theorem exec_segNext_of_refuse (c : Cause) (s : State) : exec .segNext (s.refuse c) = exec .segNext s := by
  rw [exec_segNext, exec_segNext, State.release_refuse, State.modeNext_of_refuse]
  rfl

/-- No command reads CMD_STATUS, and each writes both its fields, so a refusal before a command makes no difference to it
(spec/60_exceptions.md R268). NOP, SRESET, LOAD_UNIT and the reads overwrite both fields in one update: there the next states
agree by definition. -/
theorem exec_of_refuse (c : Cause) (i : Instr) (s : State) : exec i (s.refuse c) = exec i s := by
  cases i with
  | nop | sreset => rfl
  | config codec inmode => exact exec_config_of_refuse c s codec inmode
  | loadUnit src epb => cases src <;> rfl
  | u | ue | se | uvlc | align | aligned | leb128 | su | le | ns | subexp | subexpRef => rfl
  | segPacket eos eop disc => exact exec_segPacket_of_refuse c s eos eop disc
  | segNext => exact exec_segNext_of_refuse c s

/-- A refused word before it changes nothing about what issuing a word does. -/
theorem issue_of_refuse (c : Cause) (w next : Word) (s : State) :
    issue next (State.refuse c { s with cmd := w }) = issue next s := by
  simp only [issue, State.refuse_params]
  split
  · exact exec_of_refuse c _ { s with cmd := next }
  · rfl

/-- Settles O6: the illegal word is refused, and no command looks at what a refusal writes. -/
theorem illegalWordHasNoLaterEffect : Obligations.IllegalWordHasNoLaterEffect :=
  fun s w _ he => ⟨_, issue_of_decode_error he, rfl, fun next => issue_of_refuse .illegalCmd w next s⟩

/-! ## Every step -/

/-- Every command ends in a next state (R260), which has the same queue and parameters. -/
theorem exec_answers_next (i : Instr) (s : State) :
    ∃ t, exec i s = .next t ∧ t.pending = s.pending ∧ t.params = s.params := by
  have hnext : ∃ t, exec i s = .next t := by cases i <;> exact ⟨_, rfl⟩
  obtain ⟨t, ht⟩ := hnext
  by_cases hi : i = .sreset
  · subst hi
    cases ht
    exact ⟨_, rfl, rfl, rfl⟩
  · obtain ⟨_, _, _, _, _, hparams, hpending, _⟩ := State.withCommand_keeps (exec_frame s t i hi ht).1
    exact ⟨t, ht, hpending, hparams⟩

/-- A word issued ends in a next state, an illegal one included (R264). -/
theorem issue_answers_next (w : Word) (s : State) :
    ∃ t, issue w s = .next t ∧ t.pending = s.pending ∧ t.params = s.params := by
  unfold issue
  split
  · exact exec_answers_next _ { s with cmd := w }
  · exact ⟨_, rfl, rfl, rfl⟩

/-- A host access ends in a next state: one that is misaligned or unmapped does not fault (R274). -/
theorem perform_answers_next (a : HostAccess) (s : State) :
    ∃ t, perform a s = .next t ∧ t.pending = s.pending ∧ t.params = s.params := by
  cases a with
  | read addr w => exact ⟨_, rfl, rfl, rfl⟩
  | write addr w v =>
    rw [perform]
    split
    · exact issue_answers_next v s
    · refine ⟨_, rfl, ?_⟩
      rw [State.memWrite_eq]
      exact ⟨rfl, rfl⟩

theorem step_idle {s : State} (h : s.pending = []) : step s = .next s := by rw [step, h]

theorem step_pending {s : State} {a : HostAccess} {rest : List HostAccess} (h : s.pending = a :: rest) :
    step s = perform a { s with pending := rest } := by rw [step, h]

/-- Settles O7: an idle step is `step_idle`, any other the access `step_pending` gives, which answers a next state. -/
theorem everyStepAnswersNext : Obligations.EveryStepAnswersNext := by
  refine fun s => ⟨?_, fun _ _ => step_pending, step_idle⟩
  cases hq : s.pending with
  | nil => exact ⟨s, step_idle hq, hq, rfl⟩
  | cons a rest =>
    rw [step_pending hq]
    exact perform_answers_next a { s with pending := rest }

end Sys2Proof.Machine
end

section
/-! Reset, and what completes before anything else may begin (spec/70_reset_and_hazards.md): the registers' reset values
(R290), when a command writes RESULT (R301), and that a host access which issues no command reaches no unit (R302). -/

namespace Sys2Proof.Machine

/-! ## The host beside a command -/

/-- Only a command's access is the write of a word at CMD. -/
theorem isCommandWrite_of_ne_commandAccess {addr v : Word} {w : AccessWidth}
    (h : ∀ x, HostAccess.write addr w v ≠ commandAccess x) : isCommandWrite addr.toNat w = false :=
  Bool.eq_false_iff.mpr fun hc => h v (eq_commandAccess addr w v hc)

/-- Settles O8: a read changes the bus data alone, and a write that issues no command is `memWrite`. -/
theorem hostWritesLeaveUnitsAlone : Obligations.HostWritesLeaveUnitsAlone := by
  intro s t a ha h
  cases a with
  | read addr w =>
    cases h
    exact ⟨rfl, rfl, rfl, rfl, rfl, rfl, rfl, rfl⟩
  | write addr w v =>
    cases (perform_write s addr v w (isCommandWrite_of_ne_commandAccess ha)).symm.trans h
    rw [State.memWrite_eq]
    exact ⟨rfl, rfl, rfl, rfl, rfl, rfl, rfl, rfl⟩

/-! ## RESULT -/

section

variable {s t : State}

/-- Of the three ways a read command ends only the commit writes RESULT (spec/41_fixed_width.md R141). -/
theorem exec_read_result {i : Instr} (hi : isReadCommand i = true) (h : exec i s = .next t) :
    t.result = s.result ∨ t.lastOk = true := by
  rcases exec_read_cases hi h with ⟨c, rfl⟩ | ⟨v, q, rfl, _⟩ | ⟨_, c, rfl⟩
  · exact .inl rfl
  · exact .inr rfl
  · exact .inl rfl

/-- LOAD_UNIT writes RESULT when it binds (spec/40_control.md R126). -/
theorem exec_loadUnit_result {src : UnitSource} {epb : Bool} (h : exec (.loadUnit src epb) s = .next t) :
    t.result = s.result ∨ t.lastOk = true := by
  rcases exec_loadUnit_cases h with ⟨c, _, rfl⟩ | ⟨_, _, rfl⟩ | ⟨_, _, rfl⟩
  · exact .inl rfl
  · exact .inr rfl
  · exact .inr rfl

theorem exec_config_keeps_result {codec : Codec} {inmode : Bool} (h : exec (.config codec inmode) s = .next t) :
    t.result = s.result := by
  cases h
  rw [State.configure_eq, State.unbindUnit_eq]
  rfl

theorem exec_segPacket_keeps_result {eos eop disc : Bool} (h : exec (.segPacket eos eop disc) s = .next t) :
    t.result = s.result := by
  rcases exec_segPacket_cases h with ⟨c, _, rfl⟩ | ⟨_, rfl | rfl⟩
  · rfl
  · rw [State.acceptPacket_eq]
    rfl
  · rw [State.parseSuperframeIndex_eq, State.acceptPacket_eq]
    rfl

/-- Of the three outcomes of SEG_NEXT only a unit writes RESULT (spec/44_segmenter_nal.md R205). -/
theorem exec_segNext_result (h : exec .segNext s = .next t) :
    t.result = s.result ∨ (t.lastOk = true ∧ t.seg.result = .unit) := by
  rcases exec_segNext_cases h with rfl | ⟨hv, _⟩
  · exact .inl rfl
  · have released : s.release.result = s.result := by rw [State.release_eq]
    rcases (segNext_ends s t hv h).ends with ⟨hunit, _, _, _, hok, _⟩ | ⟨_, _, _, hresult, _⟩ | ⟨_, _, _, hresult, _⟩
    · exact .inr ⟨hok, hunit⟩
    · exact .inl (hresult.trans released)
    · exact .inl (hresult.trans released)

/-- A command that writes RESULT succeeds. -/
theorem exec_result {i : Instr} (h : exec i s = .next t) : t.result = s.result ∨ t.lastOk = true := by
  cases i with
  | nop => cases h; exact .inl rfl
  | sreset => cases h; exact .inr rfl
  | config codec inmode => exact .inl (exec_config_keeps_result h)
  | loadUnit src epb => exact exec_loadUnit_result h
  | u | ue | se | uvlc | align | aligned | leb128 | su | le | ns | subexp | subexpRef => exact exec_read_result rfl h
  | segPacket eos eop disc => exact .inl (exec_segPacket_keeps_result h)
  | segNext => exact (exec_segNext_result h).imp_right And.left

end

/-- Settles O57: a command that writes RESULT succeeds, three commands never write it, and SEG_NEXT does for a unit. -/
theorem resultIsWrittenBySuccessOnly : Obligations.ResultIsWrittenBySuccessOnly := by
  intro s t i h
  refine ⟨fun hfail => ?failure, ?never, ?segNext⟩
  case failure => exact (exec_result h).resolve_right (by simp [hfail])
  case never =>
    rintro (rfl | ⟨codec, inmode, rfl⟩ | ⟨eos, eop, disc, rfl⟩)
    · cases h
      rfl
    · exact exec_config_keeps_result h
    · exact exec_segPacket_keeps_result h
  case segNext =>
    rintro rfl hunit
    exact (exec_segNext_result h).resolve_right fun ⟨_, hu⟩ => hunit hu

/-! ## Reset -/

/-- The parameters stand in no register. -/
theorem State.readReg_resetWith (p : Params) (r : Reg) : (State.resetWith p).readReg r = State.reset.readReg r := by
  cases r <;> rfl

/-- The reset column of R290: LAST_OK = 1 in CMD_STATUS, ALIGNED = 1 in RD_STATUS, and 0 elsewhere. -/
theorem State.readReg_reset (r : Reg) :
    State.reset.readReg r = if r = .cmdStatus then 0x00000001 else if r = .rdStatus then 0x00000010 else 0 := by
  cases r with
  | sfSize i => revert i; decide
  | _ => decide

/-- SRESET leaves its own word in CMD, and what power-on leaves in every other register. -/
theorem State.readReg_softReset_eq (s : State) (p : Params) (r : Reg) :
    s.softReset.readReg r = if r = .cmd then 0x04000000 else (State.resetWith p).readReg r := by
  split
  · subst r
    exact s.softReset_cmd
  · rw [s.readReg_softReset r ‹_›, State.readReg_resetWith]

/-- Settles O13: power-on by R290's table, and SRESET by its next state, the soft reset's. -/
theorem resetRegisterValues : Obligations.ResetRegisterValues :=
  fun p => ⟨fun r => (State.readReg_resetWith p r).trans (State.readReg_reset r), rfl,
    fun s => ⟨s.softReset, exec_sreset s, rfl, s.readReg_softReset_eq p⟩⟩

/-- Settles O60: nothing is bound, collected, held or stored, and the parameters are those in range. -/
theorem resetHasInvariant : Obligations.ResetHasInvariant := fun p hp => State.Inv.resetWith p hp

end Sys2Proof.Machine
end
